-- ==== Sys2Proof/Word.lean ====
section
/-! DEFINITION. The host's word (20_memory.md R61, R62: the only access width is 32 bits) and the widths of the
coded fields a word is made of. The block never sees bytes of memory (R63); `Byte` is only an 8-bit field. -/

namespace Sys2Proof

/-- One word of the host port; a command word, a control register, one word of a big register. -/
abbrev Word := BitVec 32

/-- An 8-bit field: `OPCODE`, `RSV`, `ERRCODE`. -/
abbrev Byte := BitVec 8

/-- The 16-bit field `ARG`. -/
abbrev Half := BitVec 16

end Sys2Proof
end

