-- ==== Sys2Proof/Config.lean ====
section
/-! DEFINITION. What one build of the block fixes (00_scope.md R7 to R10). `NW` is a parameter of the model
(U11 of 93_implementation_defined.md), so it is a field and every statement ranges over all its admitted values.
There is no opaque free value: no command of this block has an undefined result (see INVENTORY.md). -/

namespace Sys2Proof

/-- The parameters of one instance of the block (00_scope.md R7). -/
structure Config where
  /-- `NW`, the width in bits of every big register. -/
  nw : Nat
  deriving DecidableEq, Repr

namespace Config

/-- The instances R7 admits: `64 <= NW <= 4096` and `NW mod 64 = 0`. -/
abbrev Ok (c : Config) : Prop := 64 ≤ c.nw ∧ c.nw ≤ 4096 ∧ c.nw % 64 = 0

/-- The reference instance, `NW = 256` (R7). -/
def reference : Config := { nw := 256 }

/-- `NWORDS = NW / 32` (R7). -/
abbrev nwords (c : Config) : Nat := c.nw / 32

/-- `MAX_W = NW / 2`, the greatest admitted prime width (R9). -/
abbrev maxW (c : Config) : Nat := c.nw / 2

/-- `2^NW`: a big register holds a value below it (10_state.md R21). -/
abbrev bound (c : Config) : Nat := 2 ^ c.nw

/-- `E_CONST`, the public exponent (R8). -/
abbrev eConst : Nat := 65537

/-- `PT_ROUNDS`, the round count of every primality request (R9). -/
abbrev ptRounds : Nat := 25

/-- `MIN_W`, the least admitted prime width (R9). -/
abbrev minW : Nat := 8

/-- The identification word (R10; 10_state.md R30). -/
abbrev idWord : Word := 0x4D454531#32

/-- The size in bytes of the register space (R10; 20_memory.md R60). -/
abbrev spaceBytes : Nat := 0x2000

end Config

end Sys2Proof
end

