-- ==== Sys2Proof/Syntax.lean ====
section
/-! DEFINITION. The thirteen commands (30_encoding.md R105), one constructor per row of spec/opcode_table.json. -/

namespace Sys2Proof

/-- A command. Every operand but `GENKEY`'s width is an implicit register (30_encoding.md R101, R102). -/
inductive Instr where
  /-- `NOP` (46_system.md R190). -/
  | nop
  /-- `MODPOW` (42_modpow.md R140). -/
  | modpow
  /-- `MODINV` (41_modinv.md R130). -/
  | modinv
  /-- `GENKEY w` (43_keygen.md R150); `w` is `ARG` as an unsigned integer (30_encoding.md R101). -/
  | genkey (w : Nat)
  /-- `DERIVE` (43_keygen.md R158). -/
  | derive
  /-- `LOADKEY` (44_keyslot.md R170). -/
  | loadkey
  /-- `PROJECT` (43_keygen.md R165). -/
  | project
  /-- `ENCRYPT` (45_cipher.md R180). -/
  | encrypt
  /-- `DECRYPT` (45_cipher.md R183). -/
  | decrypt
  /-- `CLRKEY` (44_keyslot.md R174). -/
  | clrkey
  /-- `CLRPUB` (44_keyslot.md R175). -/
  | clrpub
  /-- `SIGN` (46_system.md R192). -/
  | sign
  /-- `VERIFY` (46_system.md R193). -/
  | verify
  deriving DecidableEq, Repr

end Sys2Proof
end

