-- ==== Sys2Proof/WellFormed.lean ====
section
/-! DEFINITION. Which commands have an encoding: the one operand, `GENKEY`'s `w`, fits the 16 bits of `ARG`
(30_encoding.md R100, R101). The range `8 <= w <= NW / 2` is no matter of form: a width outside it is a legal
encoding and an operand error (R101, R106). -/

namespace Sys2Proof

/-- The command has an encoding. -/
def Instr.wellFormed : Instr → Bool
  | .nop => true
  | .modpow => true
  | .modinv => true
  | .genkey w => decide (w ≤ 65535)
  | .derive => true
  | .loadkey => true
  | .project => true
  | .encrypt => true
  | .decrypt => true
  | .clrkey => true
  | .clrpub => true
  | .sign => true
  | .verify => true

end Sys2Proof
end

