-- ==== Sys2Proof/Decode.lean ====
section
/-! DEFINITION. The command word (30_encoding.md R100), the decoder of the CHECK step (R104, R105, R106), total on
all `2^32` words and rejecting by name, and the encoder. -/

namespace Sys2Proof

/-- `OPCODE`, bits 7:0 (R100). -/
def opcodeOf (v : Word) : Byte := v.extractLsb' 0 8

/-- `ARG`, bits 23:8 (R100). -/
def argOf (v : Word) : Half := v.extractLsb' 8 16

/-- `RSV`, bits 31:24 (R100). -/
def rsvOf (v : Word) : Byte := v.extractLsb' 24 8

/-- Why a word is no command (R104 case 1, R106). -/
inductive IllegalWord where
  /-- `RSV != 0`. -/
  | reservedBits
  /-- `OPCODE > 0x0C`. -/
  | unknownOpcode
  /-- `ARG != 0` and the opcode is not `GENKEY`'s. -/
  | argumentNotZero
  deriving DecidableEq, Repr

/-- What the decoder answers. -/
inductive Decoded where
  | instr (i : Instr)
  | illegal (r : IllegalWord)
  deriving DecidableEq, Repr

/-- A command without an argument: `ARG` must be zero (R100, R104). -/
def plainCommand (v : Word) (i : Instr) : Decoded :=
  if argOf v = 0 then .instr i else .illegal .argumentNotZero

/-- The decoder (R104, R105). -/
def decode (v : Word) : Decoded :=
  if rsvOf v ≠ 0 then .illegal .reservedBits
  else
    match (opcodeOf v).toNat with
    | 0x00 => plainCommand v .nop
    | 0x01 => plainCommand v .modpow
    | 0x02 => plainCommand v .modinv
    | 0x03 => .instr (.genkey (argOf v).toNat)
    | 0x04 => plainCommand v .derive
    | 0x05 => plainCommand v .loadkey
    | 0x06 => plainCommand v .project
    | 0x07 => plainCommand v .encrypt
    | 0x08 => plainCommand v .decrypt
    | 0x09 => plainCommand v .clrkey
    | 0x0A => plainCommand v .clrpub
    | 0x0B => plainCommand v .sign
    | 0x0C => plainCommand v .verify
    | _ => .illegal .unknownOpcode

/-- The opcode column of R105. -/
def Instr.opcode : Instr → Nat
  | .nop => 0x00
  | .modpow => 0x01
  | .modinv => 0x02
  | .genkey _ => 0x03
  | .derive => 0x04
  | .loadkey => 0x05
  | .project => 0x06
  | .encrypt => 0x07
  | .decrypt => 0x08
  | .clrkey => 0x09
  | .clrpub => 0x0A
  | .sign => 0x0B
  | .verify => 0x0C

/-- The argument a command carries: `w` for `GENKEY`, zero for every other (R100). -/
def Instr.arg : Instr → Nat
  | .genkey w => w
  | .nop | .modpow | .modinv | .derive | .loadkey | .project | .encrypt | .decrypt | .clrkey | .clrpub | .sign
  | .verify => 0

/-- The command word (R100, R110: `CMD GENKEY w` writes `0x00000003 + 256 * w`). -/
def encode (i : Instr) : Word := BitVec.ofNat 32 (i.opcode + 256 * i.arg)

/-- One row of the table of R105: a word `v` selects the row when `v and mask = match`. -/
structure OpcodeRow where
  matchBits : Word
  mask : Word
  deriving DecidableEq, Repr

/-- The word selects the row (R105). -/
def OpcodeRow.selectedBy (r : OpcodeRow) (v : Word) : Bool := v &&& r.mask == r.matchBits

/-- The `match` and `mask` columns of R105, in the table's order. -/
def opcodeRows : List OpcodeRow :=
  [⟨0x00000000#32, 0xFFFFFFFF#32⟩, ⟨0x00000001#32, 0xFFFFFFFF#32⟩, ⟨0x00000002#32, 0xFFFFFFFF#32⟩,
   ⟨0x00000003#32, 0xFF0000FF#32⟩, ⟨0x00000004#32, 0xFFFFFFFF#32⟩, ⟨0x00000005#32, 0xFFFFFFFF#32⟩,
   ⟨0x00000006#32, 0xFFFFFFFF#32⟩, ⟨0x00000007#32, 0xFFFFFFFF#32⟩, ⟨0x00000008#32, 0xFFFFFFFF#32⟩,
   ⟨0x00000009#32, 0xFFFFFFFF#32⟩, ⟨0x0000000A#32, 0xFFFFFFFF#32⟩, ⟨0x0000000B#32, 0xFFFFFFFF#32⟩,
   ⟨0x0000000C#32, 0xFFFFFFFF#32⟩]

/-- The table's numbering of an instruction's bits as a command word: one 32-bit word, bit 0 first; bits at
`nbits` and above are zero. A number of more than 32 bits is no command word. -/
def tableWord (nbits w : Nat) : Option Word :=
  let bits := w % 2 ^ nbits
  if bits < 2 ^ 32 then some (BitVec.ofNat 32 bits) else none

/-- The instruction the decoder reads from a table word. -/
def decodeTableWord (nbits w : Nat) : Option Instr :=
  match tableWord nbits w with
  | none => none
  | some v =>
    match decode v with
    | .instr i => some i
    | .illegal _ => none

end Sys2Proof
end

