-- ==== Sys2Proof/Machine/State.lean ====
section
/-! DEFINITION. The architectural state of the block (10_state.md), the agenda of moves that stands for the host,
the environment and the scheduler (20_memory.md R80), the reasons a step can stop, and the state after reset. -/

namespace Sys2Proof.Machine

/-- The twelve big registers (10_state.md R20). -/
inductive BigReg where
  | opa | opb | opm | res
  | keyP | keyQ | keyE | keyD | keyN | keyT
  | pubE | pubN
  deriving DecidableEq, Repr

/-- The values of the big registers: unsigned integers (R21; 00_scope.md R15 admits natural numbers with the
invariant `< 2^NW`). Reads and writes go through `BigRegs.get` and `BigRegs.set` of Operands.lean. -/
structure BigRegs where
  opa : Nat
  opb : Nat
  opm : Nat
  res : Nat
  keyP : Nat
  keyQ : Nat
  keyE : Nat
  keyD : Nat
  keyN : Nat
  keyT : Nat
  pubE : Nat
  pubN : Nat
  deriving DecidableEq, Repr

/-- `CTRL`: bit 0 `IE_DONE`, bit 1 `IE_ERR`; the other bits are not storage (R32). -/
structure Ctrl where
  ieDone : Bool
  ieErr : Bool
  deriving DecidableEq, Repr

/-- The fields of `STATUS` (R34 to R37). -/
structure Status where
  busy : Bool
  done : Bool
  err : Bool
  keyValid : Bool
  pubValid : Bool
  busyViol : Bool
  lockViol : Bool
  errcode : Byte
  deriving DecidableEq, Repr

/-- The state of the sequencer (R39). -/
inductive Phase where
  | idle | check | mpLoop | miLoop | kgDraw | kgRngWait | kgTest | kgPtWait | kgDerive
  deriving DecidableEq, Repr

/-- `hid.ret`: where the running inverse delivers its result (R40). -/
inductive Ret where
  | toRes | toKey
  deriving DecidableEq, Repr

/-- `hid.which`: which prime is being sampled (R40). -/
inductive Which where
  | p | q
  deriving DecidableEq, Repr

/-- The hidden working values (R40), held as exact integers. -/
structure Hidden where
  op : Byte
  arg : Half
  ret : Ret
  c : Nat
  b : Nat
  e : Nat
  m : Nat
  r : Nat
  newr : Nat
  t : Int
  newt : Int
  n : Nat
  w : Nat
  which : Which
  cand : Nat
  p : Nat
  q : Nat
  nmod : Nat
  tot : Nat
  deriving DecidableEq, Repr

/-- A port event (20_memory.md R82). -/
inductive PortEvent where
  | rngRequest (w : Nat)
  | rngReply (rnd : Nat)
  | primeRequest (cand rounds : Nat)
  | primeReply (verdict : Bool)
  deriving DecidableEq, Repr

/-- A transaction on the host port, with the byte offset and the size in bytes it asks for (20_memory.md R61). Only
size 4 at an aligned offset below 0x2000 can be expressed at the port; any other is refused (R62). -/
inductive HostOp where
  | read (off size : Nat)
  | write (off size : Nat) (v : Word)
  deriving DecidableEq, Repr

/-- One word answered on the host port. -/
structure ReadAnswer where
  off : Nat
  word : Word
  deriving DecidableEq, Repr

/-- One entry of the agenda: whose move is next, and the move's data (20_memory.md R80; log entries 2 and 3). -/
inductive Action where
  /-- The host makes one transaction. -/
  | host (op : HostOp)
  /-- The engine takes one step. -/
  | engine
  /-- The environment answers the random request. -/
  | rngReply (rnd : Nat)
  /-- The environment answers the primality request. -/
  | primeReply (verdict : Bool)
  /-- The reset input is pulsed (70_reset_and_hazards.md R230). -/
  | reset
  /-- The engine takes every step it can, one per step of the machine; then the next entry has its turn. -/
  | settle
  /-- The host reads `STATUS` until `DONE` is set, the engine taking a step between two reads whenever it has one
  (`WAIT` of 30_encoding.md R110; 20_memory.md R90). -/
  | poll
  /-- The engine takes every step it can, and the environment answers every request of it with this reply and this
  verdict, until the command ends: with a verdict that is always rejected, a run that never ends (40_prime_sampling.md
  R126). -/
  | serve (rnd : Nat) (verdict : Bool)
  deriving DecidableEq, Repr

/-- The whole machine. `cfg`, `trace`, `reads` and `agenda` are not state of the block: the parameter, the event
trace of 20_memory.md R82, the host port's answers, and the moves to come. -/
structure State where
  cfg : Config
  regs : BigRegs
  ctrl : Ctrl
  /-- `CMD`, the last word that issued a command (10_state.md R33). -/
  cmd : Word
  status : Status
  phase : Phase
  hid : Hidden
  /-- Every port event, oldest first. -/
  trace : List PortEvent
  /-- Every word answered to a host read, oldest first. -/
  reads : List ReadAnswer
  /-- The moves to come, the next one first. -/
  agenda : List Action
  deriving DecidableEq, Repr

/-- A place where a rule's own notation has no meaning. The block has no fault that stops it; both constructors are
raised by engine and reply steps only, in states that no run reaches, and stopping there is safe (log entry 6). -/
inductive Fault where
  /-- Raised by the power loop with a zero modulus and by an RNG reply with a zero width: `x mod 0` and `2^(-1)` are
  given no value (00_scope.md R14). Safe. -/
  | undefinedArithmetic
  /-- Raised by the completing steps and by KG_DERIVE when a value to be written is not in the range its register
  requires (00_scope.md R13: `0 <= v < 2^NW`; 10_state.md R40: working values are naturals). Safe. -/
  | valueOutOfRange
  deriving DecidableEq, Repr

/-- A move that is no step of the machine. -/
inductive Refusal where
  /-- An instruction without a meaning; raised by no arm of `exec`. Safe. -/
  | notModelled (mnemonic : String)
  /-- Raised by a host transaction that is not an aligned 32-bit access below 0x2000 (20_memory.md R62). Safe. -/
  | accessNotExpressible
  /-- Raised by an environment reply with no request of its kind outstanding (20_memory.md R89). Safe. -/
  | replyWithoutRequest
  /-- Raised by an RNG reply outside `[0, 2^NW)` (20_memory.md R84; 40_prime_sampling.md R122). Safe. -/
  | replyOutOfRange
  /-- Raised by an engine move in a phase with no engine step (20_memory.md R80). Safe. -/
  | engineNotEnabled
  deriving DecidableEq, Repr

/-- What one step or one meaning answers. -/
abbrev Result := Host.Outcome State Fault Refusal

/-- The hidden values after reset: unspecified, unobservable, zero here as R43 permits (log entry 5). -/
def Hidden.reset : Hidden where
  op := 0
  arg := 0
  ret := .toRes
  c := 0
  b := 0
  e := 0
  m := 0
  r := 0
  newr := 0
  t := 0
  newt := 0
  n := 0
  w := 0
  which := .p
  cand := 0
  p := 0
  q := 0
  nmod := 0
  tot := 0

/-- Any instance after reset (10_state.md R43). -/
def State.resetFor (cfg : Config) : State where
  cfg := cfg
  regs := ⟨0, 0, 0, 0, 0, 0, 0, 0, 0, 0, 0, 0⟩
  ctrl := ⟨false, false⟩
  cmd := 0
  status := ⟨false, false, false, false, false, false, false, 0⟩
  phase := .idle
  hid := Hidden.reset
  trace := []
  reads := []
  agenda := []

/-- The reference instance after reset (10_state.md R43; 00_scope.md R7). -/
def State.reset : State := State.resetFor Config.reference

end Sys2Proof.Machine
end

