-- ==== Sys2Proof/Machine/Operands.lean ====
section
/-! DEFINITION. Registers and their words: the accessors of the big registers, the word view of 00_scope.md R12, the
register map of 20_memory.md R70, and what each offset names (R64, R65). Every operand of a command but `GENKEY`'s
`w` is a fixed register (30_encoding.md R102), read by `State.br`. -/

namespace Sys2Proof.Machine

/-- `bitlen(v)`: the least `k` with `v < 2^k` (00_scope.md R11). -/
def bitlen (v : Nat) : Nat := if v = 0 then 0 else Nat.log2 v + 1

/-- `word(X, k) = X[32k+31 : 32k]` (R12; 20_memory.md R63: word 0 is the least significant). -/
def wordOf (v k : Nat) : Word := BitVec.ofNat 32 (v / 2 ^ (32 * k))

/-- `X[32k+31 : 32k] <- w`, the other bits of `X` unchanged (20_memory.md R65 case 5). -/
def replaceWord (v k : Nat) (w : Word) : Nat :=
  v % 2 ^ (32 * k) + 2 ^ (32 * k) * (w.toNat + 2 ^ 32 * (v / 2 ^ (32 * (k + 1))))

/-- The value of a big register. -/
def BigRegs.get (g : BigRegs) : BigReg → Nat
  | .opa => g.opa
  | .opb => g.opb
  | .opm => g.opm
  | .res => g.res
  | .keyP => g.keyP
  | .keyQ => g.keyQ
  | .keyE => g.keyE
  | .keyD => g.keyD
  | .keyN => g.keyN
  | .keyT => g.keyT
  | .pubE => g.pubE
  | .pubN => g.pubN

/-- The registers with one written. -/
def BigRegs.set (g : BigRegs) (X : BigReg) (v : Nat) : BigRegs :=
  match X with
  | .opa => { g with opa := v }
  | .opb => { g with opb := v }
  | .opm => { g with opm := v }
  | .res => { g with res := v }
  | .keyP => { g with keyP := v }
  | .keyQ => { g with keyQ := v }
  | .keyE => { g with keyE := v }
  | .keyD => { g with keyD := v }
  | .keyN => { g with keyN := v }
  | .keyT => { g with keyT := v }
  | .pubE => { g with pubE := v }
  | .pubN => { g with pubN := v }

/-- `BR[X]` (00_scope.md R13). -/
def State.br (s : State) (X : BigReg) : Nat := s.regs.get X

/-- `BR[X] <- v` (R13); the callers see to `v < 2^NW`. -/
def State.setBr (s : State) (X : BigReg) (v : Nat) : State := { s with regs := s.regs.set X v }

/-- The register belongs to the key slot (10_state.md R26). -/
def BigReg.inKeySlot : BigReg → Bool
  | .keyP | .keyQ | .keyE | .keyD | .keyN | .keyT => true
  | .opa | .opb | .opm | .res | .pubE | .pubN => false

/-- The register belongs to the public slot (10_state.md R28). -/
def BigReg.inPublicSlot : BigReg → Bool
  | .pubE | .pubN => true
  | .opa | .opb | .opm | .res | .keyP | .keyQ | .keyE | .keyD | .keyN | .keyT => false

/-- The twelve big registers in the order of their windows. -/
def BigReg.all : List BigReg :=
  [.opa, .opb, .opm, .res, .keyP, .keyQ, .keyE, .keyD, .keyN, .keyT, .pubE, .pubN]

/-- `base(X)`, the offset column of the register map (20_memory.md R70). -/
def BigReg.base : BigReg → Nat
  | .opa => 0x0200
  | .opb => 0x0400
  | .opm => 0x0600
  | .res => 0x0800
  | .keyP => 0x0A00
  | .keyQ => 0x0C00
  | .keyE => 0x0E00
  | .keyD => 0x1000
  | .keyN => 0x1200
  | .keyT => 0x1400
  | .pubE => 0x1600
  | .pubN => 0x1800

/-- Offset of `CTRL` (R70). -/
abbrev ctrlOff : Nat := 0x0008
/-- Offset of `CMD` (R70). -/
abbrev cmdOff : Nat := 0x000C
/-- Offset of `STATUS` (R70). -/
abbrev statusOff : Nat := 0x0010

/-- `off` is a word of the window of `X` with index `k = (off - base(X)) / 4 < NWORDS` (20_memory.md R64 case 6). The
rest of the 0x200 bytes of a window names nothing, whether the engine is busy or not: R65 case 6 and R70 give a write
there no flag, where R37 and R67 say that a write to any window sets `BUSY_VIOL` while busy (DESIGN CHOICE, log entry
8). -/
def inWindow (cfg : Config) (off : Nat) (X : BigReg) : Bool :=
  decide (X.base ≤ off ∧ (off - X.base) / 4 < cfg.nwords)

/-- What an offset of the register space names. -/
inductive Location where
  | id | config | ctrl | cmd | status
  | big (X : BigReg) (k : Nat)
  | unmapped
  deriving DecidableEq, Repr

/-- The register map read as the cases of 20_memory.md R64 and R65, the first match winning. -/
def locate (cfg : Config) (off : Nat) : Location :=
  if off = 0x0000 then .id
  else if off = 0x0004 then .config
  else if off = ctrlOff then .ctrl
  else if off = cmdOff then .cmd
  else if off = statusOff then .status
  else
    match BigReg.all.find? (inWindow cfg off) with
    | some X => .big X ((off - X.base) / 4)
    | none => .unmapped

/-- The access can be expressed at the port: 32 bits, aligned, inside the space (20_memory.md R61, R62). -/
def expressible (off size : Nat) : Bool := decide (size = 4 ∧ off % 4 = 0 ∧ off < Config.spaceBytes)

end Sys2Proof.Machine
end

