-- ==== Sys2Proof/Machine/Flags.lean ====
section
/-! DEFINITION. The flags: how the control words are assembled (10_state.md R31, R32, R34), what issue and the two
completions do to `STATUS` (R35, R36), the write-1-to-clear action (R34), the error codes (60_exceptions.md R200),
and the interrupt line (R38, R213). -/

namespace Sys2Proof.Machine

/-- The error kinds (60_exceptions.md R200). -/
inductive ErrKind where
  | notInvertible
  | blockTooLarge
  /-- Reserved for the software around the block; no rule raises it (R203). -/
  | invalidEncoding
  | illegalCmd
  | unimplemented
  | range
  | width
  | noKey
  | keyLocked
  deriving DecidableEq, Repr

/-- The code column of R200. -/
def ErrKind.code : ErrKind → Byte
  | .notInvertible => 0x01#8
  | .blockTooLarge => 0x02#8
  | .invalidEncoding => 0x03#8
  | .illegalCmd => 0x10#8
  | .unimplemented => 0x11#8
  | .range => 0x12#8
  | .width => 0x13#8
  | .noKey => 0x14#8
  | .keyLocked => 0x15#8

/-- `CONFIG` (10_state.md R31). -/
def configWord (cfg : Config) : Word :=
  (0#8 ++ BitVec.ofNat 8 Config.ptRounds ++ BitVec.ofNat 8 Config.minW ++ BitVec.ofNat 8 cfg.nwords : BitVec 32)

/-- `CTRL` as read: bits 31:2 are zero (R32). -/
def ctrlWord (c : Ctrl) : Word := (0#30 ++ BitVec.ofBool c.ieErr ++ BitVec.ofBool c.ieDone : BitVec 32)

/-- `CTRL <- v`: two bits are kept (20_memory.md R65 case 2). -/
def ctrlOf (v : Word) : Ctrl := { ieDone := v.getLsbD 0, ieErr := v.getLsbD 1 }

/-- `STATUS` assembled from its fields (R34). -/
def statusWord (st : Status) : Word :=
  (0#16 ++ st.errcode ++ 0#1 ++ BitVec.ofBool st.lockViol ++ BitVec.ofBool st.busyViol ++ BitVec.ofBool st.pubValid ++
    BitVec.ofBool st.keyValid ++ BitVec.ofBool st.err ++ BitVec.ofBool st.done ++ BitVec.ofBool st.busy : BitVec 32)

/-- What issue does (R35). -/
def Status.issued (st : Status) : Status := { st with busy := true, done := false, err := false, errcode := 0 }

/-- Completion without error (R35; 60_exceptions.md R211). -/
def Status.completed (st : Status) : Status := { st with busy := false, done := true }

/-- Completion with error code `code` (R35; 60_exceptions.md R210). -/
def Status.failed (st : Status) (code : Byte) : Status :=
  { st with busy := false, done := true, err := true, errcode := code }

/-- The write-1-to-clear action of a host write of `v` to `STATUS` (R34). -/
def Status.cleared (st : Status) (v : Word) : Status :=
  { st with
    done := st.done && !v.getLsbD 1
    err := st.err && !v.getLsbD 2
    errcode := if v.getLsbD 2 then 0 else st.errcode
    busyViol := st.busyViol && !v.getLsbD 5
    lockViol := st.lockViol && !v.getLsbD 6 }

/-- The interrupt output, a level derived from the flags (R38; 60_exceptions.md R213). -/
def State.irq (s : State) : Bool := (s.ctrl.ieDone && s.status.done) || (s.ctrl.ieErr && s.status.err)

end Sys2Proof.Machine
end

