-- ==== Sys2Proof/Machine/Ops.lean ====
section
/-! DEFINITION. The named operations every step is made of: issue (30_encoding.md R103), the error completion
(60_exceptions.md R210), which is this hardware's exception entry, and the completion without error (R211); the host's
read and write of the register space (20_memory.md R64, R65); the delivery of a result (41_modinv.md R133,
42_modpow.md R143, 43_keygen.md R155); the start of the two loops; reset (70_reset_and_hazards.md R230). -/

namespace Sys2Proof.Machine

namespace State

/-- Issue of the command word `v` (30_encoding.md R103). It checks nothing. -/
def issue (s : State) (v : Word) : State :=
  { s with
    cmd := v
    hid := { s.hid with op := opcodeOf v, arg := argOf v }
    status := s.status.issued
    phase := .check }

/-- `raise Err(k)`, the error completion (60_exceptions.md R210): nothing but `STATUS` and the phase changes. There is
no vector and nothing is saved. -/
def raiseErr (s : State) (k : ErrKind) : State := { s with status := s.status.failed k.code, phase := .idle }

/-- `done()`, the completion without error (R211). -/
def finish (s : State) : State := { s with status := s.status.completed, phase := .idle }

/-- The acknowledgement, in place of a return from trap: a host write to `STATUS` (R215; 10_state.md R34). -/
def acknowledge (s : State) (v : Word) : State := { s with status := s.status.cleared v }

/-- `emit Ev` (20_memory.md R82). -/
def emit (s : State) (ev : PortEvent) : State := { s with trace := s.trace ++ [ev] }

/-- The valid flag of the key slot (10_state.md R27). -/
def setKeyValid (s : State) (b : Bool) : State := { s with status := { s.status with keyValid := b } }

/-- The valid flag of the public slot (10_state.md R28). -/
def setPubValid (s : State) (b : Bool) : State := { s with status := { s.status with pubValid := b } }

/-- A host write dropped because the engine is busy (10_state.md R37). -/
def noteBusyViol (s : State) : State := { s with status := { s.status with busyViol := true } }

/-- A host write dropped because the register is read-only or locked (10_state.md R37; 20_memory.md R68). -/
def noteLockViol (s : State) : State := { s with status := { s.status with lockViol := true } }

/-- The host may write `X`, the engine being idle (20_memory.md R66). -/
def writable (s : State) : BigReg → Bool
  | .opa | .opb | .opm => true
  | .keyP | .keyQ | .keyE | .keyD | .keyN | .keyT => !s.status.keyValid
  | .res | .pubE | .pubN => false

/-- `MemRead(off, 4)` (20_memory.md R64): a word, and no change of state. -/
def memRead (s : State) (off : Nat) : Word :=
  match locate s.cfg off with
  | .id => Config.idWord
  | .config => configWord s.cfg
  | .ctrl => ctrlWord s.ctrl
  | .cmd => s.cmd
  | .status => statusWord s.status
  | .big X k => if s.status.busy then 0 else wordOf (s.br X) k
  | .unmapped => 0

/-- `MemWrite(off, 4, v)` (20_memory.md R65). -/
def memWrite (s : State) (off : Nat) (v : Word) : State :=
  match locate s.cfg off with
  | .id => s
  | .config => s
  | .ctrl => { s with ctrl := ctrlOf v }
  | .cmd => if s.status.busy then s.noteBusyViol else s.issue v
  | .status => s.acknowledge v
  | .big X k =>
    if s.status.busy then s.noteBusyViol
    else if s.writable X then s.setBr X (replaceWord (s.br X) k v)
    else s.noteLockViol
  | .unmapped => s

/-- The host reads: the port's answer is recorded, and nothing else changes (R64). -/
def answerRead (s : State) (off : Nat) : State := { s with reads := s.reads ++ [⟨off, s.memRead off⟩] }

/-- One host transaction (20_memory.md R61); one the port cannot express is refused (R62). -/
def hostStep (s : State) : HostOp → Result
  | .read off size => if expressible off size then .next (s.answerRead off) else .refused .accessNotExpressible
  | .write off size v => if expressible off size then .next (s.memWrite off v) else .refused .accessNotExpressible

/-- The exponentiation engine is loaded with `modPow(base, exponent, modulus)`, the base reduced once
(42_modpow.md R140, R141). -/
def startPow (s : State) (base exponent modulus : Nat) : State :=
  { s with
    hid := { s.hid with m := modulus, c := 1, b := base % modulus, e := exponent }
    phase := .mpLoop }

/-- The inverse unit is loaded with `modInverse(a, n)` (41_modinv.md R130; 43_keygen.md R154). -/
def startInverse (s : State) (a n : Nat) (ret : Ret) : State :=
  { s with
    hid := { s.hid with n := n, r := n, newr := a, t := 0, newt := 1, ret := ret }
    phase := .miLoop }

/-- `BR[RES] <- v; done()` (42_modpow.md R143; 41_modinv.md R133). -/
def deliverResult (s : State) (v : Nat) : Result :=
  if v < s.cfg.bound then .next (s.setBr .res v).finish else .fault .valueOutOfRange

/-- The six key registers written together. -/
def setKeySlot (s : State) (p q e d n t : Nat) : State :=
  { s with regs := { s.regs with keyP := p, keyQ := q, keyE := e, keyD := d, keyN := n, keyT := t } }

/-- The key commit (43_keygen.md R155): six registers and the valid flag change in one step. -/
def commitKey (s : State) (d : Nat) : Result :=
  if s.hid.p < s.cfg.bound ∧ s.hid.q < s.cfg.bound ∧ Config.eConst < s.cfg.bound ∧ d < s.cfg.bound ∧
      s.hid.nmod < s.cfg.bound ∧ s.hid.tot < s.cfg.bound then
    .next ((s.setKeySlot s.hid.p s.hid.q Config.eConst d s.hid.nmod s.hid.tot).setKeyValid true).finish
  else .fault .valueOutOfRange

/-- The reset input pulsed in a run (70_reset_and_hazards.md R230, R232): every piece of state of the block takes its
reset value; the event trace, the host's answers and the moves to come are not the block's and stay. -/
def applyReset (s : State) : State :=
  { State.resetFor s.cfg with trace := s.trace, reads := s.reads, agenda := s.agenda }

end State

end Sys2Proof.Machine
end

