-- ==== Sys2Proof/Machine/Cipher.lean ====
section
/-! DEFINITION. The cipher block operations (45_cipher.md). -/

namespace Sys2Proof.Machine

/-- `ENCRYPT`, CHECK part (R180, R181). -/
def execEncrypt (s : State) : Result :=
  if !s.status.pubValid then .next (s.raiseErr .noKey)
  else if s.br .pubN ≤ s.br .opa then .next (s.raiseErr .blockTooLarge)
  else .next (s.startPow (s.br .opa) (s.br .pubE) (s.br .pubN))

/-- `DECRYPT`, CHECK part (R183); no bound check (R184). -/
def execDecrypt (s : State) : Result :=
  if !s.status.keyValid then .next (s.raiseErr .noKey)
  else if s.br .keyN = 0 then .next (s.raiseErr .range)
  else .next (s.startPow (s.br .opa) (s.br .keyD) (s.br .keyN))

end Sys2Proof.Machine
end

