-- ==== Sys2Proof/Machine/KeyGen.lean ====
section
/-! DEFINITION. The key derivation controller (43_keygen.md): the CHECK parts of `GENKEY`, `DERIVE` and `PROJECT`, and
the step `KG_DERIVE`. The inverse loop and the commit are in ModInv.lean and Ops.lean. -/

namespace Sys2Proof.Machine

/-- `GENKEY w`, CHECK part (R151). -/
def execGenkey (w : Nat) (s : State) : Result :=
  if w < Config.minW ∨ s.cfg.maxW < w then .next (s.raiseErr .width)
  else if s.status.keyValid then .next (s.raiseErr .keyLocked)
  else .next { s with hid := { s.hid with w := w, which := .p }, phase := .kgDraw }

/-- `DERIVE`, CHECK part (R159): the exact product is compared with `2^NW`. -/
def execDerive (s : State) : Result :=
  if s.status.keyValid then .next (s.raiseErr .keyLocked)
  else if s.br .opa < 2 ∨ s.br .opb < 2 ∨ s.br .opa = s.br .opb ∨ s.cfg.bound ≤ s.br .opa * s.br .opb then
    .next (s.raiseErr .range)
  else .next { s with hid := { s.hid with p := s.br .opa, q := s.br .opb }, phase := .kgDerive }

/-- Step `KG_DERIVE` (R154): modulus, totient, and the inverse unit loaded with `modInverse(65537, totient)`. -/
def kgDeriveStep (s : State) : Result :=
  if s.hid.p = 0 ∨ s.hid.q = 0 then .fault .valueOutOfRange
  else
    let tot := (s.hid.p - 1) * (s.hid.q - 1)
    .next ({ s with hid := { s.hid with nmod := s.hid.p * s.hid.q, tot := tot } }.startInverse Config.eConst tot .toKey)

/-- `PROJECT` (R165). -/
def execProject (s : State) : Result :=
  if !s.status.keyValid then .next (s.raiseErr .noKey)
  else if s.status.pubValid then .next (s.raiseErr .keyLocked)
  else .next (((s.setBr .pubE (s.br .keyE)).setBr .pubN (s.br .keyN)).setPubValid true).finish

end Sys2Proof.Machine
end

