-- ==== Sys2Proof/Machine/KeySlot.lean ====
section
/-! DEFINITION. The key slots and their lifecycle (44_keyslot.md). -/

namespace Sys2Proof.Machine

/-- `LOADKEY` (R170): no arithmetic check is made (R171). -/
def execLoadkey (s : State) : Result :=
  if s.status.keyValid then .next (s.raiseErr .keyLocked) else .next (s.setKeyValid true).finish

/-- `CLRKEY` (R174). -/
def execClrkey (s : State) : Result := .next ((s.setKeySlot 0 0 0 0 0 0).setKeyValid false).finish

/-- `CLRPUB` (R175). -/
def execClrpub (s : State) : Result := .next (((s.setBr .pubE 0).setBr .pubN 0).setPubValid false).finish

end Sys2Proof.Machine
end

