-- ==== Sys2Proof/Machine/ModInv.lean ====
section
/-! DEFINITION. The modular inverse unit (41_modinv.md): the CHECK part of `MODINV`, the loop step it shares with key
derivation, and the function `modInverse` of R131 that the loop computes. -/

namespace Sys2Proof.Machine

/-- `MODINV`, CHECK part (R130). -/
def execModinv (s : State) : Result :=
  if s.br .opm = 0 then .next (s.raiseErr .range)
  else .next (s.startInverse (s.br .opa) (s.br .opm) .toRes)

/-- One round on the hidden pairs (R132): every right-hand side reads the values before the round. The quotient times
`newr` never exceeds `r`, so the difference of naturals is exact. -/
def Hidden.euclidRound (h : Hidden) : Hidden :=
  let quotient := h.r / h.newr
  { h with
    t := h.newt
    newt := h.t - (quotient : Int) * h.newt
    r := h.newr
    newr := h.r - quotient * h.newr }

/-- `t` normalized by adding `n` when it is negative (R133). -/
def normalizedInverse (t : Int) (n : Nat) : Int := if t < 0 then t + (n : Int) else t

/-- The final case of the loop (R133). -/
def miFinalStep (s : State) : Result :=
  if 1 < s.hid.r then .next (s.raiseErr .notInvertible)
  else
    let v := normalizedInverse s.hid.t s.hid.n
    if v < 0 then .fault .valueOutOfRange
    else
      match s.hid.ret with
      | .toRes => s.deliverResult v.toNat
      | .toKey => s.commitKey v.toNat

/-- Step `MI_LOOP` (R132, R133): the test `newr != 0` is made before each round. -/
def miLoopStep (s : State) : Result :=
  if s.hid.newr = 0 then miFinalStep s else .next { s with hid := s.hid.euclidRound }

/-- The rounds of R131 from given pairs, and how many there were; `fuel` bounds them and is spent by none of the
callers, since `newr` falls in every round (R134). -/
def euclidLoop : (fuel r newr : Nat) → (t newt : Int) → (rounds : Nat) → Nat × Int × Nat
  | 0, r, _, t, _, rounds => (r, t, rounds)
  | fuel + 1, r, newr, t, newt, rounds =>
    if newr = 0 then (r, t, rounds)
    else euclidLoop fuel newr (r - r / newr * newr) newt (t - ((r / newr : Nat) : Int) * newt) (rounds + 1)

/-- The document's `modInverse(a, n)` (R131); `none` is `NotInvertible`. -/
def modInverse (a n : Nat) : Option Int :=
  let out := euclidLoop (a + 1) n a 0 1 0
  if 1 < out.1 then none else some (normalizedInverse out.2.1 n)

/-- The number of loop rounds of `modInverse(a, n)` (30_encoding.md R109). -/
def modInverseRounds (a n : Nat) : Nat := (euclidLoop (a + 1) n a 0 1 0).2.2

end Sys2Proof.Machine
end

