-- ==== Sys2Proof/Machine/ModPow.lean ====
section
/-! DEFINITION. The modular exponentiation engine (42_modpow.md): the CHECK part of `MODPOW`, the loop step it shares
with the cipher commands, and the function `modPow` of R141 that the loop computes. -/

namespace Sys2Proof.Machine

/-- `MODPOW`, CHECK part (R140). -/
def execModpow (s : State) : Result :=
  if s.br .opm = 0 then .next (s.raiseErr .range)
  else .next (s.startPow (s.br .opa) (s.br .opb) (s.br .opm))

/-- One round on the hidden values (R142): the multiplication into `c` uses `b` before its squaring. -/
def Hidden.powRound (h : Hidden) : Hidden :=
  { h with
    c := if h.e % 2 = 1 then h.c * h.b % h.m else h.c
    b := h.b * h.b % h.m
    e := h.e / 2 }

/-- Step `MP_LOOP` (R142, R143). -/
def mpLoopStep (s : State) : Result :=
  if s.hid.e = 0 then s.deliverResult s.hid.c
  else if s.hid.m = 0 then .fault .undefinedArithmetic
  else .next { s with hid := s.hid.powRound }

/-- The rounds of R141; `fuel` is the number of bits of the exponent still to be consumed. -/
def powLoop (modulus : Nat) : (fuel c b e : Nat) → Nat
  | 0, c, _, _ => c
  | fuel + 1, c, b, e =>
    if e = 0 then c
    else powLoop modulus fuel (if e % 2 = 1 then c * b % modulus else c) (b * b % modulus) (e / 2)

/-- The document's `modPow(base, exponent, modulus)` for `modulus >= 1` (R141). -/
def modPow (base exponent modulus : Nat) : Nat := powLoop modulus (bitlen exponent) 1 (base % modulus) exponent

end Sys2Proof.Machine
end

