-- ==== Sys2Proof/Machine/PrimeSampling.lean ====
section
/-! DEFINITION. Prime sampling, the four phases of `GENKEY` around the two ports (40_prime_sampling.md). -/

namespace Sys2Proof.Machine

/-- Step `KG_DRAW` (R121). -/
def kgDrawStep (s : State) : Result := .next { s.emit (.rngRequest s.hid.w) with phase := .kgRngWait }

/-- The candidate made from a reply: the low `w - 1` bits, and bit `w - 1` forced to one (R122). -/
def candidateOf (w rnd : Nat) : Nat := 2 ^ (w - 1) + rnd % 2 ^ (w - 1)

/-- Step `RngReply(rnd)` of the environment (R122; 20_memory.md R80, R84, R89). -/
def rngReplyStep (s : State) (rnd : Nat) : Result :=
  if s.phase ≠ .kgRngWait then .refused .replyWithoutRequest
  else if s.cfg.bound ≤ rnd then .refused .replyOutOfRange
  else if s.hid.w = 0 then .fault .undefinedArithmetic
  else
    .next { s.emit (.rngReply rnd) with
      hid := { s.hid with cand := candidateOf s.hid.w rnd }
      phase := .kgTest }

/-- Step `KG_TEST` (R123). -/
def kgTestStep (s : State) : Result :=
  .next { s.emit (.primeRequest s.hid.cand Config.ptRounds) with phase := .kgPtWait }

/-- The acceptance condition (R124, R125). -/
def Hidden.accepts (h : Hidden) (verdict : Bool) : Bool :=
  verdict && (decide (h.which = .p) || decide (h.cand ≠ h.p))

/-- Step `PrimeReply(verdict)` of the environment (R124; 20_memory.md R80, R89). -/
def primeReplyStep (s : State) (verdict : Bool) : Result :=
  if s.phase ≠ .kgPtWait then .refused .replyWithoutRequest
  else
    let s' := s.emit (.primeReply verdict)
    if s.hid.accepts verdict then
      match s.hid.which with
      | .p => .next { s' with hid := { s.hid with p := s.hid.cand, which := .q }, phase := .kgDraw }
      | .q => .next { s' with hid := { s.hid with q := s.hid.cand }, phase := .kgDerive }
    else .next { s' with phase := .kgDraw }

end Sys2Proof.Machine
end

