-- ==== Sys2Proof/Machine/System.lean ====
section
/-! DEFINITION. System commands and illegal words (46_system.md). -/

namespace Sys2Proof.Machine

/-- `NOP`: completes (R190). -/
def execNop (s : State) : Result := .next s.finish

/-- `SIGN`: always `ERR_UNIMPLEMENTED`, no other effect (R192). -/
def execSign (s : State) : Result := .next (s.raiseErr .unimplemented)

/-- `VERIFY`: always `ERR_UNIMPLEMENTED`, no other effect (R193). -/
def execVerify (s : State) : Result := .next (s.raiseErr .unimplemented)

/-- A word that selects no command (R191; 30_encoding.md R104 case 1). -/
def illegalCommand (s : State) : Result := .next (s.raiseErr .illegalCmd)

end Sys2Proof.Machine
end

