-- ==== Sys2Proof/Machine/Dispatch.lean ====
section
/-! DEFINITION. The CHECK part of every command (30_encoding.md R104 case 2). -/

namespace Sys2Proof.Machine

def exec (i : Instr) (s : State) : Host.Outcome State Fault Refusal :=
  match i with
  | .nop => Sys2Proof.Machine.execNop s
  | .modpow => Sys2Proof.Machine.execModpow s
  | .modinv => Sys2Proof.Machine.execModinv s
  | .genkey w => Sys2Proof.Machine.execGenkey w s
  | .derive => Sys2Proof.Machine.execDerive s
  | .loadkey => Sys2Proof.Machine.execLoadkey s
  | .project => Sys2Proof.Machine.execProject s
  | .encrypt => Sys2Proof.Machine.execEncrypt s
  | .decrypt => Sys2Proof.Machine.execDecrypt s
  | .clrkey => Sys2Proof.Machine.execClrkey s
  | .clrpub => Sys2Proof.Machine.execClrpub s
  | .sign => Sys2Proof.Machine.execSign s
  | .verify => Sys2Proof.Machine.execVerify s

end Sys2Proof.Machine
end

