-- ==== Sys2Proof/Machine/Engine.lean ====
section
/-! DEFINITION. The engine's steps by phase (30_encoding.md R104, R108) and the turn that the agenda gives to one of
the three agents (20_memory.md R80). -/

namespace Sys2Proof.Machine

/-- The engine has a step in this phase (20_memory.md R80). -/
def Phase.engineEnabled : Phase → Bool
  | .idle | .kgRngWait | .kgPtWait => false
  | .check | .mpLoop | .miLoop | .kgDraw | .kgTest | .kgDerive => true

/-- The `CHECK` step (30_encoding.md R104): the command word is decoded and the command's CHECK part runs. -/
def checkStep (s : State) : Result :=
  match decode s.cmd with
  | .instr i => exec i s
  | .illegal _ => illegalCommand s

/-- One step of the engine (R108). -/
def engineStep (s : State) : Result :=
  match s.phase with
  | .idle => .refused .engineNotEnabled
  | .check => checkStep s
  | .mpLoop => mpLoopStep s
  | .miLoop => miLoopStep s
  | .kgDraw => kgDrawStep s
  | .kgRngWait => .refused .engineNotEnabled
  | .kgTest => kgTestStep s
  | .kgPtWait => .refused .engineNotEnabled
  | .kgDerive => kgDeriveStep s

/-- The engine's step if it has one; else nothing happens and the machine waits (20_memory.md R85;
70_reset_and_hazards.md R230). -/
def engineOrWait (s : State) : Result := if s.phase.engineEnabled then engineStep s else .next s

/-- The host's poll: `STATUS` is read; the agenda goes on to `rest` when `DONE` was set, and otherwise to the engine's
step, if it has one, and the next read (30_encoding.md R110, `WAIT`; an engine step that stays enabled is taken,
20_memory.md R90). -/
def pollStep (s : State) (rest : List Action) : State :=
  { s.answerRead statusOff with
    agenda :=
      if s.status.done then rest
      else if s.phase.engineEnabled then .engine :: .poll :: rest
      else .poll :: rest }

/-- The engine's step, or the environment's answer to its request; with neither, `serve` is spent (20_memory.md R80). -/
def serveStep (s : State) (rnd : Nat) (verdict : Bool) (rest : List Action) : Result :=
  if s.phase.engineEnabled then engineStep s
  else if s.phase = .kgRngWait then rngReplyStep s rnd
  else if s.phase = .kgPtWait then primeReplyStep s verdict
  else .next { s with agenda := rest }

/-- One turn: the agenda says whose move it is; when it is empty the engine takes every step it can. -/
def takeTurn (s : State) : Result :=
  match s.agenda with
  | [] => engineOrWait s
  | .host op :: rest => State.hostStep { s with agenda := rest } op
  | .engine :: rest => engineStep { s with agenda := rest }
  | .rngReply rnd :: rest => rngReplyStep { s with agenda := rest } rnd
  | .primeReply verdict :: rest => primeReplyStep { s with agenda := rest } verdict
  | .reset :: rest => .next (State.applyReset { s with agenda := rest })
  | .settle :: rest => if s.phase.engineEnabled then engineStep s else .next { s with agenda := rest }
  | .poll :: rest => .next (pollStep s rest)
  | .serve rnd verdict :: rest => serveStep s rnd verdict rest

end Sys2Proof.Machine
end

