-- ==== Sys2Proof/Machine/Step.lean ====
section
/-! DEFINITION. The step of the machine, and where it takes its next command word from. -/

namespace Sys2Proof.Machine

/-- One atomic step of one agent (20_memory.md R80). -/
def step (s : State) : Host.Outcome State Fault Refusal := takeTurn s

/-- The state with the table word `w` of `nbits` bits issued as the current command (30_encoding.md R103) and the next
move the engine's: the next step is the CHECK step of that word. A word that is no command word (more than 32 bits)
changes nothing. -/
def State.withFetchWord (s : State) (nbits w : Nat) : State :=
  match tableWord nbits w with
  | none => s
  | some v => { s.issue v with agenda := .engine :: s.agenda }

end Sys2Proof.Machine
end

