-- ==== Sys2Proof/Machine/Script.lean ====
section
/-! DEFINITION. The host-script notation (30_encoding.md R110): the programs of this hardware, and their expansion into
moves of the agenda. The engine takes every step it can before a line of the environment and before a `WAIT`, as the
vectors of 95_test_vectors.md are read. -/

namespace Sys2Proof.Machine

/-- One line of a host script. -/
inductive ScriptLine where
  /-- `WRW off, word`. -/
  | wrw (off : Nat) (v : Word)
  /-- `RDW off`. -/
  | rdw (off : Nat)
  /-- `WR X, value`. -/
  | wr (X : BigReg) (value : Nat)
  /-- `RD X`. -/
  | rd (X : BigReg)
  /-- `CMD M`, and `CMD GENKEY w`. -/
  | cmd (i : Instr)
  /-- `WAIT`. -/
  | wait
  /-- `ACK`. -/
  | ack
  /-- `ENV RNG value`. -/
  | envRng (rnd : Nat)
  /-- `ENV PRIME bit`. -/
  | envPrime (verdict : Bool)
  deriving DecidableEq, Repr

/-- The offsets of the words of `X`, ascending. -/
def wordOffsets (cfg : Config) (X : BigReg) : List Nat := (List.range cfg.nwords).map fun k => X.base + 4 * k

/-- A line as moves (R110). -/
def ScriptLine.expand (cfg : Config) : ScriptLine → List Action
  | .wrw off v => [.host (.write off 4 v)]
  | .rdw off => [.host (.read off 4)]
  | .wr X value => (List.range cfg.nwords).map fun k => .host (.write (X.base + 4 * k) 4 (wordOf value k))
  | .rd X => (wordOffsets cfg X).map fun off => .host (.read off 4)
  | .cmd i => [.host (.write cmdOff 4 (encode i))]
  | .wait => [.settle, .poll]
  | .ack => [.host (.write statusOff 4 0x00000066#32)]
  | .envRng rnd => [.settle, .rngReply rnd]
  | .envPrime verdict => [.settle, .primeReply verdict]

/-- A whole script as moves. -/
def expandScript (cfg : Config) (lines : List ScriptLine) : List Action := lines.flatMap (ScriptLine.expand cfg)

/-- The state with a script to run. -/
def State.withScript (s : State) (lines : List ScriptLine) : State := { s with agenda := expandScript s.cfg lines }

end Sys2Proof.Machine
end

