-- ==== Sys2Proof/Safety.lean ====
section
/-! DEFINITION. The terms in which claims about the block are stated: runs, the state invariant by phase (the
`[derived]` facts of 10_state.md, 41_modinv.md R134 R136, 42_modpow.md R144, 43_keygen.md R153), what a constructed
key satisfies (43_keygen.md R163), which hidden values are live in a phase (10_state.md R40), and the table of
errors by command (60_exceptions.md R207). -/

namespace Sys2Proof.Machine

/-- `k` steps of the machine, stopping at the first fault or refusal. -/
def run : Nat → State → Result
  | 0, s => .next s
  | k + 1, s =>
    match step s with
    | .next t => run k t
    | .fault r => .fault r
    | .refused r => .refused r

/-- The state an outcome holds, if it is a next state. -/
def nextState? : Result → Option State
  | .next s => some s
  | .fault _ => none
  | .refused _ => none

/-! ## Infinite runs -/

/-- The entries of the agenda that are one move of one agent, or a reset (20_memory.md R80); the others are directives of
log entry 2. -/
def Action.isMove : Action → Bool
  | .host _ | .engine | .rngReply _ | .primeReply _ | .reset => true
  | .settle | .poll | .serve _ _ => false

/-- An infinite run: at each instant the schedule, a parameter of the step relation and no part of the state
(10_state.md R42), gives one move that is a step, or none, and then nothing happens (20_memory.md R80). -/
structure Execution (schedule : Nat → Option Action) (states : Nat → State) : Prop where
  is_move : ∀ k a, schedule k = some a → a.isMove = true
  moves : ∀ k a, schedule k = some a → step { states k with agenda := [a] } = .next (states (k + 1))
  pauses : ∀ k, schedule k = none → states (k + 1) = states k

/-- The run is fair: an engine step that stays enabled is eventually taken (20_memory.md R90). -/
def Fair (schedule : Nat → Option Action) (states : Nat → State) : Prop :=
  ∀ k, ∃ j, k ≤ j ∧ (schedule j = some .engine ∨ (states j).phase.engineEnabled = false)

/-! ## Values and invariants -/

/-- The value `modPow` returns, as a power (42_modpow.md R145): `1` for a zero exponent whatever the modulus. -/
def powerResidue (base exponent modulus : Nat) : Nat := if exponent = 0 then 1 else base ^ exponent % modulus

/-- `v` is the value the inverse unit returns for coprime `a` and `n >= 1` (41_modinv.md R135). -/
def IsInverse (a n v : Nat) : Prop :=
  (2 ≤ n → v < n ∧ a * v % n = 1) ∧ (n = 1 → v = if a = 1 then 1 else 0)

/-- Every big register is in `[0, 2^NW)` (10_state.md R21). -/
def State.RegsInRange (s : State) : Prop := ∀ X : BigReg, s.br X < s.cfg.bound

/-- The codes `ERRCODE` can take (60_exceptions.md R200, R203). -/
def producedCodes : List Byte := [0x00#8, 0x01#8, 0x02#8, 0x10#8, 0x11#8, 0x12#8, 0x13#8, 0x14#8, 0x15#8]

/-- The relations between phase and flags (10_state.md R35; 60_exceptions.md R200). -/
structure State.StatusConsistent (s : State) : Prop where
  /-- `phase != IDLE` exactly when `BUSY = 1`. -/
  busy_iff : s.status.busy = true ↔ s.phase ≠ .idle
  /-- `ERR = 1` exactly when `ERRCODE != 0`. -/
  err_iff : s.status.err = true ↔ s.status.errcode ≠ 0
  /-- `DONE` and `ERR` are clear from issue to completion. -/
  running_clear : s.status.busy = true → s.status.done = false ∧ s.status.err = false
  /-- The code is one of the table. -/
  code_listed : s.status.errcode ∈ producedCodes

/-- The square-and-multiply loop (42_modpow.md R144). -/
structure State.PowInv (s : State) : Prop where
  command : decode s.cmd = .instr .modpow ∨ decode s.cmd = .instr .encrypt ∨ decode s.cmd = .instr .decrypt
  m_pos : 0 < s.hid.m
  m_bound : s.hid.m < s.cfg.bound
  b_lt : s.hid.b < s.hid.m
  c_lt : s.hid.c < s.hid.m ∨ s.hid.c = 1

/-- The magnitudes of the Euclidean pairs (41_modinv.md R136). -/
structure Hidden.EuclidMagnitudes (h : Hidden) : Prop where
  n_pos : 1 ≤ h.n
  r_pos : 1 ≤ h.r
  opposite : h.t * h.newt ≤ 0
  weight : h.r * h.newt.natAbs + h.newr * h.t.natAbs = h.n
  t_bound : h.t.natAbs ≤ h.n

/-- The congruences of the Euclidean pairs for the value `a` being inverted (41_modinv.md R134). -/
structure Hidden.EuclidFor (h : Hidden) (a : Nat) : Prop where
  r_cong : (h.n : Int) ∣ h.t * (a : Int) - (h.r : Int)
  newr_cong : (h.n : Int) ∣ h.newt * (a : Int) - (h.newr : Int)
  gcd_eq : Nat.gcd h.r h.newr = Nat.gcd a h.n

/-- The PRIME port answered "probably prime" for `x` (40_prime_sampling.md R127). -/
def Accepted (trace : List PortEvent) (x : Nat) : Prop :=
  [PortEvent.primeRequest x Config.ptRounds, PortEvent.primeReply true] <:+: trace

/-- `OracleSound`: every `PrimeReply(1)` answers a request whose candidate is prime (20_memory.md R88). -/
def OracleSound (trace : List PortEvent) : Prop :=
  ∀ cand rounds, [PortEvent.primeRequest cand rounds, PortEvent.primeReply true] <:+: trace → cand.Prime

/-- `OracleComplete`: every answered request whose candidate is prime is answered `PrimeReply(1)` (20_memory.md R88). -/
def OracleComplete (trace : List PortEvent) : Prop :=
  ∀ cand rounds verdict, cand.Prime →
    [PortEvent.primeRequest cand rounds, PortEvent.primeReply verdict] <:+: trace → verdict = true

/-- `OracleFunctional`: the verdict depends on the candidate and the round count alone (20_memory.md R88). -/
def OracleFunctional (trace : List PortEvent) : Prop :=
  ∀ cand rounds v w, [PortEvent.primeRequest cand rounds, PortEvent.primeReply v] <:+: trace →
    [PortEvent.primeRequest cand rounds, PortEvent.primeReply w] <:+: trace → v = w

/-- A reply and a verdict that the sampling loop rejects (40_prime_sampling.md R124): a verdict of 0, or the accepted `p`
again while `q` is sampled. -/
def Hidden.Rejects (h : Hidden) (r : Nat × Bool) : Prop :=
  r.2 = false ∨ (h.which = .q ∧ candidateOf h.w r.1 = h.p)

/-- The four events of one sampled candidate (40_prime_sampling.md R121 to R124). -/
def candidateEvents (w : Nat) (r : Nat × Bool) : List PortEvent :=
  [.rngRequest w, .rngReply r.1, .primeRequest (candidateOf w r.1) Config.ptRounds, .primeReply r.2]

/-- `x` was sampled at width `w` and accepted (40_prime_sampling.md R127). -/
structure Sampled (trace : List PortEvent) (w x : Nat) : Prop where
  low : 2 ^ (w - 1) ≤ x
  high : x < 2 ^ w
  accepted : Accepted trace x

/-- The sampling loop (40_prime_sampling.md R120; 43_keygen.md R151). -/
structure State.SamplingInv (s : State) : Prop where
  command : decode s.cmd = .instr (.genkey s.hid.w)
  w_low : Config.minW ≤ s.hid.w
  w_high : s.hid.w ≤ s.cfg.maxW
  slot_empty : s.status.keyValid = false
  p_found : s.hid.which = .q → Sampled s.trace s.hid.w s.hid.p

/-- The candidate has exactly `w` bits (40_prime_sampling.md R122). -/
def State.CandidateInv (s : State) : Prop := 2 ^ (s.hid.w - 1) ≤ s.hid.cand ∧ s.hid.cand < 2 ^ s.hid.w

/-- The two factors a key is derived from (43_keygen.md R153, R159, R160). -/
structure State.FactorsInv (s : State) : Prop where
  command : decode s.cmd = .instr .derive ∨ ∃ w, decode s.cmd = .instr (.genkey w)
  p_low : 2 ≤ s.hid.p
  q_low : 2 ≤ s.hid.q
  distinct : s.hid.p ≠ s.hid.q
  product : s.hid.p * s.hid.q < s.cfg.bound
  slot_empty : s.status.keyValid = false
  sampled : ∀ w, decode s.cmd = .instr (.genkey w) →
    Config.minW ≤ w ∧ Sampled s.trace w s.hid.p ∧ Sampled s.trace w s.hid.q

/-- The inverse loop of key derivation (43_keygen.md R154). -/
structure State.PendingKeyInv (s : State) : Prop where
  factors : s.FactorsInv
  nmod_eq : s.hid.nmod = s.hid.p * s.hid.q
  tot_eq : s.hid.tot = (s.hid.p - 1) * (s.hid.q - 1)
  n_eq : s.hid.n = s.hid.tot
  pairs : s.hid.EuclidFor Config.eConst

/-- The inverse loop, whatever it delivers to. -/
structure State.InverseInv (s : State) : Prop where
  magnitudes : s.hid.EuclidMagnitudes
  n_bound : s.hid.n < s.cfg.bound
  to_res : s.hid.ret = .toRes → decode s.cmd = .instr .modinv
  to_key : s.hid.ret = .toKey → s.PendingKeyInv

/-- What holds of the working values in each phase. -/
def State.PhaseInv (s : State) : Prop :=
  match s.phase with
  | .idle => True
  | .check => True
  | .mpLoop => s.PowInv
  | .miLoop => s.InverseInv
  | .kgDraw => s.SamplingInv
  | .kgRngWait => s.SamplingInv
  | .kgTest => s.SamplingInv ∧ s.CandidateInv
  | .kgPtWait =>
    s.SamplingInv ∧ s.CandidateInv ∧ [PortEvent.primeRequest s.hid.cand Config.ptRounds] <:+ s.trace
  | .kgDerive => s.FactorsInv

/-- The state invariant: true after reset and kept by every step of every agent. -/
structure State.Inv (s : State) : Prop where
  cfg_ok : s.cfg.Ok
  regs : s.RegsInRange
  status : s.StatusConsistent
  /-- The command is latched at issue (30_encoding.md R103). -/
  latched : s.status.busy = true → s.hid.op = opcodeOf s.cmd ∧ s.hid.arg = argOf s.cmd
  phase : s.PhaseInv

/-- What a generated or derived key satisfies (43_keygen.md R163). -/
structure State.KeyRelations (s : State) : Prop where
  modulus : s.br .keyN = s.br .keyP * s.br .keyQ
  totient : s.br .keyT = (s.br .keyP - 1) * (s.br .keyQ - 1)
  public_exponent : s.br .keyE = Config.eConst
  d_pos : 0 < s.br .keyD
  d_lt : s.br .keyD < s.br .keyT
  inverse : s.br .keyE * s.br .keyD % s.br .keyT = 1
  distinct : s.br .keyP ≠ s.br .keyQ
  p_low : 2 ≤ s.br .keyP
  q_low : 2 ≤ s.br .keyQ
  t_low : 2 ≤ s.br .keyT
  n_low : 6 ≤ s.br .keyN

/-- The two hidden states agree on every working value that is live in the phase: the values some rule reads before
writing them (10_state.md R40, R43). -/
def Hidden.AgreeAt (g h : Hidden) : Phase → Prop
  | .idle => True
  | .check => True
  | .mpLoop => g.c = h.c ∧ g.b = h.b ∧ g.e = h.e ∧ g.m = h.m
  | .miLoop =>
    g.r = h.r ∧ g.newr = h.newr ∧ g.t = h.t ∧ g.newt = h.newt ∧ g.n = h.n ∧ g.ret = h.ret ∧
      (g.ret = .toKey → g.p = h.p ∧ g.q = h.q ∧ g.nmod = h.nmod ∧ g.tot = h.tot)
  | .kgDraw => g.w = h.w ∧ g.which = h.which ∧ (g.which = .q → g.p = h.p)
  | .kgRngWait => g.w = h.w ∧ g.which = h.which ∧ (g.which = .q → g.p = h.p)
  | .kgTest => g.w = h.w ∧ g.which = h.which ∧ (g.which = .q → g.p = h.p) ∧ g.cand = h.cand
  | .kgPtWait => g.w = h.w ∧ g.which = h.which ∧ (g.which = .q → g.p = h.p) ∧ g.cand = h.cand
  | .kgDerive => g.p = h.p ∧ g.q = h.q

/-- The two states differ at most in hidden values that are not live. -/
def State.SameButDead (s t : State) : Prop := t = { s with hid := t.hid } ∧ s.hid.AgreeAt t.hid s.phase

/-- The errors a command can end with (60_exceptions.md R207); an illegal word has `ERR_ILLEGAL_CMD` alone. -/
def errorsOf : Decoded → List ErrKind
  | .illegal _ => [.illegalCmd]
  | .instr i =>
    match i with
    | .nop => []
    | .modpow => [.range]
    | .modinv => [.notInvertible, .range]
    | .genkey _ => [.notInvertible, .width, .keyLocked]
    | .derive => [.notInvertible, .range, .keyLocked]
    | .loadkey => [.keyLocked]
    | .project => [.noKey, .keyLocked]
    | .encrypt => [.blockTooLarge, .noKey]
    | .decrypt => [.range, .noKey]
    | .clrkey => []
    | .clrpub => []
    | .sign => [.unimplemented]
    | .verify => [.unimplemented]

/-- The next move is a host write of `v` at `off`. -/
def State.NextIsWrite (s : State) (off : Nat) (v : Word) : Prop :=
  ∃ rest, s.agenda = .host (.write off 4 v) :: rest

/-- The next move is the reset input's. -/
def State.NextIsReset (s : State) : Prop := ∃ rest, s.agenda = .reset :: rest

/-- The value the words of a list denote, the first the least significant (00_scope.md R12). -/
def wordsValue : List Word → Nat
  | [] => 0
  | v :: rest => v.toNat + 2 ^ 32 * wordsValue rest

end Sys2Proof.Machine
end

