-- ==== Sys2Proof/Certificates/Slice0/Obligations.lean ====
section
/-! DEFINITION. The statements about the block, each from the rules of spec/ its docstring names. -/

open Sys2Proof Sys2Proof.Machine

/-! ## Encoding -/

/-- Decoding the encoding of a command gives the command back, `GENKEY` at every width its 16 bits admit
(30_encoding.md R100, R101, R105, R110). -/
def Obligations.DecodeOfEncode : Prop :=
  ∀ i : Instr, i.wellFormed = true → decode (encode i) = .instr i

/-- A word that decodes to a command is the encoding of that command: no bit of a word is dropped
(30_encoding.md R100, R104, R105). -/
def Obligations.EncodeOfDecode : Prop :=
  ∀ (v : Word) (i : Instr), decode v = .instr i → i.wellFormed = true ∧ encode i = v

/-- The decoder reads a command exactly from the words that select a row of the table of 30_encoding.md R105, and then
the command of that row and of no other. -/
def Obligations.DecodeFollowsTheTable : Prop :=
  ∀ v : Word,
    ((∃ i, decode v = .instr i) ↔ ∃ row ∈ opcodeRows, row.selectedBy v = true) ∧
    ∀ i, decode v = .instr i → ∀ (n : Nat) (row : OpcodeRow), opcodeRows[n]? = some row →
      (row.selectedBy v = true ↔ n = i.opcode)

/-- The words of 30_encoding.md R105 and of the vectors V41, V61 of 95_test_vectors.md decode as they say. -/
def Obligations.SampleWordsDecode : Prop :=
  decode 0x00000000#32 = .instr .nop ∧ decode 0x00000001#32 = .instr .modpow ∧
  decode 0x00000002#32 = .instr .modinv ∧ decode 0x00000703#32 = .instr (.genkey 7) ∧
  decode 0x00FFFF03#32 = .instr (.genkey 65535) ∧ decode 0x00000009#32 = .instr .clrkey ∧
  decode 0x00000007#32 = .instr .encrypt ∧ decode 0x0000000D#32 = .illegal .unknownOpcode ∧
  decode 0x01000803#32 = .illegal .reservedBits ∧ decode 0x00000806#32 = .illegal .argumentNotZero

/-- The CHECK step (30_encoding.md R104): an illegal word raises `ERR_ILLEGAL_CMD`; any other runs the CHECK part of
the command its opcode selects. -/
def Obligations.CheckStepDecodes : Prop :=
  ∀ s : State, s.phase = .check →
    let v := s.cmd
    let illegal := v.extractLsb' 24 8 ≠ 0 ∨ 0x0C < (v.extractLsb' 0 8).toNat ∨
      ((v.extractLsb' 0 8).toNat ≠ 0x03 ∧ v.extractLsb' 8 16 ≠ 0)
    (illegal → engineStep s = .next (s.raiseErr .illegalCmd)) ∧
    (¬illegal → ∃ i, decode v = .instr i ∧ i.opcode = (v.extractLsb' 0 8).toNat ∧ engineStep s = exec i s)

/-! ## The step and issue -/

/-- When it is the engine's turn in phase CHECK and the command word decodes to `i`, the step is `exec i`; the step
itself only takes the engine's entry from the agenda (20_memory.md R80; 30_encoding.md R104; whose turn it is stands in
the agenda, the model's choice of log entry 2). -/
def Obligations.StepRunsDecodedCommand : Prop :=
  ∀ (s : State) (i : Instr), s.phase = .check → decode s.cmd = .instr i →
    (s.agenda = [] → step s = exec i s) ∧
    (∀ rest, s.agenda = .engine :: rest → step s = exec i { s with agenda := rest }) ∧
    (∀ rest, s.agenda = .settle :: rest → step s = exec i s)

/-- What a step is, by the head of the agenda: one atomic move of one agent, or, when an entry is spent or nothing can
move, a step in which no agent moves (20_memory.md R61, R80, R85; the agenda, its directives and the record of the host's
answers are the model's choices of log entries 2 and 4). -/
def Obligations.EveryStepFollowsTheAgenda : Prop :=
  ∀ (s : State) (rest : List Action),
    let enabled := s.phase ≠ .idle ∧ s.phase ≠ .kgRngWait ∧ s.phase ≠ .kgPtWait
    (∀ op, s.agenda = .host op :: rest → step s = State.hostStep { s with agenda := rest } op) ∧
    (∀ off, s.agenda = .host (.read off 4) :: rest → off % 4 = 0 → off < 0x2000 →
      step s = .next { s with agenda := rest, reads := s.reads ++ [⟨off, s.memRead off⟩] }) ∧
    (∀ off v, s.agenda = .host (.write off 4 v) :: rest → off % 4 = 0 → off < 0x2000 →
      step s = .next (State.memWrite { s with agenda := rest } off v)) ∧
    (s.agenda = .engine :: rest → step s = engineStep { s with agenda := rest }) ∧
    (∀ rnd, s.agenda = .rngReply rnd :: rest → step s = rngReplyStep { s with agenda := rest } rnd) ∧
    (∀ v, s.agenda = .primeReply v :: rest → step s = primeReplyStep { s with agenda := rest } v) ∧
    (s.agenda = .reset :: rest → step s = .next { State.resetFor s.cfg with
      trace := s.trace, reads := s.reads, agenda := rest }) ∧
    (s.agenda = [] → (enabled → step s = engineStep s) ∧ (¬enabled → step s = .next s)) ∧
    (s.agenda = .settle :: rest →
      (enabled → step s = engineStep s) ∧ (¬enabled → step s = .next { s with agenda := rest })) ∧
    (s.agenda = .poll :: rest → ∃ a, step s = .next { s with
        agenda := a, reads := s.reads ++ [⟨0x0010, s.memRead 0x0010⟩] } ∧
      (s.status.done = true → a = rest) ∧
      (s.status.done = false → enabled → a = .engine :: .poll :: rest) ∧
      (s.status.done = false → ¬enabled → a = .poll :: rest)) ∧
    (∀ rnd v, s.agenda = .serve rnd v :: rest →
      (enabled → step s = engineStep s) ∧ (s.phase = .kgRngWait → step s = rngReplyStep s rnd) ∧
      (s.phase = .kgPtWait → step s = primeReplyStep s v) ∧
      (s.phase = .idle → step s = .next { s with agenda := rest }))

/-- Issue (30_encoding.md R103): a write to `CMD` while idle latches the word, clears the completion flags and checks
nothing; while busy it issues nothing. -/
def Obligations.IssueLatchesTheCommand : Prop :=
  ∀ (s : State) (v : Word),
    (s.status.busy = false → s.memWrite 0x000C v = { s with
      cmd := v
      hid := { s.hid with op := v.extractLsb' 0 8, arg := v.extractLsb' 8 16 }
      status := { s.status with busy := true, done := false, err := false, errcode := 0 }
      phase := .check }) ∧
    (s.status.busy = true → s.memWrite 0x000C v = { s with
      status := { s.status with busyViol := true } })

/-! ## The register space -/

/-- A host read (20_memory.md R64), by case on the offset, with the fields of `CONFIG` on every instance (10_state.md R31).
It is a word and no state: no read changes anything. -/
def Obligations.ReadsFollowTheRegisterMap : Prop :=
  ∀ s : State, s.cfg.Ok →
    s.memRead 0x0000 = 0x4D454531#32 ∧
    (let config := s.memRead 0x0004
     (config.extractLsb' 0 8).toNat = s.cfg.nw / 32 ∧ config.extractLsb' 8 8 = 8#8 ∧ config.extractLsb' 16 8 = 25#8 ∧
     config.extractLsb' 24 8 = 0#8) ∧
    s.memRead 0x0008 = ctrlWord s.ctrl ∧ s.memRead 0x000C = s.cmd ∧ s.memRead 0x0010 = statusWord s.status ∧
    (∀ (X : BigReg) (k : Nat), k < s.cfg.nwords →
      s.memRead (X.base + 4 * k) = if s.status.busy then 0 else (BitVec.ofNat 32 (s.br X / 2 ^ (32 * k)))) ∧
    (∀ off, off % 4 = 0 → off ∉ [0x0000, 0x0004, 0x0008, 0x000C, 0x0010] →
      (∀ (X : BigReg) (k : Nat), k < s.cfg.nwords → off ≠ X.base + 4 * k) → s.memRead off = 0)

/-- A word written to a writable register reads back, and every other word of the register space reads as before
(20_memory.md R63, R65, R69). -/
def Obligations.WordWriteReadsBack : Prop :=
  ∀ (s : State) (X : BigReg) (k : Nat) (v : Word), s.cfg.Ok → k < s.cfg.nwords → s.status.busy = false →
    s.writable X = true →
    let t := s.memWrite (X.base + 4 * k) v
    t.memRead (X.base + 4 * k) = v ∧
    ∀ off, off % 4 = 0 → off ≠ X.base + 4 * k → t.memRead off = s.memRead off

/-- The frame of a host write (20_memory.md R65): which offset can change what. That a window ends at its last register word
is the model's choice of log entry 8. -/
def Obligations.HostWriteFrame : Prop :=
  ∀ (s : State) (off : Nat) (v : Word),
    let t := s.memWrite off v
    (∀ X, t.br X ≠ s.br X → inWindow s.cfg off X = true ∧ s.status.busy = false ∧ s.writable X = true) ∧
    (t.ctrl ≠ s.ctrl → off = 0x0008) ∧
    (t.cmd ≠ s.cmd ∨ t.phase ≠ s.phase ∨ t.hid ≠ s.hid ∨ t.status.busy ≠ s.status.busy →
      off = 0x000C ∧ s.status.busy = false) ∧
    (t.status ≠ s.status → off = 0x000C ∨ off = 0x0010 ∨ ∃ X, inWindow s.cfg off X = true) ∧
    t.status.keyValid = s.status.keyValid ∧ t.status.pubValid = s.status.pubValid ∧
    t.cfg = s.cfg ∧ t.trace = s.trace ∧ t.reads = s.reads ∧ t.agenda = s.agenda

/-- A host write to a read-only or locked register changes nothing but `LOCK_VIOL` (20_memory.md R66, R68). -/
def Obligations.LockedWriteIsDropped : Prop :=
  ∀ (s : State) (X : BigReg) (k : Nat) (v : Word), s.cfg.Ok → k < s.cfg.nwords → s.status.busy = false →
    (X = .res ∨ X.inPublicSlot = true ∨ (X.inKeySlot = true ∧ s.status.keyValid = true)) →
    s.memWrite (X.base + 4 * k) v = { s with status := { s.status with lockViol := true } }

/-- While a command runs the big registers are closed to the host and the control registers stay open
(20_memory.md R67): their reads are those of the state with `BUSY` clear, but for that bit of `STATUS` itself. -/
def Obligations.BusyClosesTheBigRegisters : Prop :=
  ∀ s : State, s.cfg.Ok → s.status.busy = true →
    (∀ (X : BigReg) (k : Nat) (v : Word), k < s.cfg.nwords → s.memRead (X.base + 4 * k) = 0 ∧
      s.memWrite (X.base + 4 * k) v = { s with status := { s.status with busyViol := true } }) ∧
    (∀ v, s.memWrite 0x000C v = { s with status := { s.status with busyViol := true } }) ∧
    s.memRead 0x0000 = 0x4D454531#32 ∧ (s.memRead 0x0004).toNat = s.cfg.nw / 32 + 2 ^ 8 * 8 + 2 ^ 16 * 25 ∧
    s.memRead 0x0008 = ctrlWord s.ctrl ∧ s.memRead 0x000C = s.cmd ∧ s.memRead 0x0010 = statusWord s.status ∧
    (let idle := { s with status := { s.status with busy := false } }
     (∀ off ∈ [0x0000, 0x0004, 0x0008, 0x000C], s.memRead off = idle.memRead off) ∧
     s.memRead 0x0010 = idle.memRead 0x0010 ||| 0x00000001#32) ∧
    (∀ v, s.memWrite 0x0000 v = s ∧ s.memWrite 0x0004 v = s) ∧
    (∀ v, s.memWrite 0x0008 v = { s with ctrl := ⟨v.getLsbD 0, v.getLsbD 1⟩ }) ∧
    (∀ v, s.memWrite 0x0010 v = { s with
      status :=
        { s.status with
          done := if v.getLsbD 1 then false else s.status.done
          err := if v.getLsbD 2 then false else s.status.err
          errcode := if v.getLsbD 2 then 0 else s.status.errcode
          busyViol := if v.getLsbD 5 then false else s.status.busyViol
          lockViol := if v.getLsbD 6 then false else s.status.lockViol } })

/-- A transaction the port cannot express is refused, never performed (20_memory.md R61, R62). -/
def Obligations.InexpressibleAccessRefused : Prop :=
  ∀ (s : State) (off size : Nat) (v : Word), ¬(size = 4 ∧ off % 4 = 0 ∧ off < 0x2000) →
    s.hostStep (.read off size) = .refused .accessNotExpressible ∧
    s.hostStep (.write off size v) = .refused .accessNotExpressible

/-- `STATUS` as read, bit by bit, and the write-1-to-clear action, at any time (10_state.md R34). -/
def Obligations.StatusReadsAndClears : Prop :=
  ∀ s : State,
    (let w := s.memRead 0x0010
     w.getLsbD 0 = s.status.busy ∧ w.getLsbD 1 = s.status.done ∧ w.getLsbD 2 = s.status.err ∧
     w.getLsbD 3 = s.status.keyValid ∧ w.getLsbD 4 = s.status.pubValid ∧ w.getLsbD 5 = s.status.busyViol ∧
     w.getLsbD 6 = s.status.lockViol ∧ w.getLsbD 7 = false ∧ w.extractLsb' 8 8 = s.status.errcode ∧
     w.extractLsb' 16 16 = 0#16) ∧
    ∀ v, s.memWrite 0x0010 v = { s with
      status :=
        { s.status with
          done := if v.getLsbD 1 then false else s.status.done
          err := if v.getLsbD 2 then false else s.status.err
          errcode := if v.getLsbD 2 then 0 else s.status.errcode
          busyViol := if v.getLsbD 5 then false else s.status.busyViol
          lockViol := if v.getLsbD 6 then false else s.status.lockViol } }

/-- `CTRL` keeps two bits of a written word and reads zero elsewhere, at any time (10_state.md R32). -/
def Obligations.CtrlKeepsTwoBits : Prop :=
  ∀ (s : State) (v : Word),
    s.memWrite 0x0008 v = { s with ctrl := ⟨v.getLsbD 0, v.getLsbD 1⟩ } ∧
    (s.memWrite 0x0008 v).memRead 0x0008 = v &&& 0x00000003#32

/-- The script line `WR X, value` writes the whole register, whatever it held, and nothing else
(30_encoding.md R110; 20_memory.md R69; 00_scope.md R12).
How a line becomes moves of the agenda is the model's choice of log entry 2. -/
def Obligations.WholeRegisterWrite : Prop :=
  ∀ (s : State) (X : BigReg) (x : Nat) (rest : List Action), s.cfg.Ok → s.status.busy = false →
    s.writable X = true → s.br X < s.cfg.bound → x < s.cfg.bound →
    s.agenda = ScriptLine.expand s.cfg (.wr X x) ++ rest →
    run s.cfg.nwords s = .next { s.setBr X x with agenda := rest }

/-- The script line `RD X` reads the register's words, the least significant first, and their sum is its value
(30_encoding.md R110; 20_memory.md R63; 00_scope.md R12).
How a line becomes moves, and the record of the answers, are the model's choices of log entries 2 and 4. -/
def Obligations.WholeRegisterRead : Prop :=
  ∀ (s : State) (X : BigReg) (rest : List Action), s.cfg.Ok → s.status.busy = false → s.br X < s.cfg.bound →
    s.agenda = ScriptLine.expand s.cfg (.rd X) ++ rest →
    ∃ answers : List ReadAnswer,
      run s.cfg.nwords s = .next { s with agenda := rest, reads := s.reads ++ answers } ∧
      answers.map ReadAnswer.off = wordOffsets s.cfg X ∧ wordsValue (answers.map ReadAnswer.word) = s.br X

/-! ## Completions and the interrupt line -/

/-- The two completions (60_exceptions.md R210, R211): nothing changes but `STATUS` and the phase, and the code is that
of the table of R200. -/
def Obligations.CompletionsWriteStatusOnly : Prop :=
  ∀ s : State,
    s.finish = { s with status := { s.status with busy := false, done := true }, phase := .idle } ∧
    (∀ k, s.raiseErr k = { s with
      status := { s.status with busy := false, done := true, err := true, errcode := k.code }
      phase := .idle }) ∧
    [ErrKind.notInvertible, .blockTooLarge, .invalidEncoding, .illegalCmd, .unimplemented, .range, .width, .noKey,
      .keyLocked].map ErrKind.code = [0x01#8, 0x02#8, 0x03#8, 0x10#8, 0x11#8, 0x12#8, 0x13#8, 0x14#8, 0x15#8]

/-- The interrupt line is the level `(IE_DONE and DONE) or (IE_ERR and ERR)` of the bits the host reads; it falls at
issue and at the clearing of a flag (10_state.md R38; 60_exceptions.md R213). -/
def Obligations.IrqFollowsTheFlags : Prop :=
  ∀ s : State,
    s.irq = (((s.memRead 0x0008).getLsbD 0 && (s.memRead 0x0010).getLsbD 1) ||
      ((s.memRead 0x0008).getLsbD 1 && (s.memRead 0x0010).getLsbD 2)) ∧
    (∀ v, (s.issue v).irq = false) ∧
    (∀ k, (s.raiseErr k).irq = (s.ctrl.ieDone || s.ctrl.ieErr)) ∧
    (∀ v, v.getLsbD 1 = true → v.getLsbD 2 = true → (s.memWrite 0x0010 v).irq = false) ∧
    (s.memWrite 0x0008 0#32).irq = false

/-! ## System and key slot commands -/

/-- `NOP` completes; `SIGN` and `VERIFY` always end with `ERR_UNIMPLEMENTED`; nothing else changes
(46_system.md R190, R192, R193). -/
def Obligations.SystemCommands : Prop :=
  encode .nop = 0x00000000#32 ∧ encode .sign = 0x0000000B#32 ∧ encode .verify = 0x0000000C#32 ∧
  ∀ s : State,
    exec .nop s = .next { s with status := { s.status with busy := false, done := true }, phase := .idle } ∧
    exec .sign s = .next { s with
      status := { s.status with busy := false, done := true, err := true, errcode := 0x11#8 }
      phase := .idle } ∧
    exec .verify s = .next { s with
      status := { s.status with busy := false, done := true, err := true, errcode := 0x11#8 }
      phase := .idle }

/-- `LOADKEY`, `CLRKEY`, `CLRPUB` and `PROJECT` (44_keyslot.md R170, R174, R175; 43_keygen.md R165). -/
def Obligations.KeySlotCommands : Prop :=
  encode .loadkey = 0x00000005#32 ∧ encode .project = 0x00000006#32 ∧ encode .clrkey = 0x00000009#32 ∧
  encode .clrpub = 0x0000000A#32 ∧
  ∀ s : State,
    (s.status.keyValid = true → exec .loadkey s = .next (s.raiseErr .keyLocked)) ∧
    (s.status.keyValid = false → exec .loadkey s = .next { s with
      status := { s.status with keyValid := true, busy := false, done := true }
      phase := .idle }) ∧
    exec .clrkey s = .next { s with
      regs := { s.regs with keyP := 0, keyQ := 0, keyE := 0, keyD := 0, keyN := 0, keyT := 0 }
      status := { s.status with keyValid := false, busy := false, done := true }
      phase := .idle } ∧
    exec .clrpub s = .next { s with
      regs := { s.regs with pubE := 0, pubN := 0 }
      status := { s.status with pubValid := false, busy := false, done := true }
      phase := .idle } ∧
    (s.status.keyValid = false → exec .project s = .next (s.raiseErr .noKey)) ∧
    (s.status.keyValid = true → s.status.pubValid = true → exec .project s = .next (s.raiseErr .keyLocked)) ∧
    (s.status.keyValid = true → s.status.pubValid = false → exec .project s = .next { s with
      regs := { s.regs with pubE := s.regs.keyE, pubN := s.regs.keyN }
      status := { s.status with pubValid := true, busy := false, done := true }
      phase := .idle })

/-! ## The loops -/

/-- The round and the last step of the exponentiation engine (42_modpow.md R142, R143). -/
def Obligations.PowerLoopSteps : Prop :=
  ∀ s : State, s.phase = .mpLoop →
    (0 < s.hid.e → 0 < s.hid.m → engineStep s = .next { s with
      hid := { s.hid with
        c := if s.hid.e % 2 = 1 then s.hid.c * s.hid.b % s.hid.m else s.hid.c
        b := s.hid.b * s.hid.b % s.hid.m
        e := s.hid.e / 2 } }) ∧
    (s.hid.e = 0 → s.hid.c < 2 ^ s.cfg.nw → engineStep s = .next { s with
      regs := { s.regs with res := s.hid.c }
      status := { s.status with busy := false, done := true }
      phase := .idle })

/-- The round of the inverse unit (41_modinv.md R132): all right-hand sides read the values before the step. -/
def Obligations.InverseLoopRound : Prop :=
  ∀ s : State, s.phase = .miLoop → s.hid.newr ≠ 0 →
    let quotient := s.hid.r / s.hid.newr
    engineStep s = .next { s with
      hid := { s.hid with
        t := s.hid.newt
        newt := s.hid.t - (quotient : Int) * s.hid.newt
        r := s.hid.newr
        newr := s.hid.r - quotient * s.hid.newr } } ∧
    s.hid.r - quotient * s.hid.newr = s.hid.r % s.hid.newr ∧ s.hid.r % s.hid.newr < s.hid.newr

/-- The last step of the inverse (41_modinv.md R133) and the key commit (43_keygen.md R155), in every state the
invariant holds of. -/
def Obligations.InverseDelivers : Prop :=
  ∀ s : State, s.Inv → s.phase = .miLoop → s.hid.newr = 0 →
    (1 < s.hid.r → engineStep s = .next (s.raiseErr .notInvertible)) ∧
    (s.hid.r ≤ 1 →
      ∃ v : Nat, (v : Int) = (if s.hid.t < 0 then s.hid.t + s.hid.n else s.hid.t) ∧
        (s.hid.ret = .toRes → engineStep s = .next { s with
          regs := { s.regs with res := v }
          status := { s.status with busy := false, done := true }
          phase := .idle }) ∧
        (s.hid.ret = .toKey → engineStep s = .next { s with
          regs := { s.regs with
            keyP := s.hid.p, keyQ := s.hid.q, keyE := 65537, keyD := v, keyN := s.hid.nmod, keyT := s.hid.tot }
          status := { s.status with keyValid := true, busy := false, done := true }
          phase := .idle }))

/-- One round of square and multiply keeps `c * b^e` modulo the modulus and consumes one bit of the exponent
(42_modpow.md R144). -/
def Obligations.PowerRoundKeepsTheProduct : Prop :=
  ∀ s : State, s.phase = .mpLoop → s.hid.e ≠ 0 → 0 < s.hid.m → (s.hid.c < s.hid.m ∨ s.hid.c = 1) →
    ∃ t, engineStep s = .next t ∧ t.phase = .mpLoop ∧ t.hid.m = s.hid.m ∧
      t.hid.c * t.hid.b ^ t.hid.e ≡ s.hid.c * s.hid.b ^ s.hid.e [MOD s.hid.m] ∧
      t.hid.b < t.hid.m ∧ (t.hid.c < t.hid.m ∨ t.hid.c = 1) ∧ bitlen t.hid.e + 1 = bitlen s.hid.e

/-- The inverse loop: its start meets the congruences and magnitudes, every round keeps them and lowers `newr`, and when
`newr` is zero `r` is the greatest common divisor (41_modinv.md R134, R136). -/
def Obligations.InverseRoundKeepsTheCongruences : Prop :=
  (∀ (s : State) (a n : Nat) (ret : Ret), 1 ≤ n →
    (s.startInverse a n ret).hid.EuclidFor a ∧ (s.startInverse a n ret).hid.EuclidMagnitudes) ∧
  (∀ (s : State) (a : Nat), s.phase = .miLoop → s.hid.newr ≠ 0 → s.hid.EuclidFor a → s.hid.EuclidMagnitudes →
    ∃ t, engineStep s = .next t ∧ t.phase = .miLoop ∧ t.hid.n = s.hid.n ∧ t.hid.newr < s.hid.newr ∧
      t.hid.EuclidFor a ∧ t.hid.EuclidMagnitudes) ∧
  (∀ (h : Hidden) (a : Nat), h.EuclidFor a → h.newr = 0 → h.r = Nat.gcd a h.n)

/-! ## Prime sampling -/

/-- The two engine steps of sampling emit the request and wait (40_prime_sampling.md R121, R123). -/
def Obligations.SamplingRequests : Prop :=
  ∀ s : State,
    (s.phase = .kgDraw → engineStep s = .next { s with
      trace := s.trace ++ [.rngRequest s.hid.w]
      phase := .kgRngWait }) ∧
    (s.phase = .kgTest → engineStep s = .next { s with
      trace := s.trace ++ [.primeRequest s.hid.cand 25]
      phase := .kgPtWait })

/-- The two replies: the candidate keeps the low bits of the reply and has exactly `w` bits; a candidate is accepted
only on verdict 1 and, for `q`, only if it differs from `p` (40_prime_sampling.md R122, R124). -/
def Obligations.SamplingReplies : Prop :=
  ∀ s : State,
    (∀ rnd, s.phase = .kgRngWait → rnd < 2 ^ s.cfg.nw → 1 ≤ s.hid.w →
      let cand := 2 ^ (s.hid.w - 1) + rnd % 2 ^ (s.hid.w - 1)
      rngReplyStep s rnd = .next { s with
        trace := s.trace ++ [.rngReply rnd]
        hid := { s.hid with cand := cand }
        phase := .kgTest } ∧
      2 ^ (s.hid.w - 1) ≤ cand ∧ cand < 2 ^ s.hid.w ∧ bitlen cand = s.hid.w) ∧
    (∀ verdict, s.phase = .kgPtWait →
      let traced := s.trace ++ [.primeReply verdict]
      (verdict = true → s.hid.which = .p → primeReplyStep s verdict = .next { s with
        trace := traced, hid := { s.hid with p := s.hid.cand, which := .q }, phase := .kgDraw }) ∧
      (verdict = true → s.hid.which = .q → s.hid.cand ≠ s.hid.p → primeReplyStep s verdict = .next { s with
        trace := traced, hid := { s.hid with q := s.hid.cand }, phase := .kgDerive }) ∧
      (verdict = false ∨ (s.hid.which = .q ∧ s.hid.cand = s.hid.p) → primeReplyStep s verdict = .next { s with
        trace := traced, phase := .kgDraw }))

/-- No bound on retries (40_prime_sampling.md R126). From KG_DRAW, replies below `2^NW` that are all rejected, by verdict 0
or as the accepted `p` again, lead back to KG_DRAW with nothing changed but the candidate and the trace: for every list of
them; for one reply and verdict given for ever, where the step itself never ends the run; and for every infinite sequence
of them, which is an infinite fair run with `STATUS` as it was at each of its instants. The replies stand in the agenda
or in the schedule of an execution, the model's choice of log entry 2. -/
def Obligations.SamplingIsNeverCapped : Prop :=
  ∀ s : State, s.phase = .kgDraw → 1 ≤ s.hid.w →
    (∀ replies : List (Nat × Bool), (∀ r ∈ replies, r.1 < s.cfg.bound ∧ s.hid.Rejects r) →
      s.agenda = replies.flatMap (fun r => [.settle, .rngReply r.1, .settle, .primeReply r.2]) →
      ∃ c, run (6 * replies.length) s = .next { s with
        hid := { s.hid with cand := c }
        trace := s.trace ++ replies.flatMap (candidateEvents s.hid.w)
        agenda := [] }) ∧
    (∀ (r : Nat × Bool) (rest : List Action), r.1 < s.cfg.bound → s.hid.Rejects r → s.agenda = .serve r.1 r.2 :: rest →
      ∀ n, ∃ c, run (4 * n) s = .next { s with
        hid := { s.hid with cand := c }
        trace := s.trace ++ (List.replicate n (candidateEvents s.hid.w r)).flatten }) ∧
    (∀ replies : Nat → Nat × Bool, (∀ i, (replies i).1 < s.cfg.bound ∧ s.hid.Rejects (replies i)) → s.agenda = [] →
      ∃ schedule states, Execution schedule states ∧ Fair schedule states ∧ states 0 = s ∧
        (∀ k, (states k).status = s.status ∧ (states k).regs = s.regs) ∧
        ∀ i, ∃ c, states (4 * i) = { s with
          hid := { s.hid with cand := c }
          trace := s.trace ++ (List.range i).flatMap (fun j => candidateEvents s.hid.w (replies j)) })

/-- Progress (20_memory.md R85, R90). In every fair run a command other than `GENKEY` completes, unless a reset abandons
it; in every run in which the environment does not answer and no reset comes, a request leaves the engine waiting, busy,
for ever; with an empty agenda that run is the state itself for ever; and a reset ends it. The schedule of a run and the
empty agenda are the model's choice of log entry 2. -/
def Obligations.FairRunsCompleteOrWait : Prop :=
  (∀ schedule states, Execution schedule states → Fair schedule states → (states 0).Inv → (states 0).phase ≠ .idle →
    (∀ w, decode (states 0).cmd ≠ .instr (.genkey w)) →
    ∃ k, (states k).phase = .idle ∧ ((states k).status.done = true ∨ ∃ j < k, schedule j = some .reset)) ∧
  (∀ schedule states, Execution schedule states → (states 0).status.busy = true →
    ((states 0).phase = .kgRngWait ∨ (states 0).phase = .kgPtWait) →
    (∀ k, schedule k ≠ some .reset ∧ (∀ rnd, schedule k ≠ some (.rngReply rnd)) ∧
      ∀ v, schedule k ≠ some (.primeReply v)) →
    ∀ k, (states k).phase = (states 0).phase ∧ (states k).status.busy = true ∧ (states k).trace = (states 0).trace) ∧
  ∀ s : State, (s.phase = .kgRngWait ∨ s.phase = .kgPtWait) →
    (s.agenda = [] → ∀ k, run k s = .next s) ∧ s.applyReset.phase = .idle

/-- A reply with no request of its kind outstanding, or outside `[0, 2^NW)`, is no step; neither is an engine move in
a phase without one (20_memory.md R80, R84, R89). -/
def Obligations.MovesNotEnabledAreRefused : Prop :=
  ∀ s : State,
    (∀ rnd, s.phase ≠ .kgRngWait → rngReplyStep s rnd = .refused .replyWithoutRequest) ∧
    (∀ rnd, s.phase = .kgRngWait → 2 ^ s.cfg.nw ≤ rnd → rngReplyStep s rnd = .refused .replyOutOfRange) ∧
    (∀ v, s.phase ≠ .kgPtWait → primeReplyStep s v = .refused .replyWithoutRequest) ∧
    (s.phase = .idle ∨ s.phase = .kgRngWait ∨ s.phase = .kgPtWait → engineStep s = .refused .engineNotEnabled)

/-! ## The commands that compute -/

/-- `MODPOW` (42_modpow.md R140, R145; 30_encoding.md R109): the check, the loaded values, and after
`bitlen(exponent) + 1` further engine steps the result in `RES` and nothing else changed.
The run with an empty agenda, in which the engine takes every step it can, is the model's choice of log entry 2. -/
def Obligations.ModpowCompletes : Prop :=
  encode .modpow = 0x00000001#32 ∧
  ∀ s : State,
    (s.br .opm = 0 → exec .modpow s = .next (s.raiseErr .range)) ∧
    (0 < s.br .opm → s.br .opm < s.cfg.bound →
      let loaded := { s with
        hid := { s.hid with m := s.br .opm, c := 1, b := s.br .opa % s.br .opm, e := s.br .opb }
        phase := .mpLoop }
      exec .modpow s = .next loaded ∧
      (s.agenda = [] → ∃ h, run (bitlen (s.br .opb) + 1) loaded = .next { s with
        regs := { s.regs with res := powerResidue (s.br .opa) (s.br .opb) (s.br .opm) }
        status := { s.status with busy := false, done := true }
        phase := .idle
        hid := h }))

/-- `ENCRYPT` (45_cipher.md R180, R181): no public key, block too large, or `RES <- OPA^PUB_E mod PUB_N`.
The run with an empty agenda is the model's choice of log entry 2. -/
def Obligations.EncryptCompletes : Prop :=
  encode .encrypt = 0x00000007#32 ∧
  ∀ s : State,
    (s.status.pubValid = false → exec .encrypt s = .next (s.raiseErr .noKey)) ∧
    (s.status.pubValid = true → s.br .pubN ≤ s.br .opa → exec .encrypt s = .next (s.raiseErr .blockTooLarge)) ∧
    (s.status.pubValid = true → s.br .opa < s.br .pubN → s.br .pubN < s.cfg.bound →
      let loaded := { s with
        hid := { s.hid with m := s.br .pubN, c := 1, b := s.br .opa % s.br .pubN, e := s.br .pubE }
        phase := .mpLoop }
      exec .encrypt s = .next loaded ∧
      (s.agenda = [] → ∃ h, run (bitlen (s.br .pubE) + 1) loaded = .next { s with
        regs := { s.regs with res := powerResidue (s.br .opa) (s.br .pubE) (s.br .pubN) }
        status := { s.status with busy := false, done := true }
        phase := .idle
        hid := h }))

/-- `DECRYPT` (45_cipher.md R183, R184): no key, zero modulus, or `RES <- OPA^KEY_D mod KEY_N`, a block not below the
modulus being reduced.
The run with an empty agenda is the model's choice of log entry 2. -/
def Obligations.DecryptCompletes : Prop :=
  encode .decrypt = 0x00000008#32 ∧
  ∀ s : State,
    (s.status.keyValid = false → exec .decrypt s = .next (s.raiseErr .noKey)) ∧
    (s.status.keyValid = true → s.br .keyN = 0 → exec .decrypt s = .next (s.raiseErr .range)) ∧
    (s.status.keyValid = true → 0 < s.br .keyN → s.br .keyN < s.cfg.bound →
      let loaded := { s with
        hid := { s.hid with m := s.br .keyN, c := 1, b := s.br .opa % s.br .keyN, e := s.br .keyD }
        phase := .mpLoop }
      exec .decrypt s = .next loaded ∧
      (s.agenda = [] → ∃ h, run (bitlen (s.br .keyD) + 1) loaded = .next { s with
        regs := { s.regs with res := powerResidue (s.br .opa) (s.br .keyD) (s.br .keyN) }
        status := { s.status with busy := false, done := true }
        phase := .idle
        hid := h }))

/-- `MODINV` (41_modinv.md R130, R134, R135; 30_encoding.md R109): a zero modulus is `ERR_RANGE`; operands with a
common factor end in `ERR_NOT_INVERTIBLE`; otherwise `RES` is the inverse, after one engine step per round and one
more.
The run with an empty agenda is the model's choice of log entry 2. -/
def Obligations.ModinvCompletes : Prop :=
  encode .modinv = 0x00000002#32 ∧
  ∀ s : State,
    (s.br .opm = 0 → exec .modinv s = .next (s.raiseErr .range)) ∧
    (0 < s.br .opm → s.br .opm < s.cfg.bound →
      let a := s.br .opa
      let n := s.br .opm
      let loaded := { s with
        hid := { s.hid with n := n, r := n, newr := a, t := 0, newt := 1, ret := .toRes }
        phase := .miLoop }
      exec .modinv s = .next loaded ∧
      (s.agenda = [] → 1 < Nat.gcd a n →
        ∃ h, run (modInverseRounds a n + 1) loaded = .next { s.raiseErr .notInvertible with hid := h }) ∧
      (s.agenda = [] → Nat.gcd a n = 1 → ∃ h, ∃ v : Nat, modInverse a n = some (v : Int) ∧ IsInverse a n v ∧
        run (modInverseRounds a n + 1) loaded = .next { s with
        regs := { s.regs with res := v }
        status := { s.status with busy := false, done := true }
        phase := .idle
        hid := h }))

/-- `DERIVE` (43_keygen.md R158, R159; 30_encoding.md R109): the checks in their order, then either
`ERR_NOT_INVERTIBLE` with the key slot untouched or the whole key committed.
The run with an empty agenda is the model's choice of log entry 2. -/
def Obligations.DeriveCompletes : Prop :=
  encode .derive = 0x00000004#32 ∧
  ∀ s : State, s.cfg.Ok →
    let p := s.br .opa
    let q := s.br .opb
    let outOfRange := p < 2 ∨ q < 2 ∨ p = q ∨ 2 ^ s.cfg.nw ≤ p * q
    (s.status.keyValid = true → exec .derive s = .next (s.raiseErr .keyLocked)) ∧
    (s.status.keyValid = false → outOfRange → exec .derive s = .next (s.raiseErr .range)) ∧
    (s.status.keyValid = false → ¬outOfRange →
      let tot := (p - 1) * (q - 1)
      let loaded := { s with hid := { s.hid with p := p, q := q }, phase := .kgDerive }
      exec .derive s = .next loaded ∧
      (s.agenda = [] → 1 < Nat.gcd 65537 tot →
        ∃ h, run (modInverseRounds 65537 tot + 2) loaded = .next { s.raiseErr .notInvertible with hid := h }) ∧
      (s.agenda = [] → Nat.gcd 65537 tot = 1 →
        ∃ h d, IsInverse 65537 tot d ∧ run (modInverseRounds 65537 tot + 2) loaded = .next { s with
          regs := { s.regs with keyP := p, keyQ := q, keyE := 65537, keyD := d, keyN := p * q, keyT := tot }
          status := { s.status with keyValid := true, busy := false, done := true }
          phase := .idle
          hid := h }))

/-- `GENKEY w`, the CHECK part (43_keygen.md R151). -/
def Obligations.GenkeyCheck : Prop :=
  ∀ (s : State) (w : Nat),
    (w < 8 ∨ s.cfg.nw / 2 < w → exec (.genkey w) s = .next (s.raiseErr .width)) ∧
    (8 ≤ w → w ≤ s.cfg.nw / 2 → s.status.keyValid = true → exec (.genkey w) s = .next (s.raiseErr .keyLocked)) ∧
    (8 ≤ w → w ≤ s.cfg.nw / 2 → s.status.keyValid = false →
      exec (.genkey w) s = .next { s with hid := { s.hid with w := w, which := .p }, phase := .kgDraw })

/-- `GENKEY w` when the environment answers both requests for each prime and both candidates are accepted
(43_keygen.md R150, R152, R154, R155, R156): eight port events, and then the key committed or `ERR_NOT_INVERTIBLE`
(the environment's answers stand in the agenda, the model's choice of log entries 2 and 3). -/
def Obligations.GenkeyCompletes : Prop :=
  ∀ (s : State) (w x y : Nat),
    s.agenda = [.settle, .rngReply x, .settle, .primeReply true, .settle, .rngReply y, .settle, .primeReply true] →
    s.cfg.Ok → s.status.keyValid = false → 8 ≤ w → w ≤ s.cfg.nw / 2 → x < s.cfg.bound → y < s.cfg.bound →
    let p := 2 ^ (w - 1) + x % 2 ^ (w - 1)
    let q := 2 ^ (w - 1) + y % 2 ^ (w - 1)
    let tot := (p - 1) * (q - 1)
    let traced := s.trace ++ [.rngRequest w, .rngReply x, .primeRequest p 25, .primeReply true,
      .rngRequest w, .rngReply y, .primeRequest q 25, .primeReply true]
    p ≠ q →
    ∃ u, exec (.genkey w) s = .next u ∧
      (1 < Nat.gcd 65537 tot → ∃ k h, run k u = .next { s.raiseErr .notInvertible with
        hid := h, agenda := [], trace := traced }) ∧
      (Nat.gcd 65537 tot = 1 → ∃ k h d, IsInverse 65537 tot d ∧ run k u = .next { s with
        regs := { s.regs with keyP := p, keyQ := q, keyE := 65537, keyD := d, keyN := p * q, keyT := tot }
        status := { s.status with keyValid := true, busy := false, done := true }
        phase := .idle
        hid := h
        agenda := []
        trace := traced })

/-- Step `KG_DERIVE` (43_keygen.md R154): modulus and totient formed, the inverse unit loaded with 65537 and the
totient, nothing architectural changed; the totient is at least 2 in every state the invariant holds of. -/
def Obligations.DeriveStepLoadsTheInverse : Prop :=
  ∀ s : State, s.phase = .kgDerive →
    let tot := (s.hid.p - 1) * (s.hid.q - 1)
    (1 ≤ s.hid.p → 1 ≤ s.hid.q → engineStep s = .next { s with
      hid := { s.hid with
        nmod := s.hid.p * s.hid.q, tot := tot, n := tot, r := tot, newr := 65537, t := 0, newt := 1, ret := .toKey }
      phase := .miLoop }) ∧
    (s.Inv → 2 ≤ tot)

/-- The document's two functions, as the loops compute them: `modPow` is the power, `modInverse` the inverse or
`NotInvertible` (42_modpow.md R141, R145; 41_modinv.md R131, R134, R135). -/
def Obligations.ReferenceFunctions : Prop :=
  (∀ base exponent modulus, 1 ≤ modulus → modPow base exponent modulus = powerResidue base exponent modulus) ∧
  (∀ a n, 1 ≤ n →
    (1 < Nat.gcd a n → modInverse a n = none) ∧
    (Nat.gcd a n = 1 → ∃ v : Nat, modInverse a n = some (v : Int) ∧ IsInverse a n v))

/-- A host script that writes the three operands, issues `MODPOW` and waits, run from reset on any instance, ends with
the power in `RES` and `STATUS` read as `DONE` alone
(20_memory.md R91; 30_encoding.md R110; 42_modpow.md R140, R145; how a script becomes moves is the model's choice of log
entry 2). -/
def Obligations.ScriptComputesThePower : Prop :=
  ∀ (cfg : Config) (a e m : Nat), cfg.Ok → a < cfg.bound → e < cfg.bound → m < cfg.bound → 0 < m →
    ∃ k t, run k ((State.resetFor cfg).withScript [.wr .opa a, .wr .opb e, .wr .opm m, .cmd .modpow, .wait]) = .next t ∧
      t.agenda = [] ∧ t.phase = .idle ∧ t.reads = [⟨0x0010, 0x00000002#32⟩] ∧ t.trace = [] ∧
      t.br .res = powerResidue a e m ∧ t.br .opa = a ∧ t.br .opb = e ∧ t.br .opm = m

/-- The round-trip law (45_cipher.md R185): with distinct primes `p`, `q`, a private exponent inverse to 65537 modulo
`(p-1)(q-1)` and the projected public key, `DECRYPT` of `ENCRYPT` of a block below the modulus is the block.
The run with an empty agenda is the model's choice of log entry 2. -/
def Obligations.DecryptOfEncrypt : Prop :=
  ∀ (s : State) (p q d x : Nat), p.Prime → q.Prime → p ≠ q → 65537 * d % ((p - 1) * (q - 1)) = 1 →
    p * q < s.cfg.bound → s.agenda = [] →
    s.status.pubValid = true → s.br .pubE = 65537 → s.br .pubN = p * q →
    s.status.keyValid = true → s.br .keyD = d → s.br .keyN = p * q →
    s.br .opa = x → x < p * q →
    ∃ t₁ k₁ u₁ t₂ k₂ u₂,
      exec .encrypt s = .next t₁ ∧ run k₁ t₁ = .next u₁ ∧ u₁.phase = .idle ∧ u₁.status.done = true ∧
      exec .decrypt (u₁.setBr .opa (u₁.br .res)) = .next t₂ ∧ run k₂ t₂ = .next u₂ ∧ u₂.phase = .idle ∧
      u₂.status.done = true ∧ u₂.br .res = x

/-! ## Reset -/

/-- Reset (10_state.md R43; 70_reset_and_hazards.md R230, R232), at power-on and at any time in a run: every piece of
state has its reset value, a running command is abandoned, and the trace keeps its events.
When the reset input is pulsed stands in the agenda, the model's choice of log entry 2. -/
def Obligations.ResetClearsTheBlock : Prop :=
  (∀ (s : State) (rest : List Action), s.agenda = .reset :: rest →
    ∃ t, step s = .next t ∧ (∀ X, t.br X = 0) ∧ t.memRead 0x0000 = 0x4D454531#32 ∧ t.memRead 0x0004 = configWord s.cfg ∧
      t.memRead 0x0008 = 0 ∧ t.memRead 0x000C = 0 ∧ t.memRead 0x0010 = 0 ∧ t.phase = .idle ∧ t.irq = false ∧
      t.trace = s.trace ∧ t.cfg = s.cfg ∧ t.agenda = rest) ∧
  (∀ X, State.reset.br X = 0) ∧ State.reset.memRead 0x0000 = 0x4D454531#32 ∧
  State.reset.memRead 0x0004 = 0x00190808#32 ∧ State.reset.memRead 0x0008 = 0 ∧
  State.reset.memRead 0x000C = 0 ∧ State.reset.memRead 0x0010 = 0 ∧ State.reset.phase = .idle ∧
  State.reset.irq = false ∧ State.reset.trace = []

/-- Every instance meets the state invariant after reset (10_state.md R21, R35, R43). -/
def Obligations.ResetMeetsInvariant : Prop := ∀ cfg : Config, cfg.Ok → (State.resetFor cfg).Inv

/-! ## The whole machine -/

/-- Every step of every agent keeps the state invariant (10_state.md R21, R35, R40; 41_modinv.md R134, R136;
42_modpow.md R144; 43_keygen.md R153, R160). -/
def Obligations.StepKeepsInvariant : Prop := ∀ s t : State, s.Inv → step s = .next t → t.Inv

/-- From a state that meets the invariant no step faults. The two faults are the model's marks of a division by zero and of
a value that does not fit its register (log entry 6), so no value is ever truncated and no division by zero is met
(00_scope.md R13, R14, R15). -/
def Obligations.InvariantStatesNeverFault : Prop := ∀ s : State, s.Inv → ∀ r, step s ≠ .fault r

/-- Every step keeps the relations between phase and flags, whatever else holds of the state (10_state.md R35, R36). -/
def Obligations.StatusStaysConsistent : Prop :=
  ∀ s t : State, s.StatusConsistent → step s = .next t → t.StatusConsistent

/-- `OPA`, `OPB`, `OPM` are written by no command: only a host write to their window while idle, or reset, changes them
(10_state.md R22, R23, R24).
Which move is next stands in the agenda, the model's choice of log entry 2. -/
def Obligations.OperandsWrittenOnlyByHost : Prop :=
  ∀ (s t : State) (X : BigReg), (X = .opa ∨ X = .opb ∨ X = .opm) → step s = .next t → t.br X ≠ s.br X →
    s.NextIsReset ∨ ∃ off v, s.NextIsWrite off v ∧ inWindow s.cfg off X = true ∧ s.status.busy = false

/-- `RES` is written only by the successful completion of a power or of an inverse, or by reset (10_state.md R25).
Which move is next stands in the agenda, the model's choice of log entry 2. -/
def Obligations.ResWrittenOnlyBySuccess : Prop :=
  ∀ s t : State, step s = .next t → t.br .res ≠ s.br .res →
    s.NextIsReset ∨
    (t.phase = .idle ∧ t.status.busy = false ∧ t.status.done = true ∧ t.status.err = s.status.err ∧
      ((s.phase = .mpLoop ∧ s.hid.e = 0 ∧ t.br .res = s.hid.c) ∨
        (s.phase = .miLoop ∧ s.hid.newr = 0 ∧ s.hid.r ≤ 1 ∧ s.hid.ret = .toRes)))

/-- The life of the key slot (10_state.md R26, R27; 43_keygen.md R155; 44_keyslot.md R176): constructed by `LOADKEY` or a
commit, destroyed by `CLRKEY` or reset, immutable in between; while it holds no key, only an idle host write to the
register's window, the commit, `CLRKEY` and reset change a register of it, so no command uses it as scratch.
Which move is next stands in the agenda, the model's choice of log entry 2. -/
def Obligations.KeySlotLifecycle : Prop :=
  ∀ s t : State, s.Inv → step s = .next t →
    (s.status.keyValid = false → t.status.keyValid = true →
      (s.phase = .check ∧ decode s.cmd = .instr .loadkey ∧ t.regs = s.regs) ∨
      (s.phase = .miLoop ∧ s.hid.newr = 0 ∧ s.hid.ret = .toKey)) ∧
    (s.status.keyValid = true → t.status.keyValid = false →
      (s.phase = .check ∧ decode s.cmd = .instr .clrkey ∧ ∀ X, X.inKeySlot = true → t.br X = 0) ∨ s.NextIsReset) ∧
    (s.status.keyValid = true → t.status.keyValid = true → ∀ X, X.inKeySlot = true → t.br X = s.br X) ∧
    (s.status.keyValid = false → ∀ X, X.inKeySlot = true → t.br X ≠ s.br X →
      (s.status.busy = false ∧ t.status.keyValid = false ∧ ∃ off v, s.NextIsWrite off v ∧ inWindow s.cfg off X = true) ∨
      (s.phase = .check ∧ decode s.cmd = .instr .clrkey ∧ t.status.keyValid = false ∧ t.br X = 0) ∨
      (s.phase = .miLoop ∧ s.hid.newr = 0 ∧ s.hid.r ≤ 1 ∧ s.hid.ret = .toKey ∧ t.status.keyValid = true) ∨
      s.NextIsReset)

/-- The life of the public slot (10_state.md R28; 43_keygen.md R166): only `PROJECT`, `CLRPUB` and reset change it; in
particular no step on the key slot does.
Which move is next stands in the agenda, the model's choice of log entry 2. -/
def Obligations.PublicSlotLifecycle : Prop :=
  ∀ s t : State, step s = .next t →
    (t.br .pubE = s.br .pubE ∧ t.br .pubN = s.br .pubN ∧ t.status.pubValid = s.status.pubValid) ∨
    (s.phase = .check ∧ decode s.cmd = .instr .project ∧ s.status.keyValid = true ∧ s.status.pubValid = false ∧
      t.br .pubE = s.br .keyE ∧ t.br .pubN = s.br .keyN ∧ t.status.pubValid = true ∧
      t.br .keyE = s.br .keyE ∧ t.br .keyN = s.br .keyN) ∨
    (s.phase = .check ∧ decode s.cmd = .instr .clrpub ∧ t.br .pubE = 0 ∧ t.br .pubN = 0 ∧
      t.status.pubValid = false) ∨
    s.NextIsReset

/-- Errors are precise (60_exceptions.md R210, R212): the step that raises an error changes `STATUS` and the phase only. -/
def Obligations.ErrorsArePrecise : Prop :=
  ∀ s t : State, step s = .next t → s.status.err = false → t.status.err = true →
    t = { s with
      status := { s.status with busy := false, done := true, err := true, errcode := t.status.errcode }
      phase := .idle
      agenda := t.agenda }

/-- Which command can end with which code (60_exceptions.md R207). -/
def Obligations.ErrorsFollowTheTable : Prop :=
  ∀ s t : State, s.Inv → step s = .next t → s.status.err = false → t.status.err = true →
    ∃ k : ErrKind, k ∈ errorsOf (decode s.cmd) ∧ t.status.errcode = k.code

/-- The violation flags are sticky and record dropped host writes only (10_state.md R37). That a window ends at its last
register word is the model's choice of log entry 8.
Which move is next stands in the agenda, the model's choice of log entry 2. -/
def Obligations.ViolationFlagsAreSticky : Prop :=
  ∀ s t : State, step s = .next t →
    (s.status.busyViol = true → t.status.busyViol = false →
      s.NextIsReset ∨ ∃ v, s.NextIsWrite 0x0010 v ∧ v.getLsbD 5 = true) ∧
    (s.status.lockViol = true → t.status.lockViol = false →
      s.NextIsReset ∨ ∃ v, s.NextIsWrite 0x0010 v ∧ v.getLsbD 6 = true) ∧
    (s.status.busyViol = false → t.status.busyViol = true →
      s.status.busy = true ∧
        ∃ off v, s.NextIsWrite off v ∧ (off = 0x000C ∨ ∃ X, inWindow s.cfg off X = true)) ∧
    (s.status.lockViol = false → t.status.lockViol = true →
      s.status.busy = false ∧
        ∃ off v X, s.NextIsWrite off v ∧ inWindow s.cfg off X = true ∧ s.writable X = false)

/-- Port events come from `GENKEY` alone, one at a time (20_memory.md R82). -/
def Obligations.PortEventsOnlyInGenkey : Prop :=
  ∀ s t : State, s.Inv → step s = .next t → t.trace ≠ s.trace →
    (∃ w, decode s.cmd = .instr (.genkey w)) ∧ s.status.busy = true ∧ ∃ ev, t.trace = s.trace ++ [ev]

/-- The parameter never changes, and the host's answers and the trace only grow (10_state.md R42; 20_memory.md R82). -/
def Obligations.ParameterIsConstant : Prop :=
  ∀ (k : Nat) (s t : State), run k s = .next t →
    t.cfg = s.cfg ∧ s.trace <+: t.trace ∧ s.reads <+: t.reads

/-- A hidden value that is not live has no influence (10_state.md R40, R43): states that differ only in such values take
steps to states that differ only in such values, or stop alike. -/
def Obligations.DeadHiddenValuesAreNeverRead : Prop :=
  ∀ s s' : State, s.SameButDead s' →
    (∀ t, step s = .next t → ∃ t', step s' = .next t' ∧ t.SameButDead t') ∧
    (∀ r, step s = .fault r → step s' = .fault r) ∧
    (∀ r, step s = .refused r → step s' = .refused r)

/-- A key constructed by `GENKEY` or `DERIVE` satisfies the relations of 43_keygen.md R163, and for `GENKEY w` its
primes have exactly `w` bits and were answered "probably prime". -/
def Obligations.ConstructedKeyRelations : Prop :=
  ∀ s t : State, s.Inv → step s = .next t → s.phase = .miLoop → s.status.keyValid = false →
    t.status.keyValid = true →
    t.KeyRelations ∧
    ∀ w, decode s.cmd = .instr (.genkey w) →
      bitlen (t.br .keyP) = w ∧ bitlen (t.br .keyQ) = w ∧
      Accepted t.trace (t.br .keyP) ∧ Accepted t.trace (t.br .keyQ)

/-- Under `OracleSound` the primes of a generated key are primes (20_memory.md R88; 40_prime_sampling.md R127). The
hypothesis is the environment's, named by R88; nothing in the block enforces it. -/
def Obligations.SoundOracleGivesPrimes : Prop :=
  ∀ s t : State, s.Inv → step s = .next t → s.phase = .miLoop → s.status.keyValid = false →
    t.status.keyValid = true → OracleSound t.trace → ∀ w, decode s.cmd = .instr (.genkey w) →
      (t.br .keyP).Prime ∧ (t.br .keyQ).Prime
end

