-- ==== Sys2Proof/Laws/Arithmetic.lean ====
section
/-! SUPPORT. The number facts behind the loops: bit lengths (00_scope.md R11), the candidate of a reply
(40_prime_sampling.md R122), one round of square and multiply (42_modpow.md R144) and one Euclidean round
(41_modinv.md R134, R136). -/

namespace Sys2Proof.Machine

theorem bitlen_half {e : Nat} (h : e ≠ 0) : bitlen (e / 2) + 1 = bitlen e := by
  unfold bitlen
  rw [if_neg h]
  rcases Nat.lt_or_ge e 2 with h2 | h2
  · have : e = 1 := by omega
    subst this; decide
  · rw [if_neg (by omega), Nat.log2_def e, if_pos h2]

theorem bitlen_eq {v w : Nat} (hw : 1 ≤ w) (h1 : 2 ^ (w - 1) ≤ v) (h2 : v < 2 ^ w) : bitlen v = w := by
  have hv : v ≠ 0 := by
    have : 0 < 2 ^ (w - 1) := by positivity
    omega
  unfold bitlen
  rw [if_neg hv]
  have := (Nat.log2_eq_iff hv (k := w - 1)).mpr ⟨h1, by rwa [Nat.sub_add_cancel hw]⟩
  omega

theorem candidateOf_bounds {w : Nat} (hw : 1 ≤ w) (x : Nat) : 2 ^ (w - 1) ≤ candidateOf w x ∧ candidateOf w x < 2 ^ w := by
  obtain ⟨k, rfl⟩ : ∃ k, w = k + 1 := ⟨w - 1, by omega⟩
  have := Nat.mod_lt x (show 0 < 2 ^ k by positivity)
  simp [candidateOf, pow_succ]; omega

/-- The product of two numbers of `w` bits fits `n` bits (43_keygen.md R153). -/
theorem mul_lt_two_pow {p q w n : Nat} (hp : p < 2 ^ w) (hq : q < 2 ^ w) (hw : 2 * w ≤ n) : p * q < 2 ^ n := by
  calc p * q < 2 ^ w * 2 ^ w := Nat.mul_lt_mul'' hp hq
    _ = 2 ^ (2 * w) := by rw [← pow_add]; congr 1; ring
    _ ≤ 2 ^ n := Nat.pow_le_pow_right (by norm_num) hw

/-- The totient of two distinct factors of at least 2 is at least 2 (43_keygen.md R159). -/
theorem two_le_totient {p q : Nat} (hp : 2 ≤ p) (hq : 2 ≤ q) (h : p ≠ q) : 2 ≤ (p - 1) * (q - 1) := by
  obtain ⟨a, rfl⟩ : ∃ a, p = a + 2 := ⟨p - 2, by omega⟩
  obtain ⟨b, rfl⟩ : ∃ b, q = b + 2 := ⟨q - 2, by omega⟩
  have : a ≠ b := by omega
  simp only [Nat.add_succ_sub_one]
  rcases Nat.eq_zero_or_pos a with rfl | ha
  · omega
  · nlinarith

/-- One round on `(c, b, e)` keeps `c * b^e` modulo `m`. -/
theorem square_multiply_round (c b e m : Nat) :
    (if e % 2 = 1 then c * b % m else c) * (b * b % m) ^ (e / 2) ≡ c * b ^ e [MOD m] := by
  have hb : (b * b % m) ^ (e / 2) ≡ (b * b) ^ (e / 2) [MOD m] := (Nat.mod_modEq _ _).pow _
  have he := Nat.div_add_mod e 2
  split
  · next h =>
    rw [h] at he
    refine ((Nat.mod_modEq _ _).mul hb).trans ?_
    conv_rhs => rw [← he]
    rw [show c * b ^ (2 * (e / 2) + 1) = c * b * (b * b) ^ (e / 2) by rw [pow_succ, pow_mul]; ring]
  · next h =>
    have h0 : e % 2 = 0 := by omega
    rw [h0] at he
    refine ((Nat.ModEq.refl c).mul hb).trans ?_
    conv_rhs => rw [← he]
    rw [show c * b ^ (2 * (e / 2) + 0) = c * (b * b) ^ (e / 2) by rw [Nat.add_zero, pow_mul]; ring]

/-- The signs of the cofactors alternate, so their weighted sum stays `n`. -/
theorem euclidRound_magnitudes {h : Hidden} (hm : h.EuclidMagnitudes) (h0 : h.newr ≠ 0) :
    h.euclidRound.EuclidMagnitudes := by
  obtain ⟨n1, r1, op, w, tb⟩ := hm
  set q := h.r / h.newr with hq
  have hqr : q * h.newr ≤ h.r := Nat.div_mul_le_self _ _
  have habs : (h.t - (q : Int) * h.newt).natAbs = h.t.natAbs + q * h.newt.natAbs := by
    zify
    rcases le_or_gt h.t 0 with ht | ht <;> rcases le_or_gt h.newt 0 with hn | hn
    · rcases eq_or_lt_of_le ht with e | e
      · rw [e]; simp [abs_mul]
      · have : h.newt = 0 := by nlinarith
        simp [this]
    · rw [abs_of_nonpos ht, abs_of_pos hn, abs_of_nonpos]
      · ring
      · have : 0 ≤ (q : Int) * h.newt := by positivity
        linarith
    · rw [abs_of_pos ht, abs_of_nonpos hn, abs_of_nonneg]
      · ring
      · have : (q : Int) * h.newt ≤ 0 := mul_nonpos_of_nonneg_of_nonpos (by positivity) hn
        linarith
    · nlinarith
  refine ⟨n1, Nat.one_le_iff_ne_zero.mpr h0, ?_, ?_, ?_⟩ <;> simp only [Hidden.euclidRound, ← hq]
  · have : 0 ≤ (q : Int) * (h.newt * h.newt) := mul_nonneg (by positivity) (mul_self_nonneg _)
    nlinarith
  · rw [habs]
    have : h.r * h.newt.natAbs = (h.r - q * h.newr) * h.newt.natAbs + q * h.newr * h.newt.natAbs := by
      rw [← Nat.add_mul, Nat.sub_add_cancel hqr]
    nlinarith
  · nlinarith [Nat.zero_le (h.newr * h.t.natAbs), Nat.zero_le ((h.r - 1) * h.newt.natAbs), Nat.sub_add_cancel r1]

theorem euclidRound_congruences {h : Hidden} {a : Nat} (hm : h.EuclidFor a) : h.euclidRound.EuclidFor a := by
  obtain ⟨c1, c2, g⟩ := hm
  have hqr : h.r / h.newr * h.newr ≤ h.r := Nat.div_mul_le_self _ _
  refine ⟨c2, ?_, ?_⟩ <;> simp only [Hidden.euclidRound]
  · push_cast [Nat.cast_sub hqr]
    have step := dvd_sub c1 (Dvd.dvd.mul_left c2 ((h.r / h.newr : Nat) : Int))
    push_cast at step
    have e : (h.t - (h.r : Int) / h.newr * h.newt) * (a : Int) - (h.r - (h.r : Int) / h.newr * h.newr) =
        h.t * a - h.r - (h.r : Int) / h.newr * (h.newt * a - h.newr) := by ring
    rw [e]; exact step
  · rw [← g, show h.r - h.r / h.newr * h.newr = h.r % h.newr by rw [Nat.mod_eq_sub_div_mul], Nat.gcd_comm h.newr,
      ← Nat.gcd_rec, Nat.gcd_comm]

end Sys2Proof.Machine
end

