-- ==== Sys2Proof/Laws/State.lean ====
section
/-! SUPPORT. What each named operation leaves in each field of State, true by unfolding, so that no later proof unfolds
a record update. -/

namespace Sys2Proof.Machine.State

variable (s : State)

@[simp] theorem setBr_cfg (X : BigReg) (v : Nat) : (s.setBr X v).cfg = s.cfg := rfl
@[simp] theorem setBr_regs (X : BigReg) (v : Nat) : (s.setBr X v).regs = s.regs.set X v := rfl
@[simp] theorem setBr_ctrl (X : BigReg) (v : Nat) : (s.setBr X v).ctrl = s.ctrl := rfl
@[simp] theorem setBr_cmd (X : BigReg) (v : Nat) : (s.setBr X v).cmd = s.cmd := rfl
@[simp] theorem setBr_status (X : BigReg) (v : Nat) : (s.setBr X v).status = s.status := rfl
@[simp] theorem setBr_phase (X : BigReg) (v : Nat) : (s.setBr X v).phase = s.phase := rfl
@[simp] theorem setBr_hid (X : BigReg) (v : Nat) : (s.setBr X v).hid = s.hid := rfl
@[simp] theorem setBr_trace (X : BigReg) (v : Nat) : (s.setBr X v).trace = s.trace := rfl
@[simp] theorem setBr_reads (X : BigReg) (v : Nat) : (s.setBr X v).reads = s.reads := rfl
@[simp] theorem setBr_agenda (X : BigReg) (v : Nat) : (s.setBr X v).agenda = s.agenda := rfl

@[simp] theorem setKeySlot_cfg (p q e d n t : Nat) : (s.setKeySlot p q e d n t).cfg = s.cfg := rfl
@[simp] theorem setKeySlot_ctrl (p q e d n t : Nat) : (s.setKeySlot p q e d n t).ctrl = s.ctrl := rfl
@[simp] theorem setKeySlot_cmd (p q e d n t : Nat) : (s.setKeySlot p q e d n t).cmd = s.cmd := rfl
@[simp] theorem setKeySlot_status (p q e d n t : Nat) : (s.setKeySlot p q e d n t).status = s.status := rfl
@[simp] theorem setKeySlot_phase (p q e d n t : Nat) : (s.setKeySlot p q e d n t).phase = s.phase := rfl
@[simp] theorem setKeySlot_hid (p q e d n t : Nat) : (s.setKeySlot p q e d n t).hid = s.hid := rfl
@[simp] theorem setKeySlot_trace (p q e d n t : Nat) : (s.setKeySlot p q e d n t).trace = s.trace := rfl
@[simp] theorem setKeySlot_reads (p q e d n t : Nat) : (s.setKeySlot p q e d n t).reads = s.reads := rfl
@[simp] theorem setKeySlot_agenda (p q e d n t : Nat) : (s.setKeySlot p q e d n t).agenda = s.agenda := rfl

@[simp] theorem raiseErr_cfg (k : ErrKind) : (s.raiseErr k).cfg = s.cfg := rfl
@[simp] theorem raiseErr_regs (k : ErrKind) : (s.raiseErr k).regs = s.regs := rfl
@[simp] theorem raiseErr_ctrl (k : ErrKind) : (s.raiseErr k).ctrl = s.ctrl := rfl
@[simp] theorem raiseErr_cmd (k : ErrKind) : (s.raiseErr k).cmd = s.cmd := rfl
@[simp] theorem raiseErr_status (k : ErrKind) : (s.raiseErr k).status = s.status.failed k.code := rfl
@[simp] theorem raiseErr_phase (k : ErrKind) : (s.raiseErr k).phase = .idle := rfl
@[simp] theorem raiseErr_hid (k : ErrKind) : (s.raiseErr k).hid = s.hid := rfl
@[simp] theorem raiseErr_trace (k : ErrKind) : (s.raiseErr k).trace = s.trace := rfl
@[simp] theorem raiseErr_reads (k : ErrKind) : (s.raiseErr k).reads = s.reads := rfl
@[simp] theorem raiseErr_agenda (k : ErrKind) : (s.raiseErr k).agenda = s.agenda := rfl

@[simp] theorem raiseErr_br (k : ErrKind) (Y : BigReg) : (s.raiseErr k).br Y = s.br Y := rfl

@[simp] theorem finish_cfg : (s.finish).cfg = s.cfg := rfl
@[simp] theorem finish_regs : (s.finish).regs = s.regs := rfl
@[simp] theorem finish_ctrl : (s.finish).ctrl = s.ctrl := rfl
@[simp] theorem finish_cmd : (s.finish).cmd = s.cmd := rfl
@[simp] theorem finish_status : (s.finish).status = s.status.completed := rfl
@[simp] theorem finish_phase : (s.finish).phase = .idle := rfl
@[simp] theorem finish_hid : (s.finish).hid = s.hid := rfl
@[simp] theorem finish_trace : (s.finish).trace = s.trace := rfl
@[simp] theorem finish_reads : (s.finish).reads = s.reads := rfl
@[simp] theorem finish_agenda : (s.finish).agenda = s.agenda := rfl

@[simp] theorem finish_br (Y : BigReg) : (s.finish).br Y = s.br Y := rfl

@[simp] theorem emit_cfg (ev : PortEvent) : (s.emit ev).cfg = s.cfg := rfl
@[simp] theorem emit_regs (ev : PortEvent) : (s.emit ev).regs = s.regs := rfl
@[simp] theorem emit_ctrl (ev : PortEvent) : (s.emit ev).ctrl = s.ctrl := rfl
@[simp] theorem emit_cmd (ev : PortEvent) : (s.emit ev).cmd = s.cmd := rfl
@[simp] theorem emit_status (ev : PortEvent) : (s.emit ev).status = s.status := rfl
@[simp] theorem emit_phase (ev : PortEvent) : (s.emit ev).phase = s.phase := rfl
@[simp] theorem emit_hid (ev : PortEvent) : (s.emit ev).hid = s.hid := rfl
@[simp] theorem emit_trace (ev : PortEvent) : (s.emit ev).trace = s.trace ++ [ev] := rfl
@[simp] theorem emit_reads (ev : PortEvent) : (s.emit ev).reads = s.reads := rfl
@[simp] theorem emit_agenda (ev : PortEvent) : (s.emit ev).agenda = s.agenda := rfl

@[simp] theorem emit_br (ev : PortEvent) (Y : BigReg) : (s.emit ev).br Y = s.br Y := rfl

@[simp] theorem setKeyValid_cfg (b : Bool) : (s.setKeyValid b).cfg = s.cfg := rfl
@[simp] theorem setKeyValid_regs (b : Bool) : (s.setKeyValid b).regs = s.regs := rfl
@[simp] theorem setKeyValid_ctrl (b : Bool) : (s.setKeyValid b).ctrl = s.ctrl := rfl
@[simp] theorem setKeyValid_cmd (b : Bool) : (s.setKeyValid b).cmd = s.cmd := rfl
@[simp] theorem setKeyValid_status (b : Bool) : (s.setKeyValid b).status = { s.status with keyValid := b } := rfl
@[simp] theorem setKeyValid_phase (b : Bool) : (s.setKeyValid b).phase = s.phase := rfl
@[simp] theorem setKeyValid_hid (b : Bool) : (s.setKeyValid b).hid = s.hid := rfl
@[simp] theorem setKeyValid_trace (b : Bool) : (s.setKeyValid b).trace = s.trace := rfl
@[simp] theorem setKeyValid_reads (b : Bool) : (s.setKeyValid b).reads = s.reads := rfl
@[simp] theorem setKeyValid_agenda (b : Bool) : (s.setKeyValid b).agenda = s.agenda := rfl

@[simp] theorem setKeyValid_br (b : Bool) (Y : BigReg) : (s.setKeyValid b).br Y = s.br Y := rfl

@[simp] theorem setPubValid_cfg (b : Bool) : (s.setPubValid b).cfg = s.cfg := rfl
@[simp] theorem setPubValid_regs (b : Bool) : (s.setPubValid b).regs = s.regs := rfl
@[simp] theorem setPubValid_ctrl (b : Bool) : (s.setPubValid b).ctrl = s.ctrl := rfl
@[simp] theorem setPubValid_cmd (b : Bool) : (s.setPubValid b).cmd = s.cmd := rfl
@[simp] theorem setPubValid_status (b : Bool) : (s.setPubValid b).status = { s.status with pubValid := b } := rfl
@[simp] theorem setPubValid_phase (b : Bool) : (s.setPubValid b).phase = s.phase := rfl
@[simp] theorem setPubValid_hid (b : Bool) : (s.setPubValid b).hid = s.hid := rfl
@[simp] theorem setPubValid_trace (b : Bool) : (s.setPubValid b).trace = s.trace := rfl
@[simp] theorem setPubValid_reads (b : Bool) : (s.setPubValid b).reads = s.reads := rfl
@[simp] theorem setPubValid_agenda (b : Bool) : (s.setPubValid b).agenda = s.agenda := rfl

@[simp] theorem setPubValid_br (b : Bool) (Y : BigReg) : (s.setPubValid b).br Y = s.br Y := rfl

@[simp] theorem noteBusyViol_cfg : (s.noteBusyViol).cfg = s.cfg := rfl
@[simp] theorem noteBusyViol_regs : (s.noteBusyViol).regs = s.regs := rfl
@[simp] theorem noteBusyViol_ctrl : (s.noteBusyViol).ctrl = s.ctrl := rfl
@[simp] theorem noteBusyViol_cmd : (s.noteBusyViol).cmd = s.cmd := rfl
@[simp] theorem noteBusyViol_status : (s.noteBusyViol).status = { s.status with busyViol := true } := rfl
@[simp] theorem noteBusyViol_phase : (s.noteBusyViol).phase = s.phase := rfl
@[simp] theorem noteBusyViol_hid : (s.noteBusyViol).hid = s.hid := rfl
@[simp] theorem noteBusyViol_trace : (s.noteBusyViol).trace = s.trace := rfl
@[simp] theorem noteBusyViol_reads : (s.noteBusyViol).reads = s.reads := rfl
@[simp] theorem noteBusyViol_agenda : (s.noteBusyViol).agenda = s.agenda := rfl

@[simp] theorem noteBusyViol_br (Y : BigReg) : (s.noteBusyViol).br Y = s.br Y := rfl

@[simp] theorem noteLockViol_cfg : (s.noteLockViol).cfg = s.cfg := rfl
@[simp] theorem noteLockViol_regs : (s.noteLockViol).regs = s.regs := rfl
@[simp] theorem noteLockViol_ctrl : (s.noteLockViol).ctrl = s.ctrl := rfl
@[simp] theorem noteLockViol_cmd : (s.noteLockViol).cmd = s.cmd := rfl
@[simp] theorem noteLockViol_status : (s.noteLockViol).status = { s.status with lockViol := true } := rfl
@[simp] theorem noteLockViol_phase : (s.noteLockViol).phase = s.phase := rfl
@[simp] theorem noteLockViol_hid : (s.noteLockViol).hid = s.hid := rfl
@[simp] theorem noteLockViol_trace : (s.noteLockViol).trace = s.trace := rfl
@[simp] theorem noteLockViol_reads : (s.noteLockViol).reads = s.reads := rfl
@[simp] theorem noteLockViol_agenda : (s.noteLockViol).agenda = s.agenda := rfl

@[simp] theorem noteLockViol_br (Y : BigReg) : (s.noteLockViol).br Y = s.br Y := rfl

@[simp] theorem acknowledge_cfg (v : Word) : (s.acknowledge v).cfg = s.cfg := rfl
@[simp] theorem acknowledge_regs (v : Word) : (s.acknowledge v).regs = s.regs := rfl
@[simp] theorem acknowledge_ctrl (v : Word) : (s.acknowledge v).ctrl = s.ctrl := rfl
@[simp] theorem acknowledge_cmd (v : Word) : (s.acknowledge v).cmd = s.cmd := rfl
@[simp] theorem acknowledge_status (v : Word) : (s.acknowledge v).status = s.status.cleared v := rfl
@[simp] theorem acknowledge_phase (v : Word) : (s.acknowledge v).phase = s.phase := rfl
@[simp] theorem acknowledge_hid (v : Word) : (s.acknowledge v).hid = s.hid := rfl
@[simp] theorem acknowledge_trace (v : Word) : (s.acknowledge v).trace = s.trace := rfl
@[simp] theorem acknowledge_reads (v : Word) : (s.acknowledge v).reads = s.reads := rfl
@[simp] theorem acknowledge_agenda (v : Word) : (s.acknowledge v).agenda = s.agenda := rfl

@[simp] theorem acknowledge_br (v : Word) (Y : BigReg) : (s.acknowledge v).br Y = s.br Y := rfl

@[simp] theorem issue_cfg (v : Word) : (s.issue v).cfg = s.cfg := rfl
@[simp] theorem issue_regs (v : Word) : (s.issue v).regs = s.regs := rfl
@[simp] theorem issue_ctrl (v : Word) : (s.issue v).ctrl = s.ctrl := rfl
@[simp] theorem issue_cmd (v : Word) : (s.issue v).cmd = v := rfl
@[simp] theorem issue_status (v : Word) : (s.issue v).status = s.status.issued := rfl
@[simp] theorem issue_phase (v : Word) : (s.issue v).phase = .check := rfl
@[simp] theorem issue_hid (v : Word) : (s.issue v).hid = { s.hid with op := opcodeOf v, arg := argOf v } := rfl
@[simp] theorem issue_trace (v : Word) : (s.issue v).trace = s.trace := rfl
@[simp] theorem issue_reads (v : Word) : (s.issue v).reads = s.reads := rfl
@[simp] theorem issue_agenda (v : Word) : (s.issue v).agenda = s.agenda := rfl

@[simp] theorem issue_br (v : Word) (Y : BigReg) : (s.issue v).br Y = s.br Y := rfl

@[simp] theorem startPow_cfg (b e m : Nat) : (s.startPow b e m).cfg = s.cfg := rfl
@[simp] theorem startPow_regs (b e m : Nat) : (s.startPow b e m).regs = s.regs := rfl
@[simp] theorem startPow_ctrl (b e m : Nat) : (s.startPow b e m).ctrl = s.ctrl := rfl
@[simp] theorem startPow_cmd (b e m : Nat) : (s.startPow b e m).cmd = s.cmd := rfl
@[simp] theorem startPow_status (b e m : Nat) : (s.startPow b e m).status = s.status := rfl
@[simp] theorem startPow_phase (b e m : Nat) : (s.startPow b e m).phase = .mpLoop := rfl
@[simp] theorem startPow_hid (b e m : Nat) : (s.startPow b e m).hid = { s.hid with m := m, c := 1, b := b % m, e := e } := rfl
@[simp] theorem startPow_trace (b e m : Nat) : (s.startPow b e m).trace = s.trace := rfl
@[simp] theorem startPow_reads (b e m : Nat) : (s.startPow b e m).reads = s.reads := rfl
@[simp] theorem startPow_agenda (b e m : Nat) : (s.startPow b e m).agenda = s.agenda := rfl

@[simp] theorem startPow_br (b e m : Nat) (Y : BigReg) : (s.startPow b e m).br Y = s.br Y := rfl

@[simp] theorem startInverse_cfg (a n : Nat) (ret : Ret) : (s.startInverse a n ret).cfg = s.cfg := rfl
@[simp] theorem startInverse_regs (a n : Nat) (ret : Ret) : (s.startInverse a n ret).regs = s.regs := rfl
@[simp] theorem startInverse_ctrl (a n : Nat) (ret : Ret) : (s.startInverse a n ret).ctrl = s.ctrl := rfl
@[simp] theorem startInverse_cmd (a n : Nat) (ret : Ret) : (s.startInverse a n ret).cmd = s.cmd := rfl
@[simp] theorem startInverse_status (a n : Nat) (ret : Ret) : (s.startInverse a n ret).status = s.status := rfl
@[simp] theorem startInverse_phase (a n : Nat) (ret : Ret) : (s.startInverse a n ret).phase = .miLoop := rfl
@[simp] theorem startInverse_hid (a n : Nat) (ret : Ret) : (s.startInverse a n ret).hid = { s.hid with n := n, r := n, newr := a, t := 0, newt := 1, ret := ret } := rfl
@[simp] theorem startInverse_trace (a n : Nat) (ret : Ret) : (s.startInverse a n ret).trace = s.trace := rfl
@[simp] theorem startInverse_reads (a n : Nat) (ret : Ret) : (s.startInverse a n ret).reads = s.reads := rfl
@[simp] theorem startInverse_agenda (a n : Nat) (ret : Ret) : (s.startInverse a n ret).agenda = s.agenda := rfl

@[simp] theorem startInverse_br (a n : Nat) (ret : Ret) (Y : BigReg) : (s.startInverse a n ret).br Y = s.br Y := rfl

@[simp] theorem answerRead_cfg (off : Nat) : (s.answerRead off).cfg = s.cfg := rfl
@[simp] theorem answerRead_regs (off : Nat) : (s.answerRead off).regs = s.regs := rfl
@[simp] theorem answerRead_ctrl (off : Nat) : (s.answerRead off).ctrl = s.ctrl := rfl
@[simp] theorem answerRead_cmd (off : Nat) : (s.answerRead off).cmd = s.cmd := rfl
@[simp] theorem answerRead_status (off : Nat) : (s.answerRead off).status = s.status := rfl
@[simp] theorem answerRead_phase (off : Nat) : (s.answerRead off).phase = s.phase := rfl
@[simp] theorem answerRead_hid (off : Nat) : (s.answerRead off).hid = s.hid := rfl
@[simp] theorem answerRead_trace (off : Nat) : (s.answerRead off).trace = s.trace := rfl
@[simp] theorem answerRead_reads (off : Nat) : (s.answerRead off).reads = s.reads ++ [⟨off, s.memRead off⟩] := rfl
@[simp] theorem answerRead_agenda (off : Nat) : (s.answerRead off).agenda = s.agenda := rfl

@[simp] theorem answerRead_br (off : Nat) (Y : BigReg) : (s.answerRead off).br Y = s.br Y := rfl

@[simp] theorem applyReset_cfg : (s.applyReset).cfg = s.cfg := rfl
@[simp] theorem applyReset_regs : (s.applyReset).regs = ⟨0, 0, 0, 0, 0, 0, 0, 0, 0, 0, 0, 0⟩ := rfl
@[simp] theorem applyReset_ctrl : (s.applyReset).ctrl = ⟨false, false⟩ := rfl
@[simp] theorem applyReset_cmd : (s.applyReset).cmd = 0 := rfl
@[simp] theorem applyReset_status : (s.applyReset).status = ⟨false, false, false, false, false, false, false, 0⟩ := rfl
@[simp] theorem applyReset_phase : (s.applyReset).phase = .idle := rfl
@[simp] theorem applyReset_hid : (s.applyReset).hid = Hidden.reset := rfl
@[simp] theorem applyReset_trace : (s.applyReset).trace = s.trace := rfl
@[simp] theorem applyReset_reads : (s.applyReset).reads = s.reads := rfl
@[simp] theorem applyReset_agenda : (s.applyReset).agenda = s.agenda := rfl

@[simp] theorem setKeySlot_regs (p q e d n t : Nat) : (s.setKeySlot p q e d n t).regs =
    { s.regs with keyP := p, keyQ := q, keyE := e, keyD := d, keyN := n, keyT := t } := rfl

@[simp] theorem setKeySlot_br_keyP (p q e d n t : Nat) : (s.setKeySlot p q e d n t).br .keyP = p := rfl
@[simp] theorem setKeySlot_br_keyQ (p q e d n t : Nat) : (s.setKeySlot p q e d n t).br .keyQ = q := rfl
@[simp] theorem setKeySlot_br_keyE (p q e d n t : Nat) : (s.setKeySlot p q e d n t).br .keyE = e := rfl
@[simp] theorem setKeySlot_br_keyD (p q e d n t : Nat) : (s.setKeySlot p q e d n t).br .keyD = d := rfl
@[simp] theorem setKeySlot_br_keyN (p q e d n t : Nat) : (s.setKeySlot p q e d n t).br .keyN = n := rfl
@[simp] theorem setKeySlot_br_keyT (p q e d n t : Nat) : (s.setKeySlot p q e d n t).br .keyT = t := rfl

theorem setKeySlot_br_other (p q e d n t : Nat) (Y : BigReg) (h : Y.inKeySlot = false) :
    (s.setKeySlot p q e d n t).br Y = s.br Y := by
  cases Y <;> first | rfl | simp [BigReg.inKeySlot] at h

@[simp] theorem setBr_br_same (X : BigReg) (v : Nat) : (s.setBr X v).br X = v := by cases X <;> rfl

theorem setBr_br_other (X Y : BigReg) (v : Nat) (h : Y ≠ X) : (s.setBr X v).br Y = s.br Y := by
  cases X <;> cases Y <;> first | rfl | exact absurd rfl h

theorem setBr_br (X Y : BigReg) (v : Nat) : (s.setBr X v).br Y = if Y = X then v else s.br Y := by
  split
  · next h => subst h; simp
  · next h => exact s.setBr_br_other X Y v h

@[simp] theorem setBr_setBr (X : BigReg) (v w : Nat) : (s.setBr X v).setBr X w = s.setBr X w := by cases X <;> rfl

@[simp] theorem setBr_self (X : BigReg) : s.setBr X (s.br X) = s := by cases X <;> rfl

@[simp] theorem applyReset_br (Y : BigReg) : s.applyReset.br Y = 0 := by cases Y <;> rfl

@[simp] theorem with_agenda_br (a : List Action) (Y : BigReg) : ({ s with agenda := a } : State).br Y = s.br Y := rfl
@[simp] theorem with_hid_br (h : Hidden) (Y : BigReg) : ({ s with hid := h } : State).br Y = s.br Y := rfl

end Sys2Proof.Machine.State

namespace Sys2Proof.Machine.Status

variable (st : Status)

@[simp] theorem issued_busy : (st.issued).busy = true := rfl
@[simp] theorem issued_done : (st.issued).done = false := rfl
@[simp] theorem issued_err : (st.issued).err = false := rfl
@[simp] theorem issued_keyValid : (st.issued).keyValid = st.keyValid := rfl
@[simp] theorem issued_pubValid : (st.issued).pubValid = st.pubValid := rfl
@[simp] theorem issued_busyViol : (st.issued).busyViol = st.busyViol := rfl
@[simp] theorem issued_lockViol : (st.issued).lockViol = st.lockViol := rfl
@[simp] theorem issued_errcode : (st.issued).errcode = 0 := rfl

@[simp] theorem completed_busy : (st.completed).busy = false := rfl
@[simp] theorem completed_done : (st.completed).done = true := rfl
@[simp] theorem completed_err : (st.completed).err = st.err := rfl
@[simp] theorem completed_keyValid : (st.completed).keyValid = st.keyValid := rfl
@[simp] theorem completed_pubValid : (st.completed).pubValid = st.pubValid := rfl
@[simp] theorem completed_busyViol : (st.completed).busyViol = st.busyViol := rfl
@[simp] theorem completed_lockViol : (st.completed).lockViol = st.lockViol := rfl
@[simp] theorem completed_errcode : (st.completed).errcode = st.errcode := rfl

@[simp] theorem failed_busy (c : Byte) : (st.failed c).busy = false := rfl
@[simp] theorem failed_done (c : Byte) : (st.failed c).done = true := rfl
@[simp] theorem failed_err (c : Byte) : (st.failed c).err = true := rfl
@[simp] theorem failed_keyValid (c : Byte) : (st.failed c).keyValid = st.keyValid := rfl
@[simp] theorem failed_pubValid (c : Byte) : (st.failed c).pubValid = st.pubValid := rfl
@[simp] theorem failed_busyViol (c : Byte) : (st.failed c).busyViol = st.busyViol := rfl
@[simp] theorem failed_lockViol (c : Byte) : (st.failed c).lockViol = st.lockViol := rfl
@[simp] theorem failed_errcode (c : Byte) : (st.failed c).errcode = c := rfl

@[simp] theorem cleared_busy (v : Word) : (st.cleared v).busy = st.busy := rfl
@[simp] theorem cleared_done (v : Word) : (st.cleared v).done = (st.done && !v.getLsbD 1) := rfl
@[simp] theorem cleared_err (v : Word) : (st.cleared v).err = (st.err && !v.getLsbD 2) := rfl
@[simp] theorem cleared_keyValid (v : Word) : (st.cleared v).keyValid = st.keyValid := rfl
@[simp] theorem cleared_pubValid (v : Word) : (st.cleared v).pubValid = st.pubValid := rfl
@[simp] theorem cleared_busyViol (v : Word) : (st.cleared v).busyViol = (st.busyViol && !v.getLsbD 5) := rfl
@[simp] theorem cleared_lockViol (v : Word) : (st.cleared v).lockViol = (st.lockViol && !v.getLsbD 6) := rfl
@[simp] theorem cleared_errcode (v : Word) : (st.cleared v).errcode = if v.getLsbD 2 then 0 else st.errcode := rfl

end Sys2Proof.Machine.Status
end

