-- ==== Sys2Proof/Laws/Registers.lean ====
section
/-! SUPPORT. The words of a big register read back as they were written (00_scope.md R12; 20_memory.md R63, R65),
the register map's windows name what R70 says, and a word write keeps a register in range (10_state.md R21). -/

namespace Sys2Proof.Machine

theorem wordOf_toNat (v k : Nat) : (wordOf v k).toNat = v / 2 ^ (32 * k) % 2 ^ 32 := by
  simp [wordOf, BitVec.toNat_ofNat]

/-- The part of a register below word `k` and the part from word `k` on. -/
theorem replaceWord_div (v k : Nat) (w : Word) :
    replaceWord v k w / 2 ^ (32 * k) = w.toNat + 2 ^ 32 * (v / 2 ^ (32 * (k + 1))) := by
  have hp : 0 < 2 ^ (32 * k) := by positivity
  rw [replaceWord, Nat.add_mul_div_left _ _ hp, Nat.div_eq_of_lt (Nat.mod_lt _ hp), Nat.zero_add]

theorem replaceWord_mod (v k : Nat) (w : Word) : replaceWord v k w % 2 ^ (32 * k) = v % 2 ^ (32 * k) := by
  rw [replaceWord, Nat.add_mul_mod_self_left, Nat.mod_mod]

theorem wordOf_replaceWord_same (v k : Nat) (w : Word) : wordOf (replaceWord v k w) k = w := by
  apply BitVec.eq_of_toNat_eq
  rw [wordOf_toNat, replaceWord_div, Nat.add_mul_mod_self_left, Nat.mod_eq_of_lt w.isLt]

theorem wordOf_replaceWord_above (v k j : Nat) (w : Word) (h : k < j) : wordOf (replaceWord v k w) j = wordOf v j := by
  obtain ⟨d, rfl⟩ : ∃ d, j = k + 1 + d := ⟨j - (k + 1), by omega⟩
  have split : ∀ x : Nat, x / 2 ^ (32 * (k + 1 + d)) = x / 2 ^ (32 * k) / 2 ^ 32 / 2 ^ (32 * d) := fun x => by
    rw [Nat.div_div_eq_div_mul, Nat.div_div_eq_div_mul, ← pow_add, ← pow_add]; congr 2; ring
  have tail : v / 2 ^ (32 * k) / 2 ^ 32 = v / 2 ^ (32 * (k + 1)) := by
    rw [Nat.div_div_eq_div_mul, ← pow_add]; congr 2
  have drop : (w.toNat + 2 ^ 32 * (v / 2 ^ (32 * (k + 1)))) / 2 ^ 32 = v / 2 ^ (32 * (k + 1)) := by
    rw [Nat.add_mul_div_left _ _ (by positivity), Nat.div_eq_of_lt w.isLt, Nat.zero_add]
  apply BitVec.eq_of_toNat_eq
  rw [wordOf_toNat, wordOf_toNat, split, split, replaceWord_div, drop, tail]

theorem wordOf_replaceWord_below (v k j : Nat) (w : Word) (h : j < k) : wordOf (replaceWord v k w) j = wordOf v j := by
  obtain ⟨d, rfl⟩ : ∃ d, k = j + 1 + d := ⟨k - (j + 1), by omega⟩
  have part : ∀ x : Nat,
      x / 2 ^ (32 * j) % 2 ^ 32 = x % 2 ^ (32 * (j + 1 + d)) / 2 ^ (32 * j) % 2 ^ 32 := fun x => by
    have : 2 ^ (32 * (j + 1 + d)) = 2 ^ (32 * j) * (2 ^ 32 * 2 ^ (32 * d)) := by
      rw [← pow_add, ← pow_add]; congr 1; ring
    rw [this, Nat.mod_mul_right_div_self, Nat.mod_mul_right_mod]
  apply BitVec.eq_of_toNat_eq
  rw [wordOf_toNat, wordOf_toNat, part, replaceWord_mod, ← part]

theorem wordOf_replaceWord_other (v k j : Nat) (w : Word) (h : j ≠ k) : wordOf (replaceWord v k w) j = wordOf v j := by
  rcases Nat.lt_or_gt_of_ne h with h | h
  · exact wordOf_replaceWord_below v k j w h
  · exact wordOf_replaceWord_above v k j w h

theorem replaceWord_lt {v k n : Nat} (w : Word) (hk : k < n) (hv : v < 2 ^ (32 * n)) :
    replaceWord v k w < 2 ^ (32 * n) := by
  obtain ⟨d, rfl⟩ : ∃ d, n = k + 1 + d := ⟨n - (k + 1), by omega⟩
  have whole : 2 ^ (32 * (k + 1 + d)) = 2 ^ (32 * k) * (2 ^ 32 * 2 ^ (32 * d)) := by
    rw [← pow_add, ← pow_add]; congr 1; ring
  have hp : 0 < 2 ^ (32 * k) := by positivity
  have top : v / 2 ^ (32 * (k + 1)) < 2 ^ (32 * d) := by
    rw [Nat.div_lt_iff_lt_mul (by positivity), ← pow_add]
    exact lt_of_lt_of_eq hv (by congr 1; ring)
  have mid : w.toNat + 2 ^ 32 * (v / 2 ^ (32 * (k + 1))) < 2 ^ 32 * 2 ^ (32 * d) := by
    have := w.isLt
    nlinarith [Nat.succ_le_of_lt top]
  rw [whole, Nat.mul_comm, ← Nat.div_lt_iff_lt_mul hp, replaceWord_div]
  exact mid

/-- The width of a big register in words (00_scope.md R7). -/
theorem nw_eq_words {cfg : Config} (h : cfg.Ok) : cfg.nw = 32 * cfg.nwords := by
  obtain ⟨_, _, _⟩ := h; unfold Config.nwords; omega

theorem nwords_le_128 {cfg : Config} (h : cfg.Ok) : cfg.nwords ≤ 128 := by
  obtain ⟨_, _, _⟩ := h; unfold Config.nwords; omega

theorem bound_eq_words {cfg : Config} (h : cfg.Ok) : cfg.bound = 2 ^ (32 * cfg.nwords) := by
  unfold Config.bound; rw [← nw_eq_words h]

theorem two_pow_64_le_bound {cfg : Config} (h : cfg.Ok) : 2 ^ 64 ≤ cfg.bound :=
  Nat.pow_le_pow_right (by decide) h.1

/-- The windows are 0x200 bytes apart (20_memory.md R70). -/
theorem base_eq (X : BigReg) : ∃ i, X.base = 512 * i ∧ 1 ≤ i ∧ i ≤ 12 :=
  ⟨X.base / 512, by cases X <;> decide⟩

theorem base_injective {X Y : BigReg} (h : X.base = Y.base) : X = Y := by
  cases X <;> cases Y <;> first | rfl | exact absurd h (by decide)

/-- A window word lies in the window of no other register. -/
theorem inWindow_window {cfg : Config} (h : cfg.Ok) (X Y : BigReg) {k : Nat} (hk : k < cfg.nwords) :
    inWindow cfg (X.base + 4 * k) Y = decide (Y = X) := by
  have hn := nwords_le_128 h
  unfold inWindow
  by_cases hXY : Y = X
  · subst hXY
    simp [hk]
  · obtain ⟨i, hi, -, -⟩ := base_eq X
    obtain ⟨j, hj, -, -⟩ := base_eq Y
    have hij : j ≠ i := fun e => hXY (base_injective (by rw [hi, hj, e]))
    rw [hi, hj]
    simp only [hXY, decide_false, decide_eq_false_iff_not, not_and]
    intro hle hlt
    generalize cfg.nwords = n at hk hn hlt
    omega

/-- Each window word names its register and index (20_memory.md R64 case 6, R70). -/
theorem locate_window {cfg : Config} (h : cfg.Ok) (X : BigReg) {k : Nat} (hk : k < cfg.nwords) :
    locate cfg (X.base + 4 * k) = .big X k := by
  obtain ⟨i, hi, hi1, -⟩ := base_eq X
  have hf : inWindow cfg (X.base + 4 * k) = fun Y => decide (Y = X) := funext fun Y => inWindow_window h X Y hk
  have hk4 : (X.base + 4 * k - X.base) / 4 = k := by omega
  have hfind : BigReg.all.find? (fun Y => decide (Y = X)) = some X := by cases X <;> rfl
  unfold locate
  rw [if_neg (by omega), if_neg (by omega), if_neg (by unfold ctrlOff; omega), if_neg (by unfold cmdOff; omega),
    if_neg (by unfold statusOff; omega), hf, hfind]
  simp only [hk4]

/-- What a window offset can be (20_memory.md R64 case 6). -/
theorem locate_big {cfg : Config} {off : Nat} {X : BigReg} {k : Nat} (h : locate cfg off = .big X k) :
    X.base ≤ off ∧ k = (off - X.base) / 4 ∧ k < cfg.nwords := by
  unfold locate at h
  split at h <;> try contradiction
  split at h <;> try contradiction
  split at h <;> try contradiction
  split at h <;> try contradiction
  split at h <;> try contradiction
  split at h
  · next Y hY =>
    have := List.find?_some hY
    simp only [inWindow, decide_eq_true_eq] at this
    cases h
    exact ⟨this.1, rfl, this.2⟩
  · contradiction

@[simp] theorem locate_id (cfg : Config) : locate cfg 0x0000 = .id := rfl
@[simp] theorem locate_config (cfg : Config) : locate cfg 0x0004 = .config := rfl
@[simp] theorem locate_ctrl (cfg : Config) : locate cfg ctrlOff = .ctrl := rfl
@[simp] theorem locate_cmd (cfg : Config) : locate cfg cmdOff = .cmd := rfl
@[simp] theorem locate_status (cfg : Config) : locate cfg statusOff = .status := rfl

/-- Only the offset of `CMD` names `CMD`. -/
theorem locate_eq_cmd {cfg : Config} {off : Nat} (h : locate cfg off = .cmd) : off = cmdOff := by
  unfold locate at h
  repeat' split at h
  all_goals first | assumption | contradiction

/-- Only the offset of `STATUS` names `STATUS`. -/
theorem locate_eq_status {cfg : Config} {off : Nat} (h : locate cfg off = .status) : off = statusOff := by
  unfold locate at h
  repeat' split at h
  all_goals first | assumption | contradiction

end Sys2Proof.Machine
end

