-- ==== Sys2Proof/Laws/Exec.lean ====
section
/-! SUPPORT. What each meaning, each engine step and each move can do, said once: if it answers `next t`, then one of
these cases holds. Later proofs cite these lemmas and do not unfold the meanings. -/

namespace Sys2Proof.Machine

variable {s t : State}

/-- A write of the register space (20_memory.md R65), case by case. -/
theorem memWrite_cases (s : State) (off : Nat) (v : Word) :
    s.memWrite off v = s ∨
    (locate s.cfg off = .ctrl ∧ s.memWrite off v = { s with ctrl := ctrlOf v }) ∨
    (locate s.cfg off = .cmd ∧ s.status.busy = true ∧ s.memWrite off v = s.noteBusyViol) ∨
    (locate s.cfg off = .cmd ∧ s.status.busy = false ∧ s.memWrite off v = s.issue v) ∨
    (locate s.cfg off = .status ∧ s.memWrite off v = s.acknowledge v) ∨
    (∃ X k, locate s.cfg off = .big X k ∧ s.status.busy = true ∧ s.memWrite off v = s.noteBusyViol) ∨
    (∃ X k, locate s.cfg off = .big X k ∧ s.status.busy = false ∧ s.writable X = true ∧
      s.memWrite off v = s.setBr X (replaceWord (s.br X) k v)) ∨
    (∃ X k, locate s.cfg off = .big X k ∧ s.status.busy = false ∧ s.writable X = false ∧
      s.memWrite off v = s.noteLockViol) := by
  unfold State.memWrite
  cases hl : locate s.cfg off with
  | id => simp
  | config => simp
  | ctrl => simp
  | cmd => cases hb : s.status.busy <;> simp
  | status => simp
  | big X k => cases hb : s.status.busy <;> cases hw : s.writable X <;> simp [hw]
  | unmapped => simp

theorem hostStep_cases {op : HostOp} (h : s.hostStep op = .next t) :
    (∃ off, op = .read off 4 ∧ expressible off 4 = true ∧ t = s.answerRead off) ∨
    (∃ off v, op = .write off 4 v ∧ expressible off 4 = true ∧ t = s.memWrite off v) := by
  cases op with
  | read off size =>
    simp only [State.hostStep] at h
    split at h
    · next he =>
      have : size = 4 := by simp only [expressible, decide_eq_true_eq] at he; exact he.1
      subst this
      cases h
      exact .inl ⟨off, rfl, he, rfl⟩
    · cases h
  | write off size v =>
    simp only [State.hostStep] at h
    split at h
    · next he =>
      have : size = 4 := by simp only [expressible, decide_eq_true_eq] at he; exact he.1
      subst this
      cases h
      exact .inr ⟨off, v, rfl, he, rfl⟩
    · cases h

theorem deliverResult_cases {v : Nat} (h : s.deliverResult v = .next t) :
    v < s.cfg.bound ∧ t = (s.setBr .res v).finish := by
  unfold State.deliverResult at h
  split at h
  · cases h; exact ⟨‹_›, rfl⟩
  · cases h

theorem commitKey_cases {d : Nat} (h : s.commitKey d = .next t) :
    (s.hid.p < s.cfg.bound ∧ s.hid.q < s.cfg.bound ∧ Config.eConst < s.cfg.bound ∧ d < s.cfg.bound ∧
      s.hid.nmod < s.cfg.bound ∧ s.hid.tot < s.cfg.bound) ∧
    t = ((s.setKeySlot s.hid.p s.hid.q Config.eConst d s.hid.nmod s.hid.tot).setKeyValid true).finish := by
  unfold State.commitKey at h
  split at h
  · cases h; exact ⟨‹_›, rfl⟩
  · cases h

theorem execModpow_cases (h : execModpow s = .next t) :
    (s.br .opm = 0 ∧ t = s.raiseErr .range) ∨
    (s.br .opm ≠ 0 ∧ t = s.startPow (s.br .opa) (s.br .opb) (s.br .opm)) := by
  unfold execModpow at h
  split at h <;> cases h
  · exact .inl ⟨‹_›, rfl⟩
  · exact .inr ⟨‹_›, rfl⟩

theorem execModinv_cases (h : execModinv s = .next t) :
    (s.br .opm = 0 ∧ t = s.raiseErr .range) ∨
    (s.br .opm ≠ 0 ∧ t = s.startInverse (s.br .opa) (s.br .opm) .toRes) := by
  unfold execModinv at h
  split at h <;> cases h
  · exact .inl ⟨‹_›, rfl⟩
  · exact .inr ⟨‹_›, rfl⟩

theorem execGenkey_cases {w : Nat} (h : execGenkey w s = .next t) :
    ((w < Config.minW ∨ s.cfg.maxW < w) ∧ t = s.raiseErr .width) ∨
    (s.status.keyValid = true ∧ t = s.raiseErr .keyLocked) ∨
    (Config.minW ≤ w ∧ w ≤ s.cfg.maxW ∧ s.status.keyValid = false ∧
      t = { s with hid := { s.hid with w := w, which := .p }, phase := .kgDraw }) := by
  unfold execGenkey at h
  split at h
  · cases h; exact .inl ⟨‹_›, rfl⟩
  · next hw =>
    split at h
    · cases h; exact .inr (.inl ⟨‹_›, rfl⟩)
    · next hk =>
      cases h
      rw [not_or, Nat.not_lt, Nat.not_lt] at hw
      exact .inr (.inr ⟨hw.1, hw.2, by simpa using hk, rfl⟩)

theorem execDerive_cases (h : execDerive s = .next t) :
    (s.status.keyValid = true ∧ t = s.raiseErr .keyLocked) ∨
    ((s.br .opa < 2 ∨ s.br .opb < 2 ∨ s.br .opa = s.br .opb ∨ s.cfg.bound ≤ s.br .opa * s.br .opb) ∧
      t = s.raiseErr .range) ∨
    (s.status.keyValid = false ∧ 2 ≤ s.br .opa ∧ 2 ≤ s.br .opb ∧ s.br .opa ≠ s.br .opb ∧
      s.br .opa * s.br .opb < s.cfg.bound ∧
      t = { s with hid := { s.hid with p := s.br .opa, q := s.br .opb }, phase := .kgDerive }) := by
  unfold execDerive at h
  split at h
  · cases h; exact .inl ⟨‹_›, rfl⟩
  · next hk =>
    split at h
    · cases h; exact .inr (.inl ⟨‹_›, rfl⟩)
    · next hr =>
      cases h
      simp only [not_or, Nat.not_lt, Nat.not_le] at hr
      exact .inr (.inr ⟨by simpa using hk, hr.1, hr.2.1, hr.2.2.1, hr.2.2.2, rfl⟩)

theorem execLoadkey_cases (h : execLoadkey s = .next t) :
    (s.status.keyValid = true ∧ t = s.raiseErr .keyLocked) ∨
    (s.status.keyValid = false ∧ t = (s.setKeyValid true).finish) := by
  unfold execLoadkey at h
  split at h
  · cases h; exact .inl ⟨‹_›, rfl⟩
  · next hk => cases h; exact .inr ⟨by simpa using hk, rfl⟩

theorem execProject_cases (h : execProject s = .next t) :
    (s.status.keyValid = false ∧ t = s.raiseErr .noKey) ∨
    (s.status.pubValid = true ∧ t = s.raiseErr .keyLocked) ∨
    (s.status.keyValid = true ∧ s.status.pubValid = false ∧
      t = (((s.setBr .pubE (s.br .keyE)).setBr .pubN (s.br .keyN)).setPubValid true).finish) := by
  unfold execProject at h
  split at h
  · next hk => cases h; exact .inl ⟨by simpa using hk, rfl⟩
  · next hk =>
    split at h <;> cases h
    · exact .inr (.inl ⟨‹_›, rfl⟩)
    · exact .inr (.inr ⟨by simpa using hk, by simpa using ‹¬ s.status.pubValid = true›, rfl⟩)

theorem execEncrypt_cases (h : execEncrypt s = .next t) :
    (s.status.pubValid = false ∧ t = s.raiseErr .noKey) ∨
    (s.br .pubN ≤ s.br .opa ∧ t = s.raiseErr .blockTooLarge) ∨
    (s.status.pubValid = true ∧ s.br .opa < s.br .pubN ∧
      t = s.startPow (s.br .opa) (s.br .pubE) (s.br .pubN)) := by
  unfold execEncrypt at h
  split at h
  · next hk => cases h; exact .inl ⟨by simpa using hk, rfl⟩
  · next hk =>
    split at h <;> cases h
    · exact .inr (.inl ⟨‹_›, rfl⟩)
    · exact .inr (.inr ⟨by simpa using hk, Nat.not_le.mp ‹_›, rfl⟩)

theorem execDecrypt_cases (h : execDecrypt s = .next t) :
    (s.status.keyValid = false ∧ t = s.raiseErr .noKey) ∨
    (s.br .keyN = 0 ∧ t = s.raiseErr .range) ∨
    (s.status.keyValid = true ∧ s.br .keyN ≠ 0 ∧
      t = s.startPow (s.br .opa) (s.br .keyD) (s.br .keyN)) := by
  unfold execDecrypt at h
  split at h
  · next hk => cases h; exact .inl ⟨by simpa using hk, rfl⟩
  · next hk =>
    split at h <;> cases h
    · exact .inr (.inl ⟨‹_›, rfl⟩)
    · exact .inr (.inr ⟨by simpa using hk, ‹_›, rfl⟩)

/-- Every meaning answers a next state: no command stops the machine. -/
theorem exec_next (i : Instr) (s : State) : ∃ t, exec i s = .next t := by
  cases i <;>
    simp only [exec, execNop, execModpow, execModinv, execGenkey, execDerive, execLoadkey, execProject, execEncrypt,
      execDecrypt, execClrkey, execClrpub, execSign, execVerify] <;>
    (repeat' split) <;> exact ⟨_, rfl⟩

theorem mpLoopStep_cases (h : mpLoopStep s = .next t) :
    (s.hid.e = 0 ∧ s.hid.c < s.cfg.bound ∧ t = (s.setBr .res s.hid.c).finish) ∨
    (s.hid.e ≠ 0 ∧ s.hid.m ≠ 0 ∧ t = { s with hid := s.hid.powRound }) := by
  unfold mpLoopStep at h
  split at h
  · have := deliverResult_cases h
    exact .inl ⟨‹_›, this.1, this.2⟩
  · split at h <;> cases h
    exact .inr ⟨‹_›, ‹_›, rfl⟩

theorem miLoopStep_cases (h : miLoopStep s = .next t) :
    (s.hid.newr ≠ 0 ∧ t = { s with hid := s.hid.euclidRound }) ∨
    (s.hid.newr = 0 ∧ 1 < s.hid.r ∧ t = s.raiseErr .notInvertible) ∨
    (s.hid.newr = 0 ∧ s.hid.r ≤ 1 ∧ 0 ≤ normalizedInverse s.hid.t s.hid.n ∧ s.hid.ret = .toRes ∧
      s.deliverResult (normalizedInverse s.hid.t s.hid.n).toNat = .next t) ∨
    (s.hid.newr = 0 ∧ s.hid.r ≤ 1 ∧ 0 ≤ normalizedInverse s.hid.t s.hid.n ∧ s.hid.ret = .toKey ∧
      s.commitKey (normalizedInverse s.hid.t s.hid.n).toNat = .next t) := by
  unfold miLoopStep at h
  split at h
  · next h0 =>
    unfold miFinalStep at h
    split at h
    · cases h; exact .inr (.inl ⟨h0, ‹_›, rfl⟩)
    · next hr =>
      simp only at h
      split at h
      · cases h
      · next hv =>
        cases hret : s.hid.ret with
        | toRes => rw [hret] at h; exact .inr (.inr (.inl ⟨h0, by omega, by omega, rfl, h⟩))
        | toKey => rw [hret] at h; exact .inr (.inr (.inr ⟨h0, by omega, by omega, rfl, h⟩))
  · cases h; exact .inl ⟨‹_›, rfl⟩

theorem kgDeriveStep_cases (h : kgDeriveStep s = .next t) :
    s.hid.p ≠ 0 ∧ s.hid.q ≠ 0 ∧
    t = State.startInverse
      { s with hid := { s.hid with nmod := s.hid.p * s.hid.q, tot := (s.hid.p - 1) * (s.hid.q - 1) } }
      Config.eConst ((s.hid.p - 1) * (s.hid.q - 1)) .toKey := by
  unfold kgDeriveStep at h
  split at h <;> cases h
  next hpq =>
    rw [not_or] at hpq
    exact ⟨hpq.1, hpq.2, rfl⟩

theorem rngReplyStep_cases {rnd : Nat} (h : rngReplyStep s rnd = .next t) :
    s.phase = .kgRngWait ∧ rnd < s.cfg.bound ∧ s.hid.w ≠ 0 ∧
    t = { s.emit (.rngReply rnd) with hid := { s.hid with cand := candidateOf s.hid.w rnd }, phase := .kgTest } := by
  unfold rngReplyStep at h
  repeat' split at h
  all_goals cases h
  exact ⟨by simpa using ‹¬ s.phase ≠ _›, Nat.not_le.mp ‹_›, ‹_›, rfl⟩

theorem primeReplyStep_cases {verdict : Bool} (h : primeReplyStep s verdict = .next t) :
    s.phase = .kgPtWait ∧
    ((s.hid.accepts verdict = true ∧ s.hid.which = .p ∧
        t = { s.emit (.primeReply verdict) with hid := { s.hid with p := s.hid.cand, which := .q }, phase := .kgDraw }) ∨
      (s.hid.accepts verdict = true ∧ s.hid.which = .q ∧
        t = { s.emit (.primeReply verdict) with hid := { s.hid with q := s.hid.cand }, phase := .kgDerive }) ∨
      (s.hid.accepts verdict = false ∧ t = { s.emit (.primeReply verdict) with phase := .kgDraw })) := by
  unfold primeReplyStep at h
  split at h
  · cases h
  · next hp =>
    refine ⟨by simpa using hp, ?_⟩
    simp only at h
    split at h
    · next ha =>
      split at h
      · next hw => cases h; exact .inl ⟨ha, hw, rfl⟩
      · next hw => cases h; exact .inr (.inl ⟨ha, hw, rfl⟩)
    · next ha => cases h; exact .inr (.inr ⟨by simpa using ha, rfl⟩)

/-- What an engine step can be, by phase (30_encoding.md R108). -/
theorem engineStep_cases (h : engineStep s = .next t) :
    (s.phase = .check ∧ ∃ i, decode s.cmd = .instr i ∧ exec i s = .next t) ∨
    (s.phase = .check ∧ ∃ r, decode s.cmd = .illegal r ∧ t = s.raiseErr .illegalCmd) ∨
    (s.phase = .mpLoop ∧ mpLoopStep s = .next t) ∨
    (s.phase = .miLoop ∧ miLoopStep s = .next t) ∨
    (s.phase = .kgDraw ∧ t = { s.emit (.rngRequest s.hid.w) with phase := .kgRngWait }) ∨
    (s.phase = .kgTest ∧ t = { s.emit (.primeRequest s.hid.cand Config.ptRounds) with phase := .kgPtWait }) ∨
    (s.phase = .kgDerive ∧ kgDeriveStep s = .next t) := by
  unfold engineStep at h
  cases hp : s.phase <;> rw [hp] at h <;> simp only at h
  all_goals first | cases h; done | skip
  · unfold checkStep at h
    cases hd : decode s.cmd with
    | instr i => rw [hd] at h; exact .inl ⟨rfl, i, rfl, h⟩
    | illegal r => rw [hd] at h; cases h; exact .inr (.inl ⟨rfl, r, rfl, rfl⟩)
  · exact .inr (.inr (.inl ⟨rfl, h⟩))
  · exact .inr (.inr (.inr (.inl ⟨rfl, h⟩)))
  · cases h; exact .inr (.inr (.inr (.inr (.inl ⟨rfl, rfl⟩))))
  · cases h; exact .inr (.inr (.inr (.inr (.inr (.inl ⟨rfl, rfl⟩)))))
  · exact .inr (.inr (.inr (.inr (.inr (.inr ⟨rfl, h⟩)))))

/-- Whose move a step was (20_memory.md R80): the engine's, the host's, a poll, a reply, a reset, or a wait. -/
theorem step_cases (h : step s = .next t) :
    (∃ a, engineStep { s with agenda := a } = .next t) ∨
    (∃ op rest, s.agenda = .host op :: rest ∧ State.hostStep { s with agenda := rest } op = .next t) ∨
    (∃ rest, s.agenda = .poll :: rest ∧ t = pollStep s rest) ∨
    (∃ rnd a, rngReplyStep { s with agenda := a } rnd = .next t) ∨
    (∃ v a, primeReplyStep { s with agenda := a } v = .next t) ∨
    (∃ rest, s.agenda = .reset :: rest ∧ t = State.applyReset { s with agenda := rest }) ∨
    (s.phase.engineEnabled = false ∧ ∃ a, t = { s with agenda := a }) := by
  unfold step takeTurn at h
  split at h
  · unfold engineOrWait at h
    split at h
    · exact .inl ⟨s.agenda, h⟩
    · next he => cases h; exact .inr (.inr (.inr (.inr (.inr (.inr ⟨by simpa using he, s.agenda, rfl⟩)))))
  · next op rest ha => exact .inr (.inl ⟨op, rest, ha, h⟩)
  · next rest ha => exact .inl ⟨rest, h⟩
  · next rnd rest ha => exact .inr (.inr (.inr (.inl ⟨rnd, rest, h⟩)))
  · next v rest ha => exact .inr (.inr (.inr (.inr (.inl ⟨v, rest, h⟩))))
  · next rest ha => cases h; exact .inr (.inr (.inr (.inr (.inr (.inl ⟨rest, ha, rfl⟩)))))
  · next rest ha =>
    split at h
    · exact .inl ⟨s.agenda, h⟩
    · next he => cases h; exact .inr (.inr (.inr (.inr (.inr (.inr ⟨by simpa using he, rest, rfl⟩)))))
  · next rest ha => cases h; exact .inr (.inr (.inl ⟨rest, ha, rfl⟩))
  · next rnd v rest ha =>
    unfold serveStep at h
    split at h
    · exact .inl ⟨s.agenda, h⟩
    next he =>
    split at h
    · exact .inr (.inr (.inr (.inl ⟨rnd, s.agenda, h⟩)))
    split at h
    · exact .inr (.inr (.inr (.inr (.inl ⟨v, s.agenda, h⟩))))
    · cases h; exact .inr (.inr (.inr (.inr (.inr (.inr ⟨by simpa using he, rest, rfl⟩)))))

/-- A poll changes only the answers and the agenda. -/
theorem pollStep_frame (s : State) (rest : List Action) :
    ∃ a, pollStep s rest = { s.answerRead statusOff with agenda := a } := ⟨_, rfl⟩

end Sys2Proof.Machine
end

