-- ==== Sys2Proof/Laws/Frames.lean ====
section
/-! SUPPORT. What no engine step changes, and that host writes keep every register in range (10_state.md R21, R32,
R37; 20_memory.md R82). -/

namespace Sys2Proof.Machine

variable {s t : State}

/-- A state with the registers and the parameter of another is in range with it. -/
theorem regsInRange_of_same (h : s.RegsInRange) (hr : t.regs = s.regs) (hc : t.cfg = s.cfg) : t.RegsInRange := by
  intro X; have := h X; unfold State.br at *; rw [hr, hc]; exact this

theorem setBr_regsInRange (h : s.RegsInRange) (X : BigReg) {v : Nat} (hv : v < s.cfg.bound) : (s.setBr X v).RegsInRange := by
  intro Y; rw [State.setBr_br]; split
  · exact hv
  · exact h Y

theorem memWrite_regsInRange (hc : s.cfg.Ok) (h : s.RegsInRange) (off : Nat) (v : Word) :
    (s.memWrite off v).RegsInRange := by
  rcases memWrite_cases s off v with e | ⟨-, e⟩ | ⟨-, -, e⟩ | ⟨-, -, e⟩ | ⟨-, e⟩ | ⟨X, k, -, -, e⟩ |
    ⟨X, k, hl, -, -, e⟩ | ⟨X, k, -, -, -, e⟩ <;> rw [e]
  case inr.inr.inr.inr.inr.inr.inl =>
    refine setBr_regsInRange h X ?_
    rw [bound_eq_words hc]
    exact replaceWord_lt v (locate_big hl).2.2 (bound_eq_words hc ▸ h X)
  all_goals exact regsInRange_of_same h rfl rfl

/-- A `CHECK` part leaves the parameter, `CTRL`, `CMD`, the violation flags, the trace, the answers and the agenda. -/
theorem exec_frame {i : Instr} (h : exec i s = .next t) :
    t.cfg = s.cfg ∧ t.ctrl = s.ctrl ∧ t.cmd = s.cmd ∧ t.trace = s.trace ∧ t.reads = s.reads ∧ t.agenda = s.agenda ∧
      t.status.busyViol = s.status.busyViol ∧ t.status.lockViol = s.status.lockViol := by
  cases i <;> simp only [exec] at h
  case modpow => rcases execModpow_cases h with ⟨-, rfl⟩ | ⟨-, rfl⟩ <;> simp
  case modinv => rcases execModinv_cases h with ⟨-, rfl⟩ | ⟨-, rfl⟩ <;> simp
  case genkey => rcases execGenkey_cases h with ⟨-, rfl⟩ | ⟨-, rfl⟩ | ⟨-, -, -, rfl⟩ <;> simp
  case derive => rcases execDerive_cases h with ⟨-, rfl⟩ | ⟨-, rfl⟩ | ⟨-, -, -, -, -, rfl⟩ <;> simp
  case loadkey => rcases execLoadkey_cases h with ⟨-, rfl⟩ | ⟨-, rfl⟩ <;> simp
  case project => rcases execProject_cases h with ⟨-, rfl⟩ | ⟨-, rfl⟩ | ⟨-, -, rfl⟩ <;> simp
  case encrypt => rcases execEncrypt_cases h with ⟨-, rfl⟩ | ⟨-, rfl⟩ | ⟨-, -, rfl⟩ <;> simp
  case decrypt => rcases execDecrypt_cases h with ⟨-, rfl⟩ | ⟨-, rfl⟩ | ⟨-, -, rfl⟩ <;> simp
  all_goals cases h; exact ⟨rfl, rfl, rfl, rfl, rfl, rfl, rfl, rfl⟩

/-- The same of every engine step, but for the one event of a request. -/
theorem engineStep_frame (h : engineStep s = .next t) :
    t.cfg = s.cfg ∧ t.ctrl = s.ctrl ∧ t.cmd = s.cmd ∧ t.reads = s.reads ∧ t.agenda = s.agenda ∧
      t.status.busyViol = s.status.busyViol ∧ t.status.lockViol = s.status.lockViol ∧
      (t.trace = s.trace ∨ ∃ ev, t.trace = s.trace ++ [ev] ∧ (s.phase = .kgDraw ∨ s.phase = .kgTest)) := by
  rcases engineStep_cases h with ⟨-, i, -, h⟩ | ⟨-, r, -, rfl⟩ | ⟨-, h⟩ | ⟨-, h⟩ | ⟨hp, rfl⟩ | ⟨hp, rfl⟩ | ⟨-, h⟩
  · obtain ⟨h1, h2, h3, h4, h5, h6, h7, h8⟩ := exec_frame h
    exact ⟨h1, h2, h3, h5, h6, h7, h8, .inl h4⟩
  · exact ⟨rfl, rfl, rfl, rfl, rfl, rfl, rfl, .inl rfl⟩
  · rcases mpLoopStep_cases h with ⟨-, -, rfl⟩ | ⟨-, -, rfl⟩ <;> exact ⟨rfl, rfl, rfl, rfl, rfl, rfl, rfl, .inl rfl⟩
  · rcases miLoopStep_cases h with ⟨-, rfl⟩ | ⟨-, -, rfl⟩ | ⟨-, -, -, -, h⟩ | ⟨-, -, -, -, h⟩
    · exact ⟨rfl, rfl, rfl, rfl, rfl, rfl, rfl, .inl rfl⟩
    · exact ⟨rfl, rfl, rfl, rfl, rfl, rfl, rfl, .inl rfl⟩
    · obtain ⟨-, rfl⟩ := deliverResult_cases h; exact ⟨rfl, rfl, rfl, rfl, rfl, rfl, rfl, .inl rfl⟩
    · obtain ⟨-, rfl⟩ := commitKey_cases h; exact ⟨rfl, rfl, rfl, rfl, rfl, rfl, rfl, .inl rfl⟩
  · exact ⟨rfl, rfl, rfl, rfl, rfl, rfl, rfl, .inr ⟨_, rfl, .inl hp⟩⟩
  · exact ⟨rfl, rfl, rfl, rfl, rfl, rfl, rfl, .inr ⟨_, rfl, .inr hp⟩⟩
  · obtain ⟨-, -, rfl⟩ := kgDeriveStep_cases h; exact ⟨rfl, rfl, rfl, rfl, rfl, rfl, rfl, .inl rfl⟩

end Sys2Proof.Machine
end

