-- ==== Sys2Proof/Laws/PerInstr.lean ====
section
/-! SUPPORT. One fact per command: the fields of its word (30_encoding.md R100, R105). -/

namespace Sys2Proof.Laws.EncodeFields

/-- The word of a well-formed command has `RSV` zero, its argument in `ARG` and its code in `OPCODE`. -/
def Statement (i : Instr) : Prop :=
  i.wellFormed = true →
    (rsvOf (encode i)).toNat = 0 ∧ (argOf (encode i)).toNat = i.arg ∧ (opcodeOf (encode i)).toNat = i.opcode

theorem nop : Statement .nop := fun _ => ⟨rfl, rfl, rfl⟩
theorem modpow : Statement .modpow := fun _ => ⟨rfl, rfl, rfl⟩
theorem modinv : Statement .modinv := fun _ => ⟨rfl, rfl, rfl⟩

theorem genkey (w : Nat) : Statement (.genkey w) := by
  intro h
  simp only [Instr.wellFormed, decide_eq_true_eq] at h
  simp [rsvOf, argOf, opcodeOf, encode, Instr.opcode, Instr.arg, Nat.shiftRight_eq_div_pow]
  omega

theorem derive : Statement .derive := fun _ => ⟨rfl, rfl, rfl⟩
theorem loadkey : Statement .loadkey := fun _ => ⟨rfl, rfl, rfl⟩
theorem project : Statement .project := fun _ => ⟨rfl, rfl, rfl⟩
theorem encrypt : Statement .encrypt := fun _ => ⟨rfl, rfl, rfl⟩
theorem decrypt : Statement .decrypt := fun _ => ⟨rfl, rfl, rfl⟩
theorem clrkey : Statement .clrkey := fun _ => ⟨rfl, rfl, rfl⟩
theorem clrpub : Statement .clrpub := fun _ => ⟨rfl, rfl, rfl⟩
theorem sign : Statement .sign := fun _ => ⟨rfl, rfl, rfl⟩
theorem verify : Statement .verify := fun _ => ⟨rfl, rfl, rfl⟩

end Sys2Proof.Laws.EncodeFields
end

