-- ==== Sys2Proof/Laws/Run.lean ====
section
/-! SUPPORT. Runs of several steps, infinite runs, and the step when the agenda is empty. -/

namespace Sys2Proof.Machine

variable {s t : State}

/-- The model's runs are those of the host's interface. -/
theorem run_eq_core_run (k : Nat) (s : State) : run k s = Host.Core.run Sys2Proof.core k s := by
  induction k generalizing s with
  | zero => rfl
  | succ k ih =>
    cases h : step s with
    | next t =>
      have hc : Sys2Proof.core.step s = .next t := h
      simp only [run, h, ih]
      exact (Host.Core.run.eq_2 Sys2Proof.core s k ▸ by rw [hc])
    | fault r =>
      have hc : Sys2Proof.core.step s = .fault r := h
      simp only [run, h]
      exact (Host.Core.run.eq_2 Sys2Proof.core s k ▸ by rw [hc]; rfl)
    | refused r =>
      have hc : Sys2Proof.core.step s = .refused r := h
      simp only [run, h]
      exact (Host.Core.run.eq_2 Sys2Proof.core s k ▸ by rw [hc]; rfl)

theorem run_succ (k : Nat) (h : step s = .next t) : run (k + 1) s = run k t := by simp [run, h]

theorem run_one (s : State) : run 1 s = step s := by
  unfold run; cases h : step s <;> simp [run]

/-- A run of `j + k` steps whose first `j` steps end in `t`. -/
theorem run_add {j : Nat} (k : Nat) (h : run j s = .next t) : run (j + k) s = run k t := by
  induction j generalizing s with
  | zero => simp only [run] at h; cases h; simp
  | succ j ih =>
    rw [Nat.succ_add]
    simp only [run] at h ⊢
    cases hs : step s with
    | next u => rw [hs] at h; exact ih h
    | fault r => rw [hs] at h; cases h
    | refused r => rw [hs] at h; cases h

/-- With an empty agenda the engine moves whenever it can (20_memory.md R80, R90). -/
theorem step_of_agenda_nil (ha : s.agenda = []) (hp : s.phase.engineEnabled = true) : step s = engineStep s := by
  simp [step, takeTurn, ha, engineOrWait, hp]

/-- With an empty agenda a machine whose engine has no step waits (20_memory.md R85). -/
theorem step_wait (ha : s.agenda = []) (hp : s.phase.engineEnabled = false) : step s = .next s := by
  simp [step, takeTurn, ha, engineOrWait, hp]

variable {schedule : Nat → Option Action} {states : Nat → State}

/-- What every step keeps, whatever the agenda, holds at every instant of an infinite run. -/
theorem Execution.keeps {P : State → Prop} (h : Execution schedule states) (hagenda : ∀ s a, P s → P { s with agenda := a })
    (hstep : ∀ s t, P s → step s = .next t → P t) (h₀ : P (states 0)) (k : Nat) : P (states k) := by
  induction k with
  | zero => exact h₀
  | succ k ih =>
    cases hs : schedule k with
    | none => rw [h.pauses k hs]; exact ih
    | some a => exact hstep _ _ (hagenda _ [a] ih) (h.moves k a hs)

/-- Where the schedule gives the engine's move, the next state is the engine step's. -/
theorem Execution.engineStep_eq (h : Execution schedule states) {k : Nat} (hs : schedule k = some .engine) :
    engineStep { states k with agenda := [] } = .next (states (k + 1)) := h.moves k _ hs

/-- While a command runs no host transaction moves the sequencer, its working values, the big registers or the trace
(20_memory.md R67). -/
theorem hostStep_busy_frame {op : HostOp} (hb : s.status.busy = true) (h : s.hostStep op = .next t) :
    t.phase = s.phase ∧ t.hid = s.hid ∧ t.regs = s.regs ∧ t.cmd = s.cmd ∧ t.status.busy = true ∧ t.trace = s.trace := by
  rcases hostStep_cases h with ⟨off, -, -, rfl⟩ | ⟨off, v, -, -, rfl⟩
  · exact ⟨rfl, rfl, rfl, rfl, hb, rfl⟩
  · rcases memWrite_cases s off v with e | ⟨-, e⟩ | ⟨-, -, e⟩ | ⟨-, hn, e⟩ | ⟨-, e⟩ | ⟨X, k, -, -, e⟩ |
      ⟨X, k, -, hn, -, e⟩ | ⟨X, k, -, hn, -, e⟩ <;> rw [e]
    all_goals first
      | exact ⟨rfl, rfl, rfl, rfl, hb, rfl⟩
      | exact absurd hb (by simp [hn])

/-- A candidate made from a rejected reply is not accepted (40_prime_sampling.md R124). -/
theorem Hidden.Rejects.accepts_eq_false {h : Hidden} {r : Nat × Bool} (hr : h.Rejects r) :
    ({ h with cand := candidateOf h.w r.1 } : Hidden).accepts r.2 = false := by
  rcases hr with hv | ⟨hw, hc⟩
  · simp [Hidden.accepts, hv]
  · simp [Hidden.accepts, hw, hc]

end Sys2Proof.Machine
end

