-- ==== Sys2Proof/Tests/Slice0.lean ====
section
/-! SUPPORT. The model's own tests: the check of WellFormed, words written out from the encoding of 30_encoding.md R100 and
R105, single steps with the values of the spec's rules and vectors, and for every statement with hypotheses a state that
meets them. -/

namespace Sys2Proof.Tests

open Sys2Proof.Machine

/-! ## WellFormed -/

/-- A width of 17 bits has no encoding (R100). -/
theorem test_wellFormed_refuses_wide_width : (Instr.genkey 65536).wellFormed = false := by decide

theorem test_wellFormed_admits_widest : (Instr.genkey 65535).wellFormed = true := by decide

/-! ## Decoding: `RSV`, `ARG`, `OPCODE` written out -/

theorem test_decode_nop : decode (0b00000000#8 ++ 0b0000000000000000#16 ++ 0b00000000#8) = .instr .nop := by decide
theorem test_decode_modpow : decode (0b00000000#8 ++ 0b0000000000000000#16 ++ 0b00000001#8) = .instr .modpow := by decide
theorem test_decode_modinv : decode (0b00000000#8 ++ 0b0000000000000000#16 ++ 0b00000010#8) = .instr .modinv := by decide
theorem test_decode_genkey :
    decode (0b00000000#8 ++ 0b0000000010000000#16 ++ 0b00000011#8) = .instr (.genkey 128) := by decide
theorem test_decode_derive : decode (0b00000000#8 ++ 0b0000000000000000#16 ++ 0b00000100#8) = .instr .derive := by decide
theorem test_decode_loadkey : decode (0b00000000#8 ++ 0b0000000000000000#16 ++ 0b00000101#8) = .instr .loadkey := by decide
theorem test_decode_project : decode (0b00000000#8 ++ 0b0000000000000000#16 ++ 0b00000110#8) = .instr .project := by decide
theorem test_decode_encrypt : decode (0b00000000#8 ++ 0b0000000000000000#16 ++ 0b00000111#8) = .instr .encrypt := by decide
theorem test_decode_decrypt : decode (0b00000000#8 ++ 0b0000000000000000#16 ++ 0b00001000#8) = .instr .decrypt := by decide
theorem test_decode_clrkey : decode (0b00000000#8 ++ 0b0000000000000000#16 ++ 0b00001001#8) = .instr .clrkey := by decide
theorem test_decode_clrpub : decode (0b00000000#8 ++ 0b0000000000000000#16 ++ 0b00001010#8) = .instr .clrpub := by decide
theorem test_decode_sign : decode (0b00000000#8 ++ 0b0000000000000000#16 ++ 0b00001011#8) = .instr .sign := by decide
theorem test_decode_verify : decode (0b00000000#8 ++ 0b0000000000000000#16 ++ 0b00001100#8) = .instr .verify := by decide

/-- Each reason of R104 case 1, at its least word. -/
theorem test_decode_illegal :
    decode 0x0000000D#32 = .illegal .unknownOpcode ∧ decode 0x01000001#32 = .illegal .reservedBits ∧
    decode 0x00000101#32 = .illegal .argumentNotZero := by decide

/-- The host's table words: 32 bits, and a shorter word with zeros above. -/
theorem test_decodeTableWord :
    decodeTableWord 32 0x00008003 = some (.genkey 128) ∧ decodeTableWord 8 0x0C = some .verify ∧
    decodeTableWord 32 0x0000000D = none ∧ decodeTableWord 64 0x100000000 = none := by decide

/-! ## States -/

/-- The reference instance idle, with three operands. -/
def operands (a b m : Nat) : State :=
  { State.reset with regs := { State.reset.regs with opa := a, opb := b, opm := m } }

/-- The reference instance idle, with the key of the example of 44_keyslot.md R170 and its projection. -/
def keyed : State :=
  { State.reset with
    regs := ⟨65, 0, 0, 0, 61, 53, 65537, 2753, 3233, 3120, 65537, 3233⟩
    status := { State.reset.status with keyValid := true, pubValid := true } }

/-- The reference instance running the command word `v` in phase `ph` with the hidden values `h`. -/
def running (v : Word) (ph : Phase) (h : Hidden) : State :=
  { State.reset with
    cmd := v
    hid := { h with op := opcodeOf v, arg := argOf v }
    status := { State.reset.status with busy := true }
    phase := ph }

/-- `MODPOW` of 4, 13, 497 after its CHECK step, and after its last round. -/
def modpowStart : State :=
  running 0x00000001 .mpLoop { Hidden.reset with c := 1, b := 4, e := 13, m := 497 }
def modpowEnd : State :=
  running 0x00000001 .mpLoop { Hidden.reset with c := 445, b := 429, e := 0, m := 497 }

/-- An outcome's `STATUS` word as the host reads it. -/
def statusAfter (r : Result) : Option Word := (nextState? r).map fun t => t.memRead statusOff

/-- One register of an outcome. -/
def regAfter (X : BigReg) (r : Result) : Option Nat := (nextState? r).map fun t => t.br X

/-! ## Reset and fetch -/

theorem test_reset_words :
    State.reset.memRead 0x0000 = 0x4D454531#32 ∧ State.reset.memRead 0x0004 = 0x00190808#32 ∧
    State.reset.memRead 0x0010 = 0x00000000#32 := by decide

/-- The placed word is the one the next step runs. -/
theorem test_withFetchWord : statusAfter (step (State.reset.withFetchWord 32 0x0000000B)) = some 0x00001106#32 := by decide

/-! ## Single steps of the commands -/

/-- 46_system.md R190. -/
theorem test_nop : statusAfter (exec .nop (State.reset.issue 0)) = some 0x00000002#32 := by decide

/-- 46_system.md R191: three illegal words. -/
theorem test_illegal :
    [0x0000000D#32, 0x01000001#32, 0x00000101#32].map (fun v => statusAfter (checkStep (State.reset.issue v))) =
      [some 0x00001006#32, some 0x00001006#32, some 0x00001006#32] := by decide

/-- 46_system.md R192, R193. -/
theorem test_sign : statusAfter (exec .sign (State.reset.issue 0x0B)) = some 0x00001106#32 := by decide
theorem test_verify : statusAfter (exec .verify (State.reset.issue 0x0C)) = some 0x00001106#32 := by decide

/-- 42_modpow.md R147: the values loaded and the first round. -/
theorem test_modpow_loads :
    (nextState? (exec .modpow (operands 4 13 497))).map (fun t => (t.hid.c, t.hid.b, t.hid.e, t.hid.m)) =
      some (1, 4, 13, 497) := by decide
theorem test_modpow_round :
    let h := { Hidden.reset with c := 4, b := 256, e := 3, m := 497 }
    (h.powRound.c, h.powRound.b, h.powRound.e) = (30, 429, 1) := by decide

/-- 95_test_vectors.md V1, V20, V21, V25, V27. -/
theorem test_modPow_vectors :
    [modPow 4 13 497, modPow 0 0 1, modPow 5 3 1, modPow 500 2 497, modPow 65 65537 3233] = [445, 1, 0, 9, 2790] := by
  decide

/-- 41_modinv.md R130, R132: the first round on `(3, 11)`. -/
theorem test_modinv_loads :
    (nextState? (exec .modinv (operands 3 0 11))).map (fun t => (t.hid.r, t.hid.newr, t.hid.t, t.hid.newt)) =
      some (11, 3, 0, 1) := by decide
theorem test_modinv_round :
    let h := { Hidden.reset with r := 11, newr := 3, t := 0, newt := 1 }
    (h.euclidRound.r, h.euclidRound.newr, h.euclidRound.t, h.euclidRound.newt) = (3, 2, 1, -3) := by decide

/-- 41_modinv.md R135, R137; 95_test_vectors.md V2, V10, V11, V12, V17, V18. -/
theorem test_modInverse_vectors :
    [modInverse 3 11, modInverse 4 8, modInverse 1 1, modInverse 0 1, modInverse 65537 1, modInverse 17 3120,
      modInverse 65537 3120] = [some 4, none, some 1, some 0, some 0, some 2753, some 2753] := by decide

/-- 60_exceptions.md R205: width before lock. -/
theorem test_genkey_order : statusAfter (exec (.genkey 4) (keyed.issue 0x00000403)) = some 0x0000131E#32 := by decide

/-- 40_prime_sampling.md R129. -/
theorem test_candidates : [0, 0x83, 0x03, 0xFB].map (candidateOf 8) = [128, 131, 131, 251] := by decide

/-- 43_keygen.md R154, R158: modulus and totient of 61 and 53. -/
theorem test_derive_step :
    (nextState? (kgDeriveStep (running 0x00000004 .kgDerive { Hidden.reset with p := 61, q := 53 }))).map
      (fun t => (t.hid.nmod, t.hid.r, t.hid.newr)) = some (3233, 3120, 65537) := by decide
theorem test_derive_order : statusAfter (exec .derive (keyed.issue 0x04)) = some 0x0000151E#32 := by decide

/-- 44_keyslot.md R170, R174, R175. -/
theorem test_loadkey : statusAfter (exec .loadkey (State.reset.issue 0x05)) = some 0x0000000A#32 := by decide
theorem test_clrkey :
    statusAfter (exec .clrkey (keyed.issue 0x09)) = some 0x00000012#32 ∧
    regAfter .keyD (exec .clrkey (keyed.issue 0x09)) = some 0 := by decide
theorem test_clrpub :
    statusAfter (exec .clrpub (keyed.issue 0x0A)) = some 0x0000000A#32 ∧
    regAfter .pubN (exec .clrpub (keyed.issue 0x0A)) = some 0 := by decide

/-- 43_keygen.md R165; 60_exceptions.md R205: no-key before lock. -/
theorem test_project :
    regAfter .pubN (exec .project { keyed with status := { keyed.status with pubValid := false } }) = some 3233 := by
  decide
theorem test_project_order :
    statusAfter (exec .project { State.reset with status := { State.reset.status with pubValid := true } }) =
      some 0x00001416#32 := by decide

/-- 45_cipher.md R181: `N` fails, `N - 1` is accepted. -/
theorem test_encrypt_bound :
    statusAfter (exec .encrypt { keyed.issue 0x07 with regs := { keyed.regs with opa := 3233 } }) = some 0x0000021E#32 ∧
    (nextState? (exec .encrypt { keyed.issue 0x07 with regs := { keyed.regs with opa := 3232 } })).map State.phase =
      some .mpLoop := by decide

/-- 45_cipher.md R183, R184: a block above the modulus is reduced. -/
theorem test_decrypt_reduces :
    (nextState? (exec .decrypt { keyed with regs := { keyed.regs with opa := 3233 + 2790 } })).map
      (fun t => (t.hid.b, t.hid.e, t.hid.m)) = some (2790, 2753, 3233) := by decide

/-! ## Host transactions -/

/-- 20_memory.md R63, R65: the word of index 7 is the most significant one of the reference instance. -/
theorem test_word_write : (State.reset.memWrite 0x021C 0x80000000#32).br .opa = 2 ^ 255 := by decide

/-- 20_memory.md R64 case 7: the first unused word of a window. -/
theorem test_window_end : (State.reset.memWrite 0x0220 0x00000001#32) = State.reset := by decide

/-- 20_memory.md R65 case 6: the unused rest of a window, while a command runs (log entry 8). -/
theorem test_window_end_busy : (modpowStart.memWrite 0x0220 0x00000001#32) = modpowStart := by decide

/-- 30_encoding.md R110, 20_memory.md R90: between two reads of `WAIT` the engine takes a step. -/
theorem test_poll_lets_the_engine_move :
    (nextState? (step { modpowStart with agenda := [.poll] })).map State.agenda = some [.engine, .poll] := by decide

/-- 10_state.md R34: `ACK` clears every clearable flag and no valid flag. -/
theorem test_ack :
    ({ keyed with status := ⟨false, true, true, true, true, true, true, 0x12#8⟩ }.memWrite 0x0010 0x00000066#32).memRead
      0x0010 = 0x00000018#32 := by decide

/-! ## Witnesses: a state that meets the hypotheses of each statement, and of each of its clauses

A clause whose hypotheses are about a phase or a flag alone is met by a state of `running` or `keyed`. -/

theorem running_statusConsistent (v : Word) (ph : Phase) (h : Hidden) (hp : ph ≠ .idle) :
    (running v ph h).StatusConsistent :=
  ⟨⟨fun _ => hp, fun _ => rfl⟩, by simp [running, State.reset, State.resetFor], fun _ => ⟨rfl, rfl⟩,
    by simp [running, State.reset, State.resetFor, producedCodes]⟩

theorem reset_br (X : BigReg) : State.reset.br X = 0 := by cases X <;> rfl

theorem running_inv (v : Word) (ph : Phase) (h : Hidden) (hp : ph ≠ .idle) (hph : (running v ph h).PhaseInv) :
    (running v ph h).Inv :=
  ⟨show Config.Ok Config.reference by decide,
   fun X => (show (running v ph h).br X = 0 from reset_br X) ▸ Nat.two_pow_pos _,
   running_statusConsistent v ph h hp, fun _ => ⟨rfl, rfl⟩, hph⟩

/-- Every command word at its CHECK step meets the invariant. -/
theorem check_inv (v : Word) : (running v .check Hidden.reset).Inv :=
  running_inv v .check Hidden.reset (by decide) trivial

/-- The key of `keyed` with the command word `v` at its CHECK step. -/
def keyedCheck (v : Word) : State := keyed.issue v

theorem keyedCheck_inv (v : Word) : (keyedCheck v).Inv :=
  ⟨show Config.Ok Config.reference by decide, fun X => (by cases X <;> decide : keyed.br X < 2 ^ 256),
   ⟨⟨fun _ => nofun, fun _ => rfl⟩, by simp [keyedCheck, keyed, State.issue, Status.issued], fun _ => ⟨rfl, rfl⟩,
    by simp [keyedCheck, keyed, State.issue, Status.issued, producedCodes]⟩,
   fun _ => ⟨rfl, rfl⟩, trivial⟩

theorem modpowStart_inv : modpowStart.Inv :=
  running_inv _ _ _ (by decide) ⟨by decide, by decide, by decide, by decide, by decide⟩

/-- `MODINV` of 3 modulo 11 at its last step. -/
def modinvEnd : State :=
  running 0x00000002 .miLoop { Hidden.reset with r := 1, newr := 0, t := 4, newt := -11, n := 11, ret := .toRes }

/-- `MODINV` of 4 modulo 8 at its last step. -/
def modinvFail : State :=
  running 0x00000002 .miLoop { Hidden.reset with r := 4, newr := 0, t := 1, newt := -2, n := 8, ret := .toRes }

/-- `MODINV` of 10 modulo 11 at its last step, where `t` is negative. -/
def modinvNegative : State :=
  running 0x00000002 .miLoop { Hidden.reset with r := 1, newr := 0, t := -1, newt := 11, n := 11, ret := .toRes }

theorem modinvEnd_inv : modinvEnd.Inv :=
  running_inv _ _ _ (by decide)
    ⟨⟨by decide, by decide, by decide, by decide, by decide⟩, by decide, fun _ => by decide, fun h => by cases h⟩

theorem modinvFail_inv : modinvFail.Inv :=
  running_inv _ _ _ (by decide)
    ⟨⟨by decide, by decide, by decide, by decide, by decide⟩, by decide, fun _ => by decide, fun h => by cases h⟩

theorem modinvNegative_inv : modinvNegative.Inv :=
  running_inv _ _ _ (by decide)
    ⟨⟨by decide, by decide, by decide, by decide, by decide⟩, by decide, fun _ => by decide, fun h => by cases h⟩

/-- `GENKEY 8` at its first draw. -/
def genkeyDraw : State := running 0x00000803 .kgDraw { Hidden.reset with w := 8, which := .p }

theorem genkeyDraw_inv : genkeyDraw.Inv :=
  running_inv _ _ _ (by decide) ⟨by decide, by decide, by decide, rfl, fun h => by cases h⟩

/-- `GENKEY 8` at the key commit, with the primes 131 and 251. -/
def genkeyEnd : State :=
  { running 0x00000803 .miLoop { Hidden.reset with
      r := 1, newr := 0, t := 8473, newt := -32500, n := 32500, ret := .toKey
      w := 8, which := .q, cand := 251, p := 131, q := 251, nmod := 32881, tot := 32500 } with
    trace := [.rngRequest 8, .rngReply 3, .primeRequest 131 25, .primeReply true,
      .rngRequest 8, .rngReply 123, .primeRequest 251 25, .primeReply true] }

theorem genkeyEnd_sampled : Sampled genkeyEnd.trace 8 131 ∧ Sampled genkeyEnd.trace 8 251 :=
  ⟨⟨by decide, by decide, ⟨[.rngRequest 8, .rngReply 3],
      [.rngRequest 8, .rngReply 123, .primeRequest 251 25, .primeReply true], rfl⟩⟩,
   ⟨by decide, by decide, ⟨[.rngRequest 8, .rngReply 3, .primeRequest 131 25, .primeReply true,
      .rngRequest 8, .rngReply 123], [], rfl⟩⟩⟩

theorem genkeyEnd_factors : genkeyEnd.FactorsInv :=
  ⟨.inr ⟨8, by decide⟩, by decide, by decide, by decide, by decide, rfl, fun w hw => by
    have h8 : Instr.genkey 8 = Instr.genkey w := by
      have : decode genkeyEnd.cmd = .instr (.genkey 8) := by decide
      exact Decoded.instr.inj (this.symm.trans hw)
    cases h8
    exact ⟨by decide, genkeyEnd_sampled⟩⟩

theorem genkeyEnd_inv : genkeyEnd.Inv where
  cfg_ok := by decide
  regs X := (show genkeyEnd.br X = 0 from reset_br X) ▸ Nat.two_pow_pos _
  status := ⟨by decide, by decide, by decide, by decide⟩
  latched _ := ⟨rfl, rfl⟩
  phase := show genkeyEnd.InverseInv from
    ⟨⟨by decide, by decide, by decide, by decide, by decide⟩, by decide, nofun,
      fun _ => ⟨genkeyEnd_factors, rfl, rfl, rfl, ⟨by decide, by decide, by decide⟩⟩⟩

/-- `GENKEY 8` with the factors 131 and 251, before the inverse is loaded. -/
def genkeyDerive : State := { genkeyEnd with phase := .kgDerive }

theorem genkeyDerive_inv : genkeyDerive.Inv where
  cfg_ok := by decide
  regs X := (show genkeyDerive.br X = 0 from reset_br X) ▸ Nat.two_pow_pos _
  status := ⟨by decide, by decide, by decide, by decide⟩
  latched _ := ⟨rfl, rfl⟩
  phase := show genkeyDerive.FactorsInv from
    let f := genkeyEnd_factors
    ⟨f.command, f.p_low, f.q_low, f.distinct, f.product, f.slot_empty, f.sampled⟩

/-! ### Encoding -/

theorem witness_DecodeOfEncode :
    (Instr.genkey 0).wellFormed = true ∧ (Instr.genkey 65535).wellFormed = true ∧ Instr.verify.wellFormed = true := by
  decide

theorem witness_EncodeOfDecode :
    decode 0x00FFFF03#32 = .instr (.genkey 65535) ∧ decode 0x00000003#32 = .instr (.genkey 0) := by decide

theorem witness_DecodeFollowsTheTable :
    decode 0x0000000C#32 = .instr .verify ∧ opcodeRows[12]? = some ⟨0x0000000C#32, 0xFFFFFFFF#32⟩ ∧
    opcodeRows[0]? = some ⟨0x00000000#32, 0xFFFFFFFF#32⟩ := by decide

/-- A legal word, and one illegal word for each disjunct. -/
theorem witness_CheckStepDecodes :
    (∀ v, (running v .check Hidden.reset).phase = .check) ∧
    (0x01000001#32).extractLsb' 24 8 ≠ 0 ∧ 0x0C < ((0x0000000D#32).extractLsb' 0 8).toNat ∧
    (((0x00000101#32).extractLsb' 0 8).toNat ≠ 0x03 ∧ (0x00000101#32).extractLsb' 8 16 ≠ 0) ∧
    ¬((0x00FFFF03#32).extractLsb' 24 8 ≠ 0 ∨ 0x0C < ((0x00FFFF03#32).extractLsb' 0 8).toNat ∨
      (((0x00FFFF03#32).extractLsb' 0 8).toNat ≠ 0x03 ∧ (0x00FFFF03#32).extractLsb' 8 16 ≠ 0)) :=
  ⟨fun _ => rfl, by decide⟩

/-! ### The step and issue -/

/-- A step of each form of the agenda. -/
theorem witness_StepRunsDecodedCommand :
    let s := running 0x0000000B .check Hidden.reset
    s.phase = .check ∧ decode s.cmd = .instr .sign ∧ s.agenda = [] ∧
    statusAfter (step s) = some 0x00001106#32 ∧
    statusAfter (step { s with agenda := [.engine] }) = some 0x00001106#32 ∧
    statusAfter (step { s with agenda := [.settle] }) = some 0x00001106#32 := by decide

/-- Every form of the agenda; a state with the engine enabled, one in each phase without an engine step, and one with
`DONE` set. -/
theorem witness_EveryStepFollowsTheAgenda :
    0x0000 % 4 = 0 ∧ 0x1FFC % 4 = 0 ∧ 0x1FFC < 0x2000 ∧
    (∀ a ∈ [Action.host (.read 0x1FFC 4), .host (.write 0x1FFC 4 0), .engine, .rngReply 0, .primeReply true, .reset,
        .settle, .poll, .serve 0 false],
      ({ State.reset with agenda := [a, .settle] } : State).agenda = a :: [.settle]) ∧
    (modpowStart.phase ≠ .idle ∧ modpowStart.phase ≠ .kgRngWait ∧ modpowStart.phase ≠ .kgPtWait ∧
      modpowStart.status.done = false ∧ modpowStart.agenda = []) ∧
    State.reset.phase = .idle ∧ (running 0x00000803 .kgRngWait Hidden.reset).phase = .kgRngWait ∧
    (running 0x00000803 .kgPtWait Hidden.reset).phase = .kgPtWait ∧ State.reset.finish.status.done = true := by decide


theorem witness_IssueLatchesTheCommand :
    keyed.status.busy = false ∧ (running 0x00000001 .mpLoop Hidden.reset).status.busy = true := by decide

/-! ### The register space -/

/-- The least, the reference and the greatest instance, the last word of a window, and offsets no register has. -/
theorem witness_ReadsFollowTheRegisterMap :
    Config.Ok ⟨64⟩ ∧ Config.Ok Config.reference ∧ Config.Ok ⟨4096⟩ ∧ 7 < Config.reference.nwords ∧
    ∀ off ∈ [0x0014, 0x01FC, 0x0220, 0x1A00, 0x1FFC],
      off % 4 = 0 ∧ off ∉ [0x0000, 0x0004, 0x0008, 0x000C, 0x0010] ∧
      ∀ X ∈ BigReg.all, ∀ k < Config.reference.nwords, off ≠ X.base + 4 * k := by decide

/-- The last word of `OPA` and of an unlocked key register; the next offset is another word. -/
theorem witness_WordWriteReadsBack :
    State.reset.cfg.Ok ∧ 7 < State.reset.cfg.nwords ∧ State.reset.status.busy = false ∧
    State.reset.writable .opa = true ∧ State.reset.writable .keyT = true ∧
    0x0220 % 4 = 0 ∧ 0x0220 ≠ BigReg.opa.base + 4 * 7 := by decide

/-- A write that meets each clause of the frame. -/
theorem witness_HostWriteFrame :
    (State.reset.memWrite 0x021C 0x80000000#32).br .opa ≠ State.reset.br .opa ∧
    (State.reset.memWrite 0x0008 0x00000003#32).ctrl ≠ State.reset.ctrl ∧
    (State.reset.memWrite 0x000C 0x00000001#32).cmd ≠ State.reset.cmd ∧
    (State.reset.memWrite 0x0800 0x00000001#32).status ≠ State.reset.status := by decide

/-- One register for each disjunct, at the first and the last word. -/
theorem witness_LockedWriteIsDropped :
    keyed.cfg.Ok ∧ 0 < keyed.cfg.nwords ∧ 7 < keyed.cfg.nwords ∧ keyed.status.busy = false ∧
    BigReg.pubN.inPublicSlot = true ∧ (BigReg.keyP.inKeySlot = true ∧ keyed.status.keyValid = true) ∧
    (keyed.memWrite 0x081C 0x00000001#32).status.lockViol = true := by decide

theorem witness_BusyClosesTheBigRegisters :
    modpowStart.cfg.Ok ∧ modpowStart.status.busy = true ∧ 7 < modpowStart.cfg.nwords := by decide

/-- A halfword, an unaligned offset, and the first offset beyond the space. -/
theorem witness_InexpressibleAccessRefused :
    ¬(2 = 4 ∧ 0x0200 % 4 = 0 ∧ 0x0200 < 0x2000) ∧ ¬(4 = 4 ∧ 0x0202 % 4 = 0 ∧ 0x0202 < 0x2000) ∧
    ¬(4 = 4 ∧ 0x2000 % 4 = 0 ∧ 0x2000 < 0x2000) := by decide

/-- The greatest value of the least instance. -/
theorem witness_WholeRegisterWrite :
    let s := { State.resetFor ⟨64⟩ with agenda := ScriptLine.expand ⟨64⟩ (.wr .keyT (2 ^ 64 - 1)) ++ [Action.engine] }
    s.cfg.Ok ∧ s.status.busy = false ∧ s.writable .keyT = true ∧ s.br .keyT < s.cfg.bound ∧ 2 ^ 64 - 1 < s.cfg.bound ∧
    s.agenda = ScriptLine.expand s.cfg (.wr .keyT (2 ^ 64 - 1)) ++ [Action.engine] := by decide

theorem witness_WholeRegisterRead :
    let s := { State.resetFor ⟨64⟩ with agenda := ScriptLine.expand ⟨64⟩ (.rd .pubN) ++ [Action.engine] }
    s.cfg.Ok ∧ s.status.busy = false ∧ s.br .pubN < s.cfg.bound ∧
    s.agenda = ScriptLine.expand s.cfg (.rd .pubN) ++ [Action.engine] := by decide

/-- A word with both clearing bits. -/
theorem witness_IrqFollowsTheFlags : (0x00000006#32).getLsbD 1 = true ∧ (0x00000006#32).getLsbD 2 = true := by decide

/-! ### Key slot commands and loops -/

/-- A state for each condition of `LOADKEY` and `PROJECT`. -/
theorem witness_KeySlotCommands :
    keyed.status.keyValid = true ∧ keyed.status.pubValid = true ∧ State.reset.status.keyValid = false ∧
    (let s := { keyed with status := { keyed.status with pubValid := false } }
     s.status.keyValid = true ∧ s.status.pubValid = false) := by decide

theorem witness_PowerLoopSteps :
    (modpowStart.phase = .mpLoop ∧ 0 < modpowStart.hid.e ∧ 0 < modpowStart.hid.m) ∧
    (modpowEnd.phase = .mpLoop ∧ modpowEnd.hid.e = 0 ∧ modpowEnd.hid.c < 2 ^ modpowEnd.cfg.nw) := by decide

theorem witness_PowerRoundKeepsTheProduct :
    modpowStart.phase = .mpLoop ∧ modpowStart.hid.e ≠ 0 ∧ 0 < modpowStart.hid.m ∧
    (modpowStart.hid.c < modpowStart.hid.m ∨ modpowStart.hid.c = 1) := by decide

/-- The inverse unit as `MODINV` of 3 modulo 11 loads it. -/
def modinvStart : State := (running 0x00000002 .check Hidden.reset).startInverse 3 11 .toRes

theorem witness_InverseLoopRound : modinvStart.phase = .miLoop ∧ modinvStart.hid.newr ≠ 0 := by decide

/-- Failure, a positive and a negative coefficient, and the delivery to the key slot. -/
theorem witness_InverseDelivers :
    (modinvFail.Inv ∧ modinvFail.phase = .miLoop ∧ modinvFail.hid.newr = 0 ∧ 1 < modinvFail.hid.r) ∧
    (modinvEnd.Inv ∧ modinvEnd.phase = .miLoop ∧ modinvEnd.hid.newr = 0 ∧ modinvEnd.hid.r ≤ 1 ∧
      modinvEnd.hid.ret = .toRes) ∧
    (modinvNegative.Inv ∧ modinvNegative.phase = .miLoop ∧ modinvNegative.hid.newr = 0 ∧ modinvNegative.hid.r ≤ 1 ∧
      modinvNegative.hid.t < 0) ∧
    (genkeyEnd.Inv ∧ genkeyEnd.phase = .miLoop ∧ genkeyEnd.hid.newr = 0 ∧ genkeyEnd.hid.r ≤ 1 ∧
      genkeyEnd.hid.ret = .toKey) :=
  ⟨⟨modinvFail_inv, by decide⟩, ⟨modinvEnd_inv, by decide⟩, ⟨modinvNegative_inv, by decide⟩, genkeyEnd_inv, by decide⟩

theorem witness_InverseRoundKeepsTheCongruences :
    (modinvStart.phase = .miLoop ∧ modinvStart.hid.newr ≠ 0 ∧ modinvStart.hid.EuclidFor 3 ∧
      modinvStart.hid.EuclidMagnitudes) ∧
    (modinvEnd.hid.EuclidFor 3 ∧ modinvEnd.hid.newr = 0) :=
  ⟨⟨by decide, by decide, ⟨by decide, by decide, by decide⟩, ⟨by decide, by decide, by decide, by decide, by decide⟩⟩,
    ⟨by decide, by decide, by decide⟩, by decide⟩

/-! ### Prime sampling -/

theorem witness_SamplingRequests :
    genkeyDraw.phase = .kgDraw ∧ (running 0x00000803 .kgTest { Hidden.reset with w := 8, cand := 131 }).phase = .kgTest := by
  decide

/-- The greatest reply; acceptance as `p` and as `q`; rejection by the verdict and of a `q` equal to `p`. -/
theorem witness_SamplingReplies :
    (let s := running 0x00000803 .kgRngWait { Hidden.reset with w := 8 }
     s.phase = .kgRngWait ∧ 2 ^ 256 - 1 < 2 ^ s.cfg.nw ∧ 1 ≤ s.hid.w) ∧
    (let s := running 0x00000803 .kgPtWait { Hidden.reset with w := 8, cand := 131, which := .p }
     s.phase = .kgPtWait ∧ s.hid.which = .p) ∧
    (let s := running 0x00000803 .kgPtWait { Hidden.reset with w := 8, cand := 251, which := .q, p := 131 }
     s.phase = .kgPtWait ∧ s.hid.which = .q ∧ s.hid.cand ≠ s.hid.p) ∧
    (let s := running 0x00000803 .kgPtWait { Hidden.reset with w := 8, cand := 131, which := .q, p := 131 }
     s.phase = .kgPtWait ∧ s.hid.which = .q ∧ s.hid.cand = s.hid.p) := by decide

/-- `GENKEY 8` sampling `q` after 131 was accepted as `p`, and the environment's two ways to reject: verdict 0 on the
greatest reply, and the accepted `p` again. -/
def genkeyDrawQ : State := running 0x00000803 .kgDraw { Hidden.reset with w := 8, which := .q, p := 131 }

theorem genkeyDrawQ_rejects : genkeyDrawQ.hid.Rejects (2 ^ 256 - 1, false) ∧ genkeyDrawQ.hid.Rejects (3, true) :=
  ⟨.inl rfl, .inr ⟨rfl, by decide⟩⟩

theorem witness_SamplingIsNeverCapped :
    genkeyDrawQ.phase = .kgDraw ∧ 1 ≤ genkeyDrawQ.hid.w ∧ genkeyDrawQ.agenda = [] ∧
    (let replies : List (Nat × Bool) := [(2 ^ 256 - 1, false), (3, true)]
     (∀ r ∈ replies, r.1 < genkeyDrawQ.cfg.bound ∧ genkeyDrawQ.hid.Rejects r) ∧
      let s := { genkeyDrawQ with
        agenda := replies.flatMap fun r : Nat × Bool => [Action.settle, .rngReply r.1, .settle, .primeReply r.2] }
      s.phase = .kgDraw ∧
        s.agenda = replies.flatMap fun r : Nat × Bool => [Action.settle, .rngReply r.1, .settle, .primeReply r.2]) ∧
    (let s := { genkeyDrawQ with agenda := [.serve 3 true] }
     s.agenda = .serve 3 true :: [] ∧ s.hid.Rejects (3, true)) ∧
    (let replies : Nat → Nat × Bool := fun _ => (3, true)
     ∀ i, (replies i).1 < genkeyDrawQ.cfg.bound ∧ genkeyDrawQ.hid.Rejects (replies i)) := by
  obtain ⟨h, h'⟩ := genkeyDrawQ_rejects
  refine ⟨rfl, by decide, rfl, ⟨?_, rfl, rfl⟩, ⟨rfl, h'⟩, fun _ => ⟨show 3 < 2 ^ 256 by decide, h'⟩⟩
  simp only [List.mem_cons, List.not_mem_nil, or_false]
  rintro r (rfl | rfl)
  · exact ⟨by decide, h⟩
  · exact ⟨by decide, h'⟩

/-- A run of `NOP` that is fair, and a run of a request that nobody answers. -/
theorem witness_FairRunsCompleteOrWait :
    (∃ schedule states, Execution schedule states ∧ Fair schedule states ∧ (states 0).Inv ∧ (states 0).phase ≠ .idle ∧
      ∀ w, decode (states 0).cmd ≠ .instr (.genkey w)) ∧
    (∃ schedule states, Execution schedule states ∧ (states 0).status.busy = true ∧ (states 0).phase = .kgRngWait ∧
      ∀ k, schedule k ≠ some .reset ∧ (∀ rnd, schedule k ≠ some (.rngReply rnd)) ∧
        ∀ v, schedule k ≠ some (.primeReply v)) ∧
    ∀ ph ∈ [Phase.kgRngWait, .kgPtWait],
      let s := running 0x00000803 ph { Hidden.reset with w := 8 }
      (s.phase = .kgRngWait ∨ s.phase = .kgPtWait) ∧ s.agenda = [] := by
  refine ⟨⟨fun k => if k = 0 then some .engine else none, fun k => if k = 0 then running 0 .check Hidden.reset else
      (running 0 .check Hidden.reset).finish, ⟨?_, ?_, ?_⟩, ?_, check_inv 0, by decide, ?_⟩,
    ⟨fun _ => none, fun _ => running 0x00000803 .kgRngWait { Hidden.reset with w := 8 }, ⟨nofun, nofun, fun _ _ => rfl⟩,
      rfl, rfl, fun _ => ⟨nofun, nofun, nofun⟩⟩, by decide⟩
  · intro k a h
    by_cases hk : k = 0 <;> simp [hk] at h; subst h; rfl
  · intro k a h
    by_cases hk : k = 0 <;> simp [hk] at h; subst h hk; rfl
  · intro k h
    by_cases hk : k = 0 <;> simp [hk] at h ⊢
  · exact fun k => ⟨k + 1, by omega, .inr (by simp; rfl)⟩
  · intro w h; cases (show decode 0 = .instr .nop by decide).symm.trans h


theorem witness_MovesNotEnabledAreRefused :
    State.reset.phase ≠ .kgRngWait ∧ State.reset.phase ≠ .kgPtWait ∧ State.reset.phase = .idle ∧
    (let s := running 0x00000803 .kgRngWait { Hidden.reset with w := 8 }
     s.phase = .kgRngWait ∧ 2 ^ s.cfg.nw ≤ 2 ^ 256) := by decide

/-! ### The commands that compute -/

/-- A zero modulus, and operands with a modulus of one and of 497. -/
theorem witness_ModpowCompletes :
    State.reset.br .opm = 0 ∧
    ∀ s ∈ [operands 5 3 1, operands 4 13 497], 0 < s.br .opm ∧ s.br .opm < s.cfg.bound ∧ s.agenda = [] := by decide

/-- No key; a block equal to the modulus; a block one below it. -/
theorem witness_EncryptCompletes :
    State.reset.status.pubValid = false ∧
    (let s := keyed.setBr .opa 3233
     s.status.pubValid = true ∧ s.br .pubN ≤ s.br .opa) ∧
    (let s := keyed.setBr .opa 3232
     s.status.pubValid = true ∧ s.br .opa < s.br .pubN ∧ s.br .pubN < s.cfg.bound ∧ s.agenda = []) := by decide

/-- No key; a loaded key with modulus zero; a key. -/
theorem witness_DecryptCompletes :
    State.reset.status.keyValid = false ∧
    (let s := keyed.setBr .keyN 0
     s.status.keyValid = true ∧ s.br .keyN = 0) ∧
    (keyed.status.keyValid = true ∧ 0 < keyed.br .keyN ∧ keyed.br .keyN < keyed.cfg.bound ∧ keyed.agenda = []) := by
  decide

/-- A zero modulus; a common factor; coprime operands, the modulus one among them. -/
theorem witness_ModinvCompletes :
    State.reset.br .opm = 0 ∧
    (let s := operands 4 0 8
     0 < s.br .opm ∧ s.br .opm < s.cfg.bound ∧ s.agenda = [] ∧ 1 < Nat.gcd (s.br .opa) (s.br .opm)) ∧
    ∀ s ∈ [operands 3 0 11, operands 0 0 1],
      0 < s.br .opm ∧ s.br .opm < s.cfg.bound ∧ s.agenda = [] ∧ Nat.gcd (s.br .opa) (s.br .opm) = 1 := by decide

/-- Locked; each reason for the range error at its boundary; a totient that 65537 divides; a totient it does not. -/
theorem witness_DeriveCompletes :
    (keyed.cfg.Ok ∧ keyed.status.keyValid = true) ∧
    (∀ s ∈ [operands 1 2 0, operands 2 1 0, operands 61 61 0, operands (2 ^ 255) 2 0],
      s.status.keyValid = false ∧
        (s.br .opa < 2 ∨ s.br .opb < 2 ∨ s.br .opa = s.br .opb ∨ 2 ^ s.cfg.nw ≤ s.br .opa * s.br .opb)) ∧
    (∀ s ∈ [operands 65538 3 0, operands 61 53 0, operands 2 3 0, operands (2 ^ 255 - 1) 2 0],
      s.status.keyValid = false ∧ s.agenda = [] ∧
        ¬(s.br .opa < 2 ∨ s.br .opb < 2 ∨ s.br .opa = s.br .opb ∨ 2 ^ s.cfg.nw ≤ s.br .opa * s.br .opb)) ∧
    1 < Nat.gcd 65537 ((65538 - 1) * (3 - 1)) ∧ Nat.gcd 65537 ((61 - 1) * (53 - 1)) = 1 := by decide

/-- The widths where the clauses meet: 7 and 129 are refused, 8 and 128 admitted on the reference instance. -/
theorem witness_GenkeyCheck :
    (7 < 8 ∨ State.reset.cfg.nw / 2 < 7) ∧ (129 < 8 ∨ State.reset.cfg.nw / 2 < 129) ∧
    (∀ w ∈ [8, 128], 8 ≤ w ∧ w ≤ State.reset.cfg.nw / 2) ∧ State.reset.status.keyValid = false ∧
    (8 ≤ keyed.cfg.nw / 2 ∧ keyed.status.keyValid = true) := by decide

/-- The agenda of two accepted candidates. -/
def twoPrimes (x y : Nat) : State :=
  { State.reset with agenda :=
      [.settle, .rngReply x, .settle, .primeReply true, .settle, .rngReply y, .settle, .primeReply true] }

/-- `GENKEY 8` from the replies 3 and 123 (131 and 251), and `GENKEY 18` from 3 and 5, where 65537 divides `p - 1`. -/
theorem witness_GenkeyCompletes :
    (let s := twoPrimes 3 123
     s.cfg.Ok ∧ s.status.keyValid = false ∧ 8 ≤ 8 ∧ 8 ≤ s.cfg.nw / 2 ∧ 3 < s.cfg.bound ∧ 123 < s.cfg.bound) ∧
    2 ^ 7 + 3 % 2 ^ 7 ≠ 2 ^ 7 + 123 % 2 ^ 7 ∧
    Nat.gcd 65537 ((2 ^ 7 + 3 % 2 ^ 7 - 1) * (2 ^ 7 + 123 % 2 ^ 7 - 1)) = 1 ∧
    (let s := twoPrimes 3 5
     s.cfg.Ok ∧ s.status.keyValid = false ∧ 8 ≤ 18 ∧ 18 ≤ s.cfg.nw / 2 ∧ 3 < s.cfg.bound ∧ 5 < s.cfg.bound) ∧
    2 ^ 17 + 3 % 2 ^ 17 ≠ 2 ^ 17 + 5 % 2 ^ 17 ∧
    1 < Nat.gcd 65537 ((2 ^ 17 + 3 % 2 ^ 17 - 1) * (2 ^ 17 + 5 % 2 ^ 17 - 1)) := by decide

theorem witness_DeriveStepLoadsTheInverse :
    genkeyDerive.phase = .kgDerive ∧ 1 ≤ genkeyDerive.hid.p ∧ 1 ≤ genkeyDerive.hid.q ∧ genkeyDerive.Inv :=
  ⟨rfl, by decide, by decide, genkeyDerive_inv⟩

theorem witness_ReferenceFunctions :
    1 ≤ 497 ∧ 1 ≤ 8 ∧ 1 < Nat.gcd 4 8 ∧ 1 ≤ 1 ∧ Nat.gcd 0 1 = 1 := by decide

theorem witness_ScriptComputesThePower :
    Config.Ok Config.reference ∧ 4 < Config.reference.bound ∧ 13 < Config.reference.bound ∧
    497 < Config.reference.bound ∧ 0 < 497 := by decide

/-- The key of 44_keyslot.md R170 and the block 65. -/
theorem witness_DecryptOfEncrypt :
    (Nat.Prime 61 ∧ Nat.Prime 53) ∧ 61 ≠ 53 ∧ 65537 * 2753 % ((61 - 1) * (53 - 1)) = 1 ∧
    61 * 53 < keyed.cfg.bound ∧ keyed.agenda = [] ∧
    keyed.status.pubValid = true ∧ keyed.br .pubE = 65537 ∧ keyed.br .pubN = 61 * 53 ∧
    keyed.status.keyValid = true ∧ keyed.br .keyD = 2753 ∧ keyed.br .keyN = 61 * 53 ∧
    keyed.br .opa = 65 ∧ 65 < 61 * 53 :=
  ⟨⟨by norm_num, by norm_num⟩, by decide⟩

/-! ### Reset and the whole machine -/

theorem witness_ResetClearsTheBlock :
    let s := { modpowStart with agenda := [Action.reset, .engine] }
    s.agenda = .reset :: [.engine] ∧ s.phase ≠ .idle := by decide

theorem witness_ResetMeetsInvariant : Config.Ok ⟨64⟩ ∧ Config.Ok ⟨256⟩ ∧ Config.Ok ⟨4096⟩ := by decide

/-- A state of every kind: a loop, a completion, a port request, a key commit, a locked slot. -/
theorem witness_StepKeepsInvariant :
    (modpowStart.Inv ∧ ∃ t, step modpowStart = .next t) ∧ (modinvEnd.Inv ∧ ∃ t, step modinvEnd = .next t) ∧
    (genkeyDraw.Inv ∧ ∃ t, step genkeyDraw = .next t) ∧ (genkeyEnd.Inv ∧ ∃ t, step genkeyEnd = .next t) ∧
    ((keyedCheck 0x08).Inv ∧ ∃ t, step (keyedCheck 0x08) = .next t) :=
  ⟨⟨modpowStart_inv, _, rfl⟩, ⟨modinvEnd_inv, _, rfl⟩, ⟨genkeyDraw_inv, _, rfl⟩, ⟨genkeyEnd_inv, _, rfl⟩,
    keyedCheck_inv _, _, rfl⟩

theorem witness_InvariantStatesNeverFault : genkeyDerive.Inv ∧ modinvNegative.Inv :=
  ⟨genkeyDerive_inv, modinvNegative_inv⟩

theorem witness_StatusStaysConsistent :
    ∃ t, (running 0x0000000B .check Hidden.reset).StatusConsistent ∧
      step (running 0x0000000B .check Hidden.reset) = .next t ∧ t.status.err = true :=
  ⟨_, running_statusConsistent _ _ _ (by decide), rfl, rfl⟩

/-- A host write, and a reset. -/
theorem witness_OperandsWrittenOnlyByHost :
    (∃ t, step { operands 1 2 3 with agenda := [.host (.write 0x061C 4 0x80000000#32)] } = .next t ∧
      t.br .opm ≠ (operands 1 2 3).br .opm) ∧
    (∃ t, step { operands 1 2 3 with agenda := [.reset] } = .next t ∧ t.br .opa ≠ (operands 1 2 3).br .opa) :=
  ⟨⟨_, rfl, by decide⟩, _, rfl, by decide⟩

/-- A power, an inverse, and a reset. -/
theorem witness_ResWrittenOnlyBySuccess :
    (∃ t, step modpowEnd = .next t ∧ t.br .res ≠ modpowEnd.br .res) ∧
    (∃ t, step modinvEnd = .next t ∧ t.br .res ≠ modinvEnd.br .res) ∧
    (∃ t, step { State.reset.setBr .res 1 with agenda := [.reset] } = .next t ∧
      t.br .res ≠ (State.reset.setBr .res 1).br .res) :=
  ⟨⟨_, rfl, by decide⟩, ⟨_, rfl, by decide⟩, _, rfl, by decide⟩

/-- A staged key register: `KEY_T` of an empty slot. -/
def staged (s : State) : State := s.setBr .keyT 3120

theorem staged_check_inv : (staged (running 0x00000009 .check Hidden.reset)).Inv :=
  ⟨show Config.Ok Config.reference by decide, fun X => by cases X <;> decide,
    running_statusConsistent 0x00000009 .check Hidden.reset (by decide) |>.casesOn fun a b c d => ⟨a, b, c, d⟩,
    fun _ => ⟨rfl, rfl⟩, trivial⟩

/-- Construction by `LOADKEY` and by a commit, destruction by `CLRKEY`, a step that leaves the slot alone; and of a slot
without a key, a host write of its last word, the wipe by `CLRKEY`, and the commit. -/
theorem witness_KeySlotLifecycle :
    (let s := running 0x00000005 .check Hidden.reset
     s.Inv ∧ ∃ t, step s = .next t ∧ s.status.keyValid = false ∧ t.status.keyValid = true) ∧
    (genkeyEnd.Inv ∧ ∃ t, step genkeyEnd = .next t ∧ genkeyEnd.status.keyValid = false ∧ t.status.keyValid = true) ∧
    ((keyedCheck 0x09).Inv ∧ ∃ t, step (keyedCheck 0x09) = .next t ∧ (keyedCheck 0x09).status.keyValid = true ∧
      t.status.keyValid = false) ∧
    ((keyedCheck 0x00).Inv ∧ ∃ t, step (keyedCheck 0x00) = .next t ∧ (keyedCheck 0x00).status.keyValid = true ∧
      t.status.keyValid = true) ∧
    (let s := { State.reset with agenda := [.host (.write 0x141C 4 0x80000000#32)] }
     s.Inv ∧ ∃ t, step s = .next t ∧ s.status.keyValid = false ∧ t.br .keyT ≠ s.br .keyT) ∧
    (let s := staged (running 0x00000009 .check Hidden.reset)
     s.Inv ∧ ∃ t, step s = .next t ∧ s.status.keyValid = false ∧ t.br .keyT ≠ s.br .keyT) ∧
    ∃ t, step genkeyEnd = .next t ∧ t.br .keyT ≠ genkeyEnd.br .keyT :=
  ⟨⟨check_inv _, _, rfl, rfl, rfl⟩, ⟨genkeyEnd_inv, _, rfl, rfl, rfl⟩, ⟨keyedCheck_inv _, _, rfl, rfl, rfl⟩,
    ⟨keyedCheck_inv _, _, rfl, rfl, rfl⟩,
    ⟨⟨show Config.Ok Config.reference by decide, fun X => by cases X <;> decide,
      ⟨by decide, by decide, by decide, by decide⟩, by decide, trivial⟩, _, rfl, rfl, by decide⟩,
    ⟨staged_check_inv, _, rfl, rfl, by decide⟩, _, rfl, by decide⟩

/-- `PROJECT`, `CLRPUB` and reset each change the slot. -/
theorem witness_PublicSlotLifecycle :
    (∃ t, step (keyedCheck 0x06 |>.setPubValid false) = .next t ∧ t.status.pubValid = true) ∧
    (∃ t, step (keyedCheck 0x0A) = .next t ∧ t.status.pubValid = false) ∧
    (∃ t, step { keyed with agenda := [.reset] } = .next t ∧ t.status.pubValid = false) :=
  ⟨⟨_, rfl, rfl⟩, ⟨_, rfl, rfl⟩, _, rfl, rfl⟩

theorem witness_ErrorsArePrecise :
    ∃ t, step modinvFail = .next t ∧ modinvFail.status.err = false ∧ t.status.err = true := ⟨_, rfl, rfl, rfl⟩

/-- The failed inverse, and a command at its CHECK step. -/
theorem witness_ErrorsFollowTheTable :
    (modinvFail.Inv ∧ ∃ t, step modinvFail = .next t ∧ modinvFail.status.err = false ∧ t.status.err = true) ∧
    ((keyedCheck 0x04).Inv ∧ ∃ t, step (keyedCheck 0x04) = .next t ∧ (keyedCheck 0x04).status.err = false ∧
      t.status.err = true) :=
  ⟨⟨modinvFail_inv, _, rfl, rfl, rfl⟩, keyedCheck_inv _, _, rfl, rfl, rfl⟩

/-- Each flag cleared by a host write, and each set by a dropped one. -/
theorem witness_ViolationFlagsAreSticky :
    let marked := { keyed with
      status := { keyed.status with busyViol := true, lockViol := true }
      agenda := [.host (.write 0x0010 4 0x00000060#32)] }
    (∃ t, step marked = .next t ∧ marked.status.busyViol = true ∧ t.status.busyViol = false ∧
      marked.status.lockViol = true ∧ t.status.lockViol = false) ∧
    (∃ t, step { modpowStart with agenda := [.host (.write 0x000C 4 0#32)] } = .next t ∧
      modpowStart.status.busyViol = false ∧ t.status.busyViol = true) ∧
    (∃ t, step { keyed with agenda := [.host (.write 0x0800 4 0#32)] } = .next t ∧
      keyed.status.lockViol = false ∧ t.status.lockViol = true) :=
  ⟨⟨_, rfl, rfl, rfl, rfl, rfl⟩, ⟨_, rfl, rfl, rfl⟩, _, rfl, rfl, rfl⟩

theorem witness_PortEventsOnlyInGenkey :
    genkeyDraw.Inv ∧ ∃ t, step genkeyDraw = .next t ∧ t.trace ≠ genkeyDraw.trace :=
  ⟨genkeyDraw_inv, _, rfl, by decide⟩

theorem witness_ParameterIsConstant : ∃ t, run 2 modpowStart = .next t ∧ t.hid.b = 256 := ⟨_, rfl, rfl⟩

/-- Two states in the power loop that differ in the values of the other units, and their next states. -/
theorem witness_DeadHiddenValuesAreNeverRead :
    let s' := { modpowStart with hid := { modpowStart.hid with r := 7, cand := 9, which := .q } }
    modpowStart.SameButDead s' ∧ modpowStart ≠ s' ∧ ∃ t, step modpowStart = .next t :=
  ⟨⟨rfl, rfl, rfl, rfl, rfl⟩, by decide, _, rfl⟩

theorem witness_ConstructedKeyRelations :
    genkeyEnd.Inv ∧ ∃ t, step genkeyEnd = .next t ∧ genkeyEnd.phase = .miLoop ∧ genkeyEnd.status.keyValid = false ∧
      t.status.keyValid = true ∧ decode genkeyEnd.cmd = .instr (.genkey 8) :=
  ⟨genkeyEnd_inv, _, rfl, rfl, rfl, rfl, by decide⟩

theorem genkeyEnd_sound : OracleSound genkeyEnd.trace := by
  intro cand rounds h
  have : cand = 131 ∧ rounds = 25 ∨ cand = 251 ∧ rounds = 25 := by
    simpa [genkeyEnd, List.infix_cons_iff, List.cons_prefix_cons] using h
  rcases this with ⟨rfl, -⟩ | ⟨rfl, -⟩ <;> norm_num

theorem witness_SoundOracleGivesPrimes :
    genkeyEnd.Inv ∧ ∃ t, step genkeyEnd = .next t ∧ genkeyEnd.phase = .miLoop ∧ genkeyEnd.status.keyValid = false ∧
      t.status.keyValid = true ∧ OracleSound t.trace ∧ decode genkeyEnd.cmd = .instr (.genkey 8) :=
  ⟨genkeyEnd_inv, _, rfl, rfl, rfl, rfl, genkeyEnd_sound, by decide⟩

end Sys2Proof.Tests
end

/-! ## Progress under the invariant: no step faults (00_scope.md R13 to R15)

Every enabled engine step of a state of the invariant answers a next state, and so does an admissible RNG reply; the
other moves fault in no state. -/

namespace Sys2Proof.Machine

variable {s t : State} {r : Fault}

/-! ### The invariant does not read the agenda, and what it says in each phase -/

theorem State.StatusConsistent.with_agenda (h : s.StatusConsistent) (a : List Action) :
    ({ s with agenda := a } : State).StatusConsistent := { h with }

theorem State.SamplingInv.with_agenda (h : s.SamplingInv) (a : List Action) :
    ({ s with agenda := a } : State).SamplingInv := { h with }

theorem State.FactorsInv.with_agenda (h : s.FactorsInv) (a : List Action) :
    ({ s with agenda := a } : State).FactorsInv := { h with }

theorem State.PowInv.with_agenda (h : s.PowInv) (a : List Action) :
    ({ s with agenda := a } : State).PowInv := { h with }

theorem State.InverseInv.with_agenda (h : s.InverseInv) (a : List Action) :
    ({ s with agenda := a } : State).InverseInv :=
  { h with to_key := fun hret => { h.to_key hret with factors := (h.to_key hret).factors.with_agenda a } }

theorem State.PhaseInv.with_agenda (h : s.PhaseInv) (a : List Action) :
    ({ s with agenda := a } : State).PhaseInv := by
  obtain ⟨cfg, regs, ctrl, cmd, status, phase, hid, trace, reads, agenda⟩ := s
  cases phase with
  | idle | check => trivial
  | mpLoop => exact State.PowInv.with_agenda h a
  | miLoop => exact State.InverseInv.with_agenda h a
  | kgDraw | kgRngWait => exact State.SamplingInv.with_agenda h a
  | kgTest | kgPtWait => exact ⟨State.SamplingInv.with_agenda h.1 a, h.2⟩
  | kgDerive => exact State.FactorsInv.with_agenda h a

/-- The moves to come are no state of the block, so the invariant says nothing of them (log entry 2). -/
theorem State.Inv.with_agenda (h : s.Inv) (a : List Action) : ({ s with agenda := a } : State).Inv where
  cfg_ok := h.cfg_ok
  regs := regsInRange_of_same h.regs rfl rfl
  status := h.status.with_agenda a
  latched := h.latched
  phase := h.phase.with_agenda a

theorem State.Inv.powInv (h : s.Inv) (hp : s.phase = .mpLoop) : s.PowInv := by
  simpa only [State.PhaseInv, hp] using h.phase

theorem State.Inv.inverseInv (h : s.Inv) (hp : s.phase = .miLoop) : s.InverseInv := by
  simpa only [State.PhaseInv, hp] using h.phase

theorem State.Inv.samplingInv_of_kgRngWait (h : s.Inv) (hp : s.phase = .kgRngWait) : s.SamplingInv := by
  simpa only [State.PhaseInv, hp] using h.phase

theorem State.Inv.factorsInv (h : s.Inv) (hp : s.phase = .kgDerive) : s.FactorsInv := by
  simpa only [State.PhaseInv, hp] using h.phase

/-! ### The values to be written fit their registers -/

theorem deliverResult_of_lt {v : Nat} (h : v < s.cfg.bound) : s.deliverResult v = .next (s.setBr .res v).finish :=
  if_pos h

theorem eConst_lt_bound {cfg : Config} (h : cfg.Ok) : Config.eConst < cfg.bound :=
  lt_of_lt_of_le (by decide) (two_pow_64_le_bound h)

/-- The running product is below the modulus, or is the 1 it starts with (42_modpow.md R144). -/
theorem State.PowInv.c_lt_bound (h : s.PowInv) (hc : s.cfg.Ok) : s.hid.c < s.cfg.bound := by
  rcases h.c_lt with hlt | h1
  · exact hlt.trans h.m_bound
  · rw [h1]; exact lt_trans (by decide) (eConst_lt_bound hc)

/-- Normalizing a cofactor of magnitude at most `n` leaves it between 0 and `n` (41_modinv.md R133, R136). -/
theorem normalizedInverse_bounds {t : Int} {n : Nat} (h : t.natAbs ≤ n) :
    0 ≤ normalizedInverse t n ∧ (normalizedInverse t n).toNat ≤ n := by
  unfold normalizedInverse
  split <;> omega

theorem State.FactorsInv.p_lt_bound (h : s.FactorsInv) : s.hid.p < s.cfg.bound :=
  lt_of_le_of_lt (Nat.le_mul_of_pos_right _ (by have := h.q_low; omega)) h.product

theorem State.FactorsInv.q_lt_bound (h : s.FactorsInv) : s.hid.q < s.cfg.bound :=
  lt_of_le_of_lt (Nat.le_mul_of_pos_left _ (by have := h.p_low; omega)) h.product

/-- A pending key commits with every `d` that fits its register (43_keygen.md R155). -/
theorem State.PendingKeyInv.commitKey_next (h : s.PendingKeyInv) (hc : s.cfg.Ok) (hn : s.hid.n < s.cfg.bound) {d : Nat}
    (hd : d < s.cfg.bound) : ∃ t, s.commitKey d = .next t := by
  have hnmod : s.hid.nmod < s.cfg.bound := h.nmod_eq ▸ h.factors.product
  have htot : s.hid.tot < s.cfg.bound := h.n_eq ▸ hn
  exact ⟨_, if_pos ⟨h.factors.p_lt_bound, h.factors.q_lt_bound, eConst_lt_bound hc, hd, hnmod, htot⟩⟩

/-! ### Each engine step of the invariant answers a next state -/

theorem mpLoopStep_next (h : s.PowInv) (hc : s.cfg.Ok) : ∃ t, mpLoopStep s = .next t := by
  unfold mpLoopStep
  rw [deliverResult_of_lt (h.c_lt_bound hc), if_neg h.m_pos.ne']
  split <;> exact ⟨_, rfl⟩

theorem miFinalStep_next (h : s.InverseInv) (hc : s.cfg.Ok) : ∃ t, miFinalStep s = .next t := by
  obtain ⟨hnonneg, hle⟩ := normalizedInverse_bounds h.magnitudes.t_bound
  have hlt := lt_of_le_of_lt hle h.n_bound
  unfold miFinalStep
  split
  · exact ⟨_, rfl⟩
  · rw [if_neg (not_lt.mpr hnonneg)]
    split
    · exact ⟨_, deliverResult_of_lt hlt⟩
    · next hret => exact (h.to_key hret).commitKey_next hc h.n_bound hlt

theorem miLoopStep_next (h : s.InverseInv) (hc : s.cfg.Ok) : ∃ t, miLoopStep s = .next t := by
  unfold miLoopStep
  split
  · exact miFinalStep_next h hc
  · exact ⟨_, rfl⟩

theorem kgDeriveStep_next (h : s.FactorsInv) : ∃ t, kgDeriveStep s = .next t := by
  have hp := h.p_low
  have hq := h.q_low
  exact ⟨_, if_neg (by omega)⟩

theorem checkStep_next (s : State) : ∃ t, checkStep s = .next t := by
  unfold checkStep
  split
  · exact exec_next _ s
  · exact ⟨_, rfl⟩

/-- In a state of the invariant an enabled engine takes its step (20_memory.md R80). -/
theorem engineStep_next (h : s.Inv) (he : s.phase.engineEnabled = true) : ∃ t, engineStep s = .next t := by
  unfold engineStep
  cases hp : s.phase with
  | idle | kgRngWait | kgPtWait => rw [hp] at he; exact absurd he (by decide)
  | check => exact checkStep_next s
  | mpLoop => exact mpLoopStep_next (h.powInv hp) h.cfg_ok
  | miLoop => exact miLoopStep_next (h.inverseInv hp) h.cfg_ok
  | kgDraw | kgTest => exact ⟨_, rfl⟩
  | kgDerive => exact kgDeriveStep_next (h.factorsInv hp)

/-- An engine move in a phase with no engine step is refused by name (20_memory.md R80). -/
theorem engineStep_refused (he : s.phase.engineEnabled = false) : engineStep s = .refused .engineNotEnabled := by
  unfold engineStep
  cases hp : s.phase with
  | idle | kgRngWait | kgPtWait => rfl
  | check | mpLoop | miLoop | kgDraw | kgTest | kgDerive => rw [hp] at he; exact absurd he (by decide)

/-! ### Which moves can fault -/

theorem engineStep_ne_fault (h : s.Inv) (r : Fault) : engineStep s ≠ .fault r := by
  cases he : s.phase.engineEnabled with
  | true => obtain ⟨t, ht⟩ := engineStep_next h he; rw [ht]; nofun
  | false => rw [engineStep_refused he]; nofun

/-- An RNG reply faults only at a zero width, which `GENKEY` refuses at its CHECK step (43_keygen.md R151). -/
theorem rngReplyStep_ne_fault (h : s.Inv) (rnd : Nat) (r : Fault) : rngReplyStep s rnd ≠ .fault r := by
  unfold rngReplyStep
  by_cases hp : s.phase = .kgRngWait
  · have hw : s.hid.w ≠ 0 := (lt_of_lt_of_le (by decide) (h.samplingInv_of_kgRngWait hp).w_low).ne'
    rw [if_neg (not_not.mpr hp), if_neg hw]
    split <;> nofun
  · rw [if_pos hp]; nofun

theorem hostStep_ne_fault (s : State) (op : HostOp) (r : Fault) : s.hostStep op ≠ .fault r := by
  cases op with
  | read | write => simp only [State.hostStep]; split <;> nofun

theorem primeReplyStep_ne_fault (s : State) (verdict : Bool) (r : Fault) : primeReplyStep s verdict ≠ .fault r := by
  unfold primeReplyStep
  simp only
  repeat' split
  all_goals nofun

/-- A fault is the engine's or an RNG reply's, whether an entry of the agenda names the move or a directive takes it. -/
theorem step_fault_cases (h : step s = .fault r) :
    (∃ a, engineStep { s with agenda := a } = .fault r) ∨
    (∃ rnd a, rngReplyStep { s with agenda := a } rnd = .fault r) := by
  unfold step takeTurn at h
  split at h
  · unfold engineOrWait at h
    split at h
    · exact .inl ⟨s.agenda, h⟩
    · cases h
  · exact absurd h (hostStep_ne_fault _ _ r)
  · next rest _ => exact .inl ⟨rest, h⟩
  · next rnd rest _ => exact .inr ⟨rnd, rest, h⟩
  · exact absurd h (primeReplyStep_ne_fault _ _ r)
  · cases h
  · split at h
    · exact .inl ⟨s.agenda, h⟩
    · cases h
  · cases h
  · next rnd verdict rest _ =>
    unfold serveStep at h
    split at h
    · exact .inl ⟨s.agenda, h⟩
    split at h
    · exact .inr ⟨rnd, s.agenda, h⟩
    split at h
    · exact absurd h (primeReplyStep_ne_fault s verdict r)
    · cases h

/-- Settles O47: a fault would be the engine's or an RNG reply's, and the invariant keeps every divisor of these steps
from zero and every value they write in its register's range. -/
theorem invariantStatesNeverFault : Obligations.InvariantStatesNeverFault := by
  intro s hs r h
  rcases step_fault_cases h with ⟨a, he⟩ | ⟨rnd, a, hr⟩
  · exact engineStep_ne_fault (hs.with_agenda a) r he
  · exact rngReplyStep_ne_fault (hs.with_agenda a) rnd r hr

end Sys2Proof.Machine

/-! ## What a step can change (20_memory.md R80)

Every step's effect, said once: an engine step or a reply either works on, fails, completes, delivers to `RES`, commits a
key, or is one of the slot commands; every other step is the host's, a reset, or a wait. -/

namespace Sys2Proof.Machine

variable {s t : State}

/-- The running command delivers `v` to `RES`: the last step of the power loop (42_modpow.md R143), or of an inverse for
`MODINV` (41_modinv.md R133). -/
def State.Delivers (s : State) (v : Nat) : Prop :=
  (s.phase = .mpLoop ∧ s.hid.e = 0 ∧ v = s.hid.c) ∨
  (s.phase = .miLoop ∧ s.hid.newr = 0 ∧ s.hid.r ≤ 1 ∧ s.hid.ret = .toRes)

/-- The running key derivation is at its commit (43_keygen.md R155). -/
def State.AtCommit (s : State) : Prop :=
  s.phase = .miLoop ∧ s.hid.newr = 0 ∧ s.hid.r ≤ 1 ∧ s.hid.ret = .toKey

/-- The command `i` is at its CHECK step (30_encoding.md R104). -/
def State.Checks (s : State) (i : Instr) : Prop := s.phase = .check ∧ decode s.cmd = .instr i

/-- What a step of the engine, or a reply to it, can do to the state. -/
inductive BlockEffect (s : State) : State → Prop where
  | works (h : Hidden) (ph : Phase) (tr : List PortEvent) : h.op = s.hid.op → h.arg = s.hid.arg → ph ≠ .idle →
      s.trace <+: tr → BlockEffect s { s with hid := h, phase := ph, trace := tr }
  | fails (k : ErrKind) : k ≠ .invalidEncoding → BlockEffect s (s.raiseErr k)
  | completes : BlockEffect s s.finish
  | delivers (v : Nat) : s.Delivers v → v < s.cfg.bound → BlockEffect s (s.setBr .res v).finish
  | commits (p q e d n t : Nat) : s.AtCommit → (∀ x ∈ [p, q, e, d, n, t], x < s.cfg.bound) →
      BlockEffect s ((s.setKeySlot p q e d n t).setKeyValid true).finish
  | loads : s.Checks .loadkey → s.status.keyValid = false → BlockEffect s (s.setKeyValid true).finish
  | projects : s.Checks .project → s.status.keyValid = true → s.status.pubValid = false →
      BlockEffect s (((s.setBr .pubE (s.br .keyE)).setBr .pubN (s.br .keyN)).setPubValid true).finish
  | clearsKey : s.Checks .clrkey → BlockEffect s ((s.setKeySlot 0 0 0 0 0 0).setKeyValid false).finish
  | clearsPub : s.Checks .clrpub → BlockEffect s (((s.setBr .pubE 0).setBr .pubN 0).setPubValid false).finish

/-- What a step of the machine can do to the state. -/
inductive StepEffect (s : State) : State → Prop where
  | block (a : List Action) {t : State} : s.phase ≠ .idle → BlockEffect { s with agenda := a } t → StepEffect s t
  | read (a : List Action) (off : Nat) : StepEffect s (State.answerRead { s with agenda := a } off)
  | write (off : Nat) (v : Word) (rest : List Action) : s.agenda = .host (.write off 4 v) :: rest →
      StepEffect s (State.memWrite { s with agenda := rest } off v)
  | reset (rest : List Action) : s.agenda = .reset :: rest → StepEffect s (State.applyReset { s with agenda := rest })
  | wait (a : List Action) : StepEffect s { s with agenda := a }

theorem BlockEffect.startPow (b e m : Nat) : BlockEffect s (s.startPow b e m) :=
  .works _ _ _ rfl rfl nofun List.prefix_rfl

theorem BlockEffect.startInverse (a n : Nat) (ret : Ret) : BlockEffect s (s.startInverse a n ret) :=
  .works _ _ _ rfl rfl nofun List.prefix_rfl

/-- A CHECK part fails, loads a unit, or completes at once (30_encoding.md R104, R108). -/
theorem exec_effect {i : Instr} (hi : s.Checks i) (h : exec i s = .next t) : BlockEffect s t := by
  cases i with
  | nop => cases h; exact .completes
  | modpow =>
    rcases execModpow_cases h with ⟨-, rfl⟩ | ⟨-, rfl⟩
    · exact .fails _ nofun
    · exact .startPow _ _ _
  | modinv =>
    rcases execModinv_cases h with ⟨-, rfl⟩ | ⟨-, rfl⟩
    · exact .fails _ nofun
    · exact .startInverse _ _ _
  | genkey w =>
    rcases execGenkey_cases h with ⟨-, rfl⟩ | ⟨-, rfl⟩ | ⟨-, -, -, rfl⟩
    · exact .fails _ nofun
    · exact .fails _ nofun
    · exact .works _ _ _ rfl rfl nofun List.prefix_rfl
  | derive =>
    rcases execDerive_cases h with ⟨-, rfl⟩ | ⟨-, rfl⟩ | ⟨-, -, -, -, -, rfl⟩
    · exact .fails _ nofun
    · exact .fails _ nofun
    · exact .works _ _ _ rfl rfl nofun List.prefix_rfl
  | loadkey =>
    rcases execLoadkey_cases h with ⟨-, rfl⟩ | ⟨hk, rfl⟩
    · exact .fails _ nofun
    · exact .loads hi hk
  | project =>
    rcases execProject_cases h with ⟨-, rfl⟩ | ⟨-, rfl⟩ | ⟨hk, hp, rfl⟩
    · exact .fails _ nofun
    · exact .fails _ nofun
    · exact .projects hi hk hp
  | encrypt =>
    rcases execEncrypt_cases h with ⟨-, rfl⟩ | ⟨-, rfl⟩ | ⟨-, -, rfl⟩
    · exact .fails _ nofun
    · exact .fails _ nofun
    · exact .startPow _ _ _
  | decrypt =>
    rcases execDecrypt_cases h with ⟨-, rfl⟩ | ⟨-, rfl⟩ | ⟨-, -, rfl⟩
    · exact .fails _ nofun
    · exact .fails _ nofun
    · exact .startPow _ _ _
  | clrkey => cases h; exact .clearsKey hi
  | clrpub => cases h; exact .clearsPub hi
  | sign | verify => cases h; exact .fails _ nofun

theorem mpLoopStep_effect (hp : s.phase = .mpLoop) (h : mpLoopStep s = .next t) : BlockEffect s t := by
  rcases mpLoopStep_cases h with ⟨he, hc, rfl⟩ | ⟨-, -, rfl⟩
  · exact .delivers _ (.inl ⟨hp, he, rfl⟩) hc
  · exact .works _ _ _ rfl rfl (by simp [hp]) List.prefix_rfl

theorem miLoopStep_effect (hp : s.phase = .miLoop) (h : miLoopStep s = .next t) : BlockEffect s t := by
  rcases miLoopStep_cases h with ⟨-, rfl⟩ | ⟨-, -, rfl⟩ | ⟨h0, hr, -, hret, h⟩ | ⟨h0, hr, -, hret, h⟩
  · exact .works _ _ _ rfl rfl (by simp [hp]) List.prefix_rfl
  · exact .fails _ nofun
  · obtain ⟨hv, rfl⟩ := deliverResult_cases h
    exact .delivers _ (.inr ⟨hp, h0, hr, hret⟩) hv
  · obtain ⟨hbounds, rfl⟩ := commitKey_cases h
    exact .commits _ _ _ _ _ _ ⟨hp, h0, hr, hret⟩ (by simpa using hbounds)

theorem engineStep_effect (h : engineStep s = .next t) : s.phase ≠ .idle ∧ BlockEffect s t := by
  rcases engineStep_cases h with ⟨hp, i, hd, h⟩ | ⟨hp, r, -, rfl⟩ | ⟨hp, h⟩ | ⟨hp, h⟩ | ⟨hp, rfl⟩ | ⟨hp, rfl⟩ | ⟨hp, h⟩ <;>
    refine ⟨by simp [hp], ?_⟩
  · exact exec_effect ⟨hp, hd⟩ h
  · exact .fails _ nofun
  · exact mpLoopStep_effect hp h
  · exact miLoopStep_effect hp h
  · exact .works _ _ _ rfl rfl nofun (List.prefix_append _ _)
  · exact .works _ _ _ rfl rfl nofun (List.prefix_append _ _)
  · obtain ⟨-, -, rfl⟩ := kgDeriveStep_cases h
    exact .works _ _ _ rfl rfl nofun List.prefix_rfl

theorem rngReplyStep_effect {rnd : Nat} (h : rngReplyStep s rnd = .next t) : s.phase ≠ .idle ∧ BlockEffect s t := by
  obtain ⟨hp, -, -, rfl⟩ := rngReplyStep_cases h
  exact ⟨by simp [hp], .works _ _ _ rfl rfl nofun (List.prefix_append _ _)⟩

theorem primeReplyStep_effect {v : Bool} (h : primeReplyStep s v = .next t) : s.phase ≠ .idle ∧ BlockEffect s t := by
  obtain ⟨hp, ⟨-, -, rfl⟩ | ⟨-, -, rfl⟩ | ⟨-, rfl⟩⟩ := primeReplyStep_cases h <;>
    exact ⟨by simp [hp], .works _ _ _ rfl rfl nofun (List.prefix_append _ _)⟩

theorem step_effect (h : step s = .next t) : StepEffect s t := by
  rcases step_cases h with ⟨a, h⟩ | ⟨op, rest, ha, h⟩ | ⟨rest, -, rfl⟩ | ⟨rnd, a, h⟩ | ⟨v, a, h⟩ | ⟨rest, ha, rfl⟩ |
    ⟨-, a, rfl⟩
  · obtain ⟨hp, he⟩ := engineStep_effect h
    exact .block a hp he
  · rcases hostStep_cases h with ⟨off, -, -, rfl⟩ | ⟨off, v, rfl, -, rfl⟩
    · exact .read rest off
    · exact .write off v rest ha
  · obtain ⟨a, ha⟩ := pollStep_frame s rest
    rw [ha]
    exact .read a statusOff
  · obtain ⟨hp, he⟩ := rngReplyStep_effect h
    exact .block a hp he
  · obtain ⟨hp, he⟩ := primeReplyStep_effect h
    exact .block a hp he
  · exact .reset rest ha
  · exact .wait a

end Sys2Proof.Machine

/-! ## The rules of the big registers and the flags under these effects -/

namespace Sys2Proof.Machine

variable {s t : State}

theorem locate_big_inWindow {cfg : Config} {off k : Nat} {X : BigReg} (h : locate cfg off = .big X k) :
    inWindow cfg off X = true := by
  obtain ⟨hbase, rfl, hk⟩ := locate_big h
  exact decide_eq_true ⟨hbase, hk⟩

/-- A host write leaves the parameter, the trace, the answers and the two valid flags (20_memory.md R65). -/
theorem memWrite_frame (s : State) (off : Nat) (v : Word) :
    (s.memWrite off v).cfg = s.cfg ∧ (s.memWrite off v).trace = s.trace ∧ (s.memWrite off v).reads = s.reads ∧
      (s.memWrite off v).status.keyValid = s.status.keyValid ∧
      (s.memWrite off v).status.pubValid = s.status.pubValid := by
  rcases memWrite_cases s off v with e | ⟨-, e⟩ | ⟨-, -, e⟩ | ⟨-, -, e⟩ | ⟨-, e⟩ | ⟨X, k, -, -, e⟩ |
    ⟨X, k, -, -, -, e⟩ | ⟨X, k, -, -, -, e⟩ <;> rw [e] <;> exact ⟨rfl, rfl, rfl, rfl, rfl⟩

theorem writable_of_inKeySlot {X : BigReg} (h : X.inKeySlot = true) : s.writable X = !s.status.keyValid := by
  cases X with
  | keyP | keyQ | keyE | keyD | keyN | keyT => rfl
  | opa | opb | opm | res | pubE | pubN => cases h

theorem writable_of_inPublicSlot {X : BigReg} (h : X.inPublicSlot = true) : s.writable X = false := by
  cases X with
  | pubE | pubN => rfl
  | opa | opb | opm | res | keyP | keyQ | keyE | keyD | keyN | keyT => cases h

theorem setBr_br_of_inKeySlot {X Y : BigReg} (hX : X.inKeySlot = true) (hY : Y.inKeySlot = false) (v : Nat) :
    (s.setBr Y v).br X = s.br X :=
  s.setBr_br_other Y X v (by rintro rfl; simp [hX] at hY)

theorem setKeySlot_zero_br {X : BigReg} (h : X.inKeySlot = true) : (s.setKeySlot 0 0 0 0 0 0).br X = 0 := by
  cases X with
  | keyP | keyQ | keyE | keyD | keyN | keyT => rfl
  | opa | opb | opm | res | pubE | pubN => cases h

/-- A host write changes no register, or the one register of its window, which is open (20_memory.md R65, R66). -/
theorem memWrite_regs (s : State) (off : Nat) (v : Word) :
    (s.memWrite off v).regs = s.regs ∨
    ∃ X x, inWindow s.cfg off X = true ∧ s.status.busy = false ∧ s.writable X = true ∧ s.memWrite off v = s.setBr X x := by
  rcases memWrite_cases s off v with e | ⟨-, e⟩ | ⟨-, -, e⟩ | ⟨-, -, e⟩ | ⟨-, e⟩ | ⟨X, k, -, -, e⟩ |
    ⟨X, k, hl, hb, hw, e⟩ | ⟨X, k, -, -, -, e⟩
  case inr.inr.inr.inr.inr.inr.inl => exact .inr ⟨X, _, locate_big_inWindow hl, hb, hw, e⟩
  all_goals rw [e]; exact .inl rfl

theorem memWrite_br_of_ne {off : Nat} {v : Word} {X : BigReg} (h : (s.memWrite off v).br X ≠ s.br X) :
    inWindow s.cfg off X = true ∧ s.status.busy = false ∧ s.writable X = true := by
  rcases memWrite_regs s off v with e | ⟨Y, x, hY, hb, hw, e⟩
  · exact absurd (congrArg (fun g : BigRegs => g.get X) e) h
  · rw [e, State.setBr_br] at h
    by_cases hXY : X = Y
    · exact hXY ▸ ⟨hY, hb, hw⟩
    · exact absurd (if_neg hXY) h

/-- The engine and the replies leave the parameter, `CMD`, the answers and the violation flags; the trace grows. -/
theorem BlockEffect.frame (h : BlockEffect s t) :
    t.cfg = s.cfg ∧ t.cmd = s.cmd ∧ t.reads = s.reads ∧ s.trace <+: t.trace ∧
      t.status.busyViol = s.status.busyViol ∧ t.status.lockViol = s.status.lockViol := by
  cases h with
  | works h ph tr _ _ _ htr => exact ⟨rfl, rfl, rfl, htr, rfl, rfl⟩
  | fails | completes | delivers | commits | loads | projects | clearsKey | clearsPub =>
    exact ⟨rfl, rfl, rfl, List.prefix_rfl, rfl, rfl⟩

/-- No command writes an operand register (10_state.md R22, R23, R24). -/
theorem BlockEffect.br_operand (h : BlockEffect s t) {X : BigReg} (hX : X = .opa ∨ X = .opb ∨ X = .opm) :
    t.br X = s.br X := by
  cases h <;> rcases hX with rfl | rfl | rfl <;> rfl

/-! ### The parameter, the trace and the answers -/

theorem step_grows (h : step s = .next t) : t.cfg = s.cfg ∧ s.trace <+: t.trace ∧ s.reads <+: t.reads := by
  cases step_effect h with
  | block a _ he =>
    obtain ⟨hcfg, -, hreads, htrace, -, -⟩ := he.frame
    exact ⟨hcfg, htrace, hreads ▸ List.prefix_rfl⟩
  | read a off => exact ⟨rfl, List.prefix_rfl, List.prefix_append _ _⟩
  | write off v rest _ =>
    obtain ⟨hcfg, htrace, hreads, -, -⟩ := memWrite_frame { s with agenda := rest } off v
    rw [hcfg, htrace, hreads]
    exact ⟨rfl, List.prefix_rfl, List.prefix_rfl⟩
  | reset | wait => exact ⟨rfl, List.prefix_rfl, List.prefix_rfl⟩

/-- Settles O57, by induction on the number of steps. -/
theorem parameterIsConstant : Obligations.ParameterIsConstant := by
  intro k
  induction k with
  | zero =>
    intro s t h
    cases h
    exact ⟨rfl, List.prefix_rfl, List.prefix_rfl⟩
  | succ k ih =>
    intro s t h
    cases hs : step s with
    | next u =>
      obtain ⟨hcfg, htrace, hreads⟩ := step_grows hs
      obtain ⟨hcfg', htrace', hreads'⟩ := ih u t (run_succ k hs ▸ h)
      exact ⟨hcfg'.trans hcfg, htrace.trans htrace', hreads.trans hreads'⟩
    | fault r | refused r => simp [run, hs] at h

/-! ### The operand and result registers -/

/-- Settles O49: no command writes an operand register, and a host write changes only the register of its window. -/
theorem operandsWrittenOnlyByHost : Obligations.OperandsWrittenOnlyByHost := by
  intro s t X hX h hne
  cases step_effect h with
  | block a _ he => exact absurd (he.br_operand hX) hne
  | read | wait => exact absurd rfl hne
  | write off v rest ha =>
    obtain ⟨hw, hb, -⟩ := memWrite_br_of_ne hne
    exact .inr ⟨off, v, ⟨rest, ha⟩, hw, hb⟩
  | reset rest ha => exact .inl ⟨rest, ha⟩

/-- Settles O50: among the effects of a step only the delivery of a result and reset write `RES`. -/
theorem resWrittenOnlyBySuccess : Obligations.ResWrittenOnlyBySuccess := by
  intro s t h hne
  cases step_effect h with
  | block a _ he =>
    cases he with
    | delivers v hv _ =>
      refine .inr ⟨rfl, rfl, rfl, rfl, ?_⟩
      rcases hv with ⟨hp, he, rfl⟩ | hinv
      · exact .inl ⟨hp, he, rfl⟩
      · exact .inr hinv
    | works | fails | completes | commits | loads | projects | clearsKey | clearsPub => exact absurd rfl hne
  | read | wait => exact absurd rfl hne
  | write off v rest ha =>
    obtain ⟨-, -, hw⟩ := memWrite_br_of_ne hne
    cases hw
  | reset rest ha => exact .inl ⟨rest, ha⟩

/-! ### The slots -/

/-- Settles O52: among the effects of a step only `PROJECT`, `CLRPUB` and reset reach the public slot. -/
theorem publicSlotLifecycle : Obligations.PublicSlotLifecycle := by
  intro s t h
  cases step_effect h with
  | block a _ he =>
    cases he with
    | projects hi hk hp => exact .inr (.inl ⟨hi.1, hi.2, hk, hp, rfl, rfl, rfl, rfl, rfl⟩)
    | clearsPub hi => exact .inr (.inr (.inl ⟨hi.1, hi.2, rfl, rfl, rfl⟩))
    | works | fails | completes | delivers | commits | loads | clearsKey => exact .inl ⟨rfl, rfl, rfl⟩
  | read | wait => exact .inl ⟨rfl, rfl, rfl⟩
  | write off v rest ha =>
    obtain ⟨-, -, -, -, hpub⟩ := memWrite_frame { s with agenda := rest } off v
    have closed {X : BigReg} (hX : X.inPublicSlot = true) :
        (State.memWrite { s with agenda := rest } off v).br X = s.br X := by
      by_contra hne
      obtain ⟨-, -, hw⟩ := memWrite_br_of_ne hne
      simp [writable_of_inPublicSlot hX] at hw
    exact .inl ⟨closed rfl, closed rfl, hpub⟩
  | reset rest ha => exact .inr (.inr (.inr ⟨rest, ha⟩))

/-- The key slot of `t` is that of `s`: its valid flag and its six registers. -/
def State.KeepsKeySlot (s t : State) : Prop :=
  t.status.keyValid = s.status.keyValid ∧ ∀ X : BigReg, X.inKeySlot = true → t.br X = s.br X

/-- Every step leaves the key slot alone, or is one of the five that change it (10_state.md R26, R27). -/
theorem step_keySlot (h : step s = .next t) :
    s.KeepsKeySlot t ∨
    (s.Checks .loadkey ∧ s.status.keyValid = false ∧ t.regs = s.regs ∧ t.status.keyValid = true) ∨
    (s.AtCommit ∧ t.status.keyValid = true) ∨
    (s.Checks .clrkey ∧ t.status.keyValid = false ∧ ∀ X : BigReg, X.inKeySlot = true → t.br X = 0) ∨
    (s.status.keyValid = false ∧ t.status.keyValid = false ∧ s.status.busy = false ∧
      ∃ off v, s.NextIsWrite off v ∧ ∀ X, t.br X ≠ s.br X → inWindow s.cfg off X = true) ∨
    (s.NextIsReset ∧ t.status.keyValid = false) := by
  cases step_effect h with
  | block a _ he =>
    cases he with
    | loads hi hk => exact .inr (.inl ⟨hi, hk, rfl, rfl⟩)
    | commits _ _ _ _ _ _ hc _ => exact .inr (.inr (.inl ⟨hc, rfl⟩))
    | clearsKey hi => exact .inr (.inr (.inr (.inl ⟨hi, rfl, fun _ hX => setKeySlot_zero_br hX⟩)))
    | works | fails | completes => exact .inl ⟨rfl, fun _ _ => rfl⟩
    | delivers v => exact .inl ⟨rfl, fun _ hX => setBr_br_of_inKeySlot hX rfl v⟩
    | projects | clearsPub =>
      exact .inl ⟨rfl, fun _ hX => (setBr_br_of_inKeySlot hX rfl _).trans (setBr_br_of_inKeySlot hX rfl _)⟩
  | read | wait => exact .inl ⟨rfl, fun _ _ => rfl⟩
  | write off v rest ha =>
    obtain ⟨-, -, -, hkey, -⟩ := memWrite_frame { s with agenda := rest } off v
    by_cases hkeep : ∀ X : BigReg, X.inKeySlot = true → (State.memWrite { s with agenda := rest } off v).br X = s.br X
    · exact .inl ⟨hkey, hkeep⟩
    · push Not at hkeep
      obtain ⟨X, hX, hne⟩ := hkeep
      obtain ⟨-, hb, hw⟩ := memWrite_br_of_ne hne
      have hk : s.status.keyValid = false := by simpa [writable_of_inKeySlot hX] using hw
      exact .inr (.inr (.inr (.inr (.inl ⟨hk, hkey.trans hk, hb, off, v, ⟨rest, ha⟩,
        fun Y hY => (memWrite_br_of_ne hY).1⟩))))
  | reset rest ha => exact .inr (.inr (.inr (.inr (.inr ⟨⟨rest, ha⟩, rfl⟩))))

/-- At the commit the slot is still empty (43_keygen.md R151, R159). -/
theorem State.Inv.slot_empty_of_atCommit (h : s.Inv) (hc : s.AtCommit) : s.status.keyValid = false := by
  obtain ⟨hp, -, -, hret⟩ := hc
  exact ((h.inverseInv hp).to_key hret).factors.slot_empty

/-- Settles O51: the steps that change the key slot, and the invariant's clause that the slot is empty at a commit. -/
theorem keySlotLifecycle : Obligations.KeySlotLifecycle := by
  intro s t hs h
  rcases step_keySlot h with ⟨hkey, hregs⟩ | ⟨⟨hp, hd⟩, hk, hregs, hk'⟩ | ⟨hc, hk'⟩ | ⟨⟨hp, hd⟩, hk', hzero⟩ |
    ⟨hk, hk', hb, off, v, hw, hwin⟩ | ⟨hr, hk'⟩
  · rw [hkey]
    exact ⟨fun h0 h1 => by simp [h0] at h1, fun h0 h1 => by simp [h0] at h1, fun _ _ => hregs,
      fun _ X hX hne => absurd (hregs X hX) hne⟩
  · rw [hk, hk']
    exact ⟨fun _ _ => .inl ⟨hp, hd, hregs⟩, nofun, nofun,
      fun _ X _ hne => absurd (congrArg (fun g : BigRegs => g.get X) hregs) hne⟩
  · have hk := hs.slot_empty_of_atCommit hc
    obtain ⟨hp, h0, hr, hret⟩ := hc
    rw [hk, hk']
    exact ⟨fun _ _ => .inr ⟨hp, h0, hret⟩, nofun, nofun, fun _ _ _ _ => .inr (.inr (.inl ⟨hp, h0, hr, hret, rfl⟩))⟩
  · rw [hk']
    exact ⟨nofun, fun _ _ => .inl ⟨hp, hd, hzero⟩, nofun,
      fun _ X hX _ => .inr (.inl ⟨hp, hd, rfl, hzero X hX⟩)⟩
  · rw [hk, hk']
    exact ⟨nofun, nofun, nofun, fun _ X _ hne => .inl ⟨hb, rfl, off, v, hw, hwin X hne⟩⟩
  · rw [hk']
    exact ⟨nofun, fun _ _ => .inr hr, nofun, fun _ _ _ _ => .inr (.inr (.inr hr))⟩

/-! ### The violation flags -/

/-- What a host write can do to `BUSY_VIOL` (10_state.md R34, R37). -/
theorem memWrite_busyViol (s : State) (off : Nat) (v : Word) :
    (s.memWrite off v).status.busyViol = s.status.busyViol ∨
    (off = statusOff ∧ (s.memWrite off v).status.busyViol = (s.status.busyViol && !v.getLsbD 5)) ∨
    (s.status.busy = true ∧ (s.memWrite off v).status.busyViol = true ∧
      (off = cmdOff ∨ ∃ X, inWindow s.cfg off X = true)) := by
  rcases memWrite_cases s off v with e | ⟨-, e⟩ | ⟨hl, hb, e⟩ | ⟨-, -, e⟩ | ⟨hl, e⟩ | ⟨X, k, hl, hb, e⟩ |
    ⟨X, k, -, -, -, e⟩ | ⟨X, k, -, -, -, e⟩
  case inr.inr.inl => rw [e]; exact .inr (.inr ⟨hb, rfl, .inl (locate_eq_cmd hl)⟩)
  case inr.inr.inr.inr.inl => rw [e]; exact .inr (.inl ⟨locate_eq_status hl, rfl⟩)
  case inr.inr.inr.inr.inr.inl => rw [e]; exact .inr (.inr ⟨hb, rfl, .inr ⟨X, locate_big_inWindow hl⟩⟩)
  all_goals rw [e]; exact .inl rfl

/-- What a host write can do to `LOCK_VIOL` (10_state.md R34, R37; 20_memory.md R68). -/
theorem memWrite_lockViol (s : State) (off : Nat) (v : Word) :
    (s.memWrite off v).status.lockViol = s.status.lockViol ∨
    (off = statusOff ∧ (s.memWrite off v).status.lockViol = (s.status.lockViol && !v.getLsbD 6)) ∨
    (s.status.busy = false ∧ (s.memWrite off v).status.lockViol = true ∧
      ∃ X, inWindow s.cfg off X = true ∧ s.writable X = false) := by
  rcases memWrite_cases s off v with e | ⟨-, e⟩ | ⟨-, -, e⟩ | ⟨-, -, e⟩ | ⟨hl, e⟩ | ⟨X, k, -, -, e⟩ |
    ⟨X, k, -, -, -, e⟩ | ⟨X, k, hl, hb, hw, e⟩
  case inr.inr.inr.inr.inl => rw [e]; exact .inr (.inl ⟨locate_eq_status hl, rfl⟩)
  case inr.inr.inr.inr.inr.inr.inr => rw [e]; exact .inr (.inr ⟨hb, rfl, X, locate_big_inWindow hl, hw⟩)
  all_goals rw [e]; exact .inl rfl

/-- Only a host write and reset change the violation flags (10_state.md R37). -/
theorem step_violationFlags (h : step s = .next t) :
    (t.status.busyViol = s.status.busyViol ∧ t.status.lockViol = s.status.lockViol) ∨
    (∃ off v rest, s.agenda = .host (.write off 4 v) :: rest ∧ t = State.memWrite { s with agenda := rest } off v) ∨
    (s.NextIsReset ∧ t.status.busyViol = false ∧ t.status.lockViol = false) := by
  cases step_effect h with
  | block a _ he =>
    obtain ⟨-, -, -, -, hbusy, hlock⟩ := he.frame
    exact .inl ⟨hbusy, hlock⟩
  | read | wait => exact .inl ⟨rfl, rfl⟩
  | write off v rest ha => exact .inr (.inl ⟨off, v, rest, ha, rfl⟩)
  | reset rest ha => exact .inr (.inr ⟨⟨rest, ha⟩, rfl, rfl⟩)

/-- Settles O55, from what a host write does to each flag. -/
theorem violationFlagsAreSticky : Obligations.ViolationFlagsAreSticky := by
  intro s t h
  rcases step_violationFlags h with ⟨hbusy, hlock⟩ | ⟨off, v, rest, ha, rfl⟩ | ⟨hr, hbusy, hlock⟩
  · rw [hbusy, hlock]
    exact ⟨fun h0 h1 => by simp [h0] at h1, fun h0 h1 => by simp [h0] at h1, fun h0 h1 => by simp [h0] at h1,
      fun h0 h1 => by simp [h0] at h1⟩
  · have hw : s.NextIsWrite off v := ⟨rest, ha⟩
    refine ⟨fun h0 h1 => ?_, fun h0 h1 => ?_, fun h0 h1 => ?_, fun h0 h1 => ?_⟩
    · rcases memWrite_busyViol { s with agenda := rest } off v with e | ⟨rfl, e⟩ | ⟨-, e, -⟩
      · simp [e, h0] at h1
      · exact .inr ⟨v, hw, by simpa [e, h0] using h1⟩
      · simp [e] at h1
    · rcases memWrite_lockViol { s with agenda := rest } off v with e | ⟨rfl, e⟩ | ⟨-, e, -⟩
      · simp [e, h0] at h1
      · exact .inr ⟨v, hw, by simpa [e, h0] using h1⟩
      · simp [e] at h1
    · rcases memWrite_busyViol { s with agenda := rest } off v with e | ⟨-, e⟩ | ⟨hb, -, hoff⟩
      · simp [e, h0] at h1
      · simp [e, h0] at h1
      · exact ⟨hb, off, v, hw, hoff⟩
    · rcases memWrite_lockViol { s with agenda := rest } off v with e | ⟨-, e⟩ | ⟨hb, -, X, hX, hwr⟩
      · simp [e, h0] at h1
      · simp [e, h0] at h1
      · exact ⟨hb, off, v, X, hw, hX, hwr⟩
  · rw [hbusy, hlock]
    exact ⟨fun _ _ => .inl hr, fun _ _ => .inl hr, nofun, nofun⟩

end Sys2Proof.Machine

/-! ## STATUS, CTRL, the interrupt line and reset -/

namespace Sys2Proof.Machine

variable {s t : State}

/-! ### The control words as read and written -/

@[simp] theorem State.memRead_ctrl (s : State) : s.memRead ctrlOff = ctrlWord s.ctrl := rfl
@[simp] theorem State.memRead_status (s : State) : s.memRead statusOff = statusWord s.status := rfl
@[simp] theorem State.memWrite_ctrl (s : State) (v : Word) : s.memWrite ctrlOff v = { s with ctrl := ctrlOf v } := rfl
@[simp] theorem State.memWrite_status (s : State) (v : Word) : s.memWrite statusOff v = s.acknowledge v := rfl

/-- `STATUS` bit by bit (10_state.md R34). -/
theorem statusWord_getLsbD (st : Status) (i : Nat) :
    (statusWord st).getLsbD i =
      if i = 0 then st.busy else if i = 1 then st.done else if i = 2 then st.err else if i = 3 then st.keyValid
      else if i = 4 then st.pubValid else if i = 5 then st.busyViol else if i = 6 then st.lockViol
      else if i = 7 then false else st.errcode.getLsbD (i - 8) := by
  refine (BitVec.getLsbD_append (m := 1)).trans ?_
  simp only [BitVec.getLsbD_append, BitVec.getLsbD_ofBool]
  match i with
  | 0 | 1 | 2 | 3 | 4 | 5 | 6 | 7 => simp
  | i + 8 => simpa using BitVec.lt_of_getLsbD

theorem statusWord_errcode (st : Status) : (statusWord st).extractLsb' 8 8 = st.errcode := by
  refine BitVec.eq_of_getLsbD_eq fun i hi => ?_
  rw [BitVec.getLsbD_extractLsb', Nat.add_comm, statusWord_getLsbD]
  simp [hi]

theorem statusWord_reserved (st : Status) : (statusWord st).extractLsb' 16 16 = 0#16 := by
  refine BitVec.eq_of_getLsbD_eq fun i hi => ?_
  rw [BitVec.getLsbD_extractLsb', Nat.add_comm, statusWord_getLsbD]
  simp

/-- `CTRL` bit by bit (10_state.md R32). -/
theorem ctrlWord_getLsbD (c : Ctrl) (i : Nat) :
    (ctrlWord c).getLsbD i = if i = 0 then c.ieDone else if i = 1 then c.ieErr else false := by
  refine (BitVec.getLsbD_append (m := 1)).trans ?_
  simp only [BitVec.getLsbD_append, BitVec.getLsbD_ofBool]
  match i with
  | 0 | 1 | i + 2 => simp

/-- `CTRL` reads the two kept bits of the word written to it (10_state.md R32). -/
theorem ctrlWord_ctrlOf (v : Word) : ctrlWord (ctrlOf v) = v &&& 0x00000003#32 := by
  refine BitVec.eq_of_getLsbD_eq fun i hi => ?_
  rw [ctrlWord_getLsbD, BitVec.getLsbD_and]
  match i with
  | 0 | 1 => simp [ctrlOf]
  | i + 2 => simp [BitVec.getLsbD_ofNat, Nat.testBit_add]

theorem and_not_eq_ite (a b : Bool) : (a && !b) = if b then false else a := by cases b <;> simp

/-- Settles O15, bit by bit. -/
theorem statusReadsAndClears : Obligations.StatusReadsAndClears := by
  intro s
  refine ⟨?_, fun v => ?_⟩
  · rw [State.memRead_status]
    simp only [statusWord_getLsbD, statusWord_errcode, statusWord_reserved]
    simp
  · rw [State.memWrite_status]
    simp only [State.acknowledge, Status.cleared, and_not_eq_ite]

/-- Settles O16: a write to `CTRL` replaces its two bits, which are all that a read shows. -/
theorem ctrlKeepsTwoBits : Obligations.CtrlKeepsTwoBits := by
  intro s v
  exact ⟨rfl, ctrlWord_ctrlOf v⟩

/-- Settles O20: the bits read are the flags, and each of the four actions sets the flags the line is made of. -/
theorem irqFollowsTheFlags : Obligations.IrqFollowsTheFlags := by
  intro s
  refine ⟨?_, fun v => ?_, fun k => ?_, fun v h1 h2 => ?_, ?_⟩
  · rw [State.memRead_ctrl, State.memRead_status]
    simp only [State.irq, ctrlWord_getLsbD, statusWord_getLsbD]
    rfl
  · simp [State.irq]
  · simp [State.irq]
  · rw [State.memWrite_status]
    simp [State.irq, h1, h2]
  · rw [State.memWrite_ctrl]
    simp [State.irq, ctrlOf]

/-! ### Reset -/

@[simp] theorem State.resetFor_br (cfg : Config) (X : BigReg) : (State.resetFor cfg).br X = 0 := by cases X <;> rfl

theorem ctrlWord_reset : ctrlWord ⟨false, false⟩ = 0 := by decide

theorem statusWord_reset : statusWord ⟨false, false, false, false, false, false, false, 0⟩ = 0 := by decide

theorem configWord_reference : configWord Config.reference = 0x00190808#32 := by decide

/-- Settles O44: reset puts every field a read or the interrupt line shows at its reset value. -/
theorem resetClearsTheBlock : Obligations.ResetClearsTheBlock := by
  refine ⟨fun s rest ha => ⟨State.applyReset { s with agenda := rest }, by simp [step, takeTurn, ha], ?_⟩, ?_⟩
  · exact ⟨State.applyReset_br _, rfl, rfl, ctrlWord_reset, rfl, statusWord_reset, rfl, rfl, rfl, rfl, rfl⟩
  · exact ⟨State.resetFor_br _, rfl, configWord_reference, ctrlWord_reset, rfl, statusWord_reset, rfl, rfl, rfl⟩

/-- Everything but the parameter is at its reset value, so the invariant holds of it. -/
theorem State.Inv.of_resetFor {cfg : Config} (hc : cfg.Ok) : (State.resetFor cfg).Inv where
  cfg_ok := hc
  regs X := State.resetFor_br cfg X ▸ Nat.two_pow_pos _
  status := ⟨by simp [State.resetFor], by simp [State.resetFor], nofun, by simp [State.resetFor, producedCodes]⟩
  latched := nofun
  phase := trivial

/-- Settles O45, for every admitted width. -/
theorem resetMeetsInvariant : Obligations.ResetMeetsInvariant := fun _ hc => State.Inv.of_resetFor hc

end Sys2Proof.Machine

/-! ## The state invariant is kept, clause by clause

The registers, the flags and the latched command follow from the effect of a step; the clause about the working values
follows phase by phase from what the step loads, computes or samples. -/

namespace Sys2Proof.Machine

variable {s t : State}

/-! ### Phase and flags -/

theorem ErrKind.code_ne_zero (k : ErrKind) : k.code ≠ 0#8 := by cases k <;> decide

/-- Every code but the reserved one is in the table (60_exceptions.md R200, R203). -/
theorem ErrKind.code_mem_producedCodes {k : ErrKind} (h : k ≠ .invalidEncoding) : k.code ∈ producedCodes := by
  cases k with
  | invalidEncoding => exact absurd rfl h
  | notInvertible | blockTooLarge | illegalCmd | unimplemented | range | width | noKey | keyLocked => decide

/-- A completion without error, whatever it does to the two valid flags (60_exceptions.md R211). -/
theorem State.StatusConsistent.of_completed (h : s.StatusConsistent) (hp : t.phase = .idle) {key pub : Bool}
    (ht : t.status = { s.status.completed with keyValid := key, pubValid := pub }) : t.StatusConsistent where
  busy_iff := by simp [ht, hp, Status.completed]
  err_iff := by rw [ht]; exact h.err_iff
  running_clear := by rw [ht]; nofun
  code_listed := by rw [ht]; exact h.code_listed

theorem State.StatusConsistent.raiseErr {k : ErrKind} (hk : k ≠ .invalidEncoding) : (s.raiseErr k).StatusConsistent where
  busy_iff := by simp
  err_iff := by simp [k.code_ne_zero]
  running_clear := nofun
  code_listed := k.code_mem_producedCodes hk

theorem BlockEffect.statusConsistent (he : BlockEffect s t) (hp : s.phase ≠ .idle) (h : s.StatusConsistent) :
    t.StatusConsistent := by
  cases he with
  | works g ph tr _ _ hph _ =>
    exact ⟨⟨fun _ => hph, fun _ => h.busy_iff.mpr hp⟩, h.err_iff, h.running_clear, h.code_listed⟩
  | fails k hk => exact .raiseErr hk
  | completes | delivers | commits | loads | projects | clearsKey | clearsPub => exact h.of_completed rfl rfl

theorem State.StatusConsistent.issue (s : State) (v : Word) : (s.issue v).StatusConsistent where
  busy_iff := by simp
  err_iff := by simp
  running_clear := by simp
  code_listed := by simp [producedCodes]

theorem State.StatusConsistent.acknowledge (h : s.StatusConsistent) (v : Word) : (s.acknowledge v).StatusConsistent where
  busy_iff := h.busy_iff
  err_iff := by
    change (s.status.err && !v.getLsbD 2) = true ↔ (if v.getLsbD 2 then 0 else s.status.errcode) ≠ 0
    cases v.getLsbD 2
    · simpa using h.err_iff
    · simp
  running_clear hb := by
    obtain ⟨hd, he⟩ := h.running_clear hb
    simp [hd, he]
  code_listed := by
    change (if v.getLsbD 2 then 0 else s.status.errcode) ∈ producedCodes
    split
    · exact List.mem_cons_self
    · exact h.code_listed

theorem State.StatusConsistent.memWrite (h : s.StatusConsistent) (off : Nat) (v : Word) :
    (s.memWrite off v).StatusConsistent := by
  rcases memWrite_cases s off v with e | ⟨-, e⟩ | ⟨-, -, e⟩ | ⟨-, -, e⟩ | ⟨-, e⟩ | ⟨X, k, -, -, e⟩ |
    ⟨X, k, -, -, -, e⟩ | ⟨X, k, -, -, -, e⟩ <;> rw [e]
  case inr.inr.inr.inl => exact .issue s v
  case inr.inr.inr.inr.inl => exact h.acknowledge v
  all_goals exact { h with }

theorem step_statusConsistent (h : s.StatusConsistent) (hst : step s = .next t) : t.StatusConsistent := by
  cases step_effect hst with
  | block a hp he => exact he.statusConsistent hp (h.with_agenda a)
  | read | wait => exact { h with }
  | write off v rest _ => exact (h.with_agenda rest).memWrite off v
  | reset rest _ => exact ⟨by simp, by simp, nofun, by simp [producedCodes]⟩

/-- Settles O48: in every effect of a step the flags move with the phase. -/
theorem statusStaysConsistent : Obligations.StatusStaysConsistent := fun _ _ h hst => step_statusConsistent h hst

/-! ### The registers -/

theorem setKeySlot_regsInRange (h : s.RegsInRange) {p q e d n t : Nat}
    (hx : ∀ x ∈ [p, q, e, d, n, t], x < s.cfg.bound) : (s.setKeySlot p q e d n t).RegsInRange := by
  intro X
  cases X
  case keyP | keyQ | keyE | keyD | keyN | keyT => exact hx _ (by simp [State.br, BigRegs.get])
  case opa => exact h .opa
  case opb => exact h .opb
  case opm => exact h .opm
  case res => exact h .res
  case pubE => exact h .pubE
  case pubN => exact h .pubN

theorem BlockEffect.regsInRange (he : BlockEffect s t) (h : s.RegsInRange) : t.RegsInRange := by
  have hzero : 0 < s.cfg.bound := Nat.two_pow_pos _
  cases he with
  | works | fails | completes | loads => exact regsInRange_of_same h rfl rfl
  | delivers v _ hv => exact regsInRange_of_same (setBr_regsInRange h .res hv) rfl rfl
  | commits p q e d n t _ hx => exact regsInRange_of_same (setKeySlot_regsInRange h hx) rfl rfl
  | projects =>
    exact regsInRange_of_same
      (setBr_regsInRange (setBr_regsInRange h .pubE (h .keyE)) .pubN (h .keyN)) rfl rfl
  | clearsKey => exact regsInRange_of_same (setKeySlot_regsInRange h (by simp)) rfl rfl
  | clearsPub =>
    exact regsInRange_of_same (setBr_regsInRange (setBr_regsInRange h .pubE hzero) .pubN hzero) rfl rfl

theorem step_regsInRange (hc : s.cfg.Ok) (h : s.RegsInRange) (hst : step s = .next t) : t.RegsInRange := by
  cases step_effect hst with
  | block a _ he => exact he.regsInRange (regsInRange_of_same h rfl rfl)
  | read | wait => exact regsInRange_of_same h rfl rfl
  | write off v rest _ =>
    exact memWrite_regsInRange (s := { s with agenda := rest }) hc (regsInRange_of_same h rfl rfl) off v
  | reset rest _ => exact fun X => State.applyReset_br _ X ▸ Nat.two_pow_pos _

/-! ### The latched command -/

/-- While a command runs the hidden opcode and argument are those of `CMD` (30_encoding.md R103). -/
def State.Latched (s : State) : Prop := s.status.busy = true → s.hid.op = opcodeOf s.cmd ∧ s.hid.arg = argOf s.cmd

theorem step_latched (h : s.Latched) (hst : step s = .next t) : t.Latched := by
  cases step_effect hst with
  | block a _ he =>
    cases he with
    | works g ph tr hop harg _ _ => exact fun hb => ⟨hop.trans (h hb).1, harg.trans (h hb).2⟩
    | fails | completes | delivers | commits | loads | projects | clearsKey | clearsPub => nofun
  | read | wait => exact h
  | write off v rest _ =>
    rcases memWrite_cases { s with agenda := rest } off v with e | ⟨-, e⟩ | ⟨-, -, e⟩ | ⟨-, -, e⟩ | ⟨-, e⟩ |
      ⟨X, k, -, -, e⟩ | ⟨X, k, -, -, -, e⟩ | ⟨X, k, -, -, -, e⟩ <;> rw [e]
    case inr.inr.inr.inl => exact fun _ => ⟨rfl, rfl⟩
    all_goals exact h
  | reset rest _ => nofun

/-! ### The working values: what is loaded -/

theorem raiseErr_phaseInv (s : State) (k : ErrKind) : (s.raiseErr k).PhaseInv := trivial

theorem finish_phaseInv (s : State) : s.finish.PhaseInv := trivial

/-- The exponentiation engine as a command loads it (42_modpow.md R140, R144). -/
theorem startPow_phaseInv (hcmd : decode s.cmd = .instr .modpow ∨ decode s.cmd = .instr .encrypt ∨
      decode s.cmd = .instr .decrypt) {b e m : Nat} (hm : 0 < m) (hb : m < s.cfg.bound) :
    (s.startPow b e m).PhaseInv :=
  show (s.startPow b e m).PowInv from
    { command := hcmd, m_pos := hm, m_bound := hb, b_lt := Nat.mod_lt b hm, c_lt := .inr rfl }

/-- The Euclidean pairs as they are loaded (41_modinv.md R130, R136). -/
theorem startInverse_magnitudes {a n : Nat} (hn : 1 ≤ n) (ret : Ret) : (s.startInverse a n ret).hid.EuclidMagnitudes where
  n_pos := hn
  r_pos := hn
  opposite := by simp
  weight := by simp
  t_bound := by simp

/-- The congruences of the pairs as they are loaded (41_modinv.md R134). -/
theorem startInverse_euclidFor (a n : Nat) (ret : Ret) : (s.startInverse a n ret).hid.EuclidFor a where
  r_cong := by simp
  newr_cong := by simp
  gcd_eq := Nat.gcd_comm n a

/-- Every working value a CHECK part loads is in order (30_encoding.md R104 case 2). -/
theorem exec_phaseInv {i : Instr} (hr : s.RegsInRange) (hd : decode s.cmd = .instr i) (h : exec i s = .next t) :
    t.PhaseInv := by
  cases i with
  | nop | clrkey | clrpub | sign | verify => cases h; trivial
  | modpow =>
    rcases execModpow_cases h with ⟨-, rfl⟩ | ⟨hm, rfl⟩
    · exact raiseErr_phaseInv s _
    · exact startPow_phaseInv (.inl hd) (Nat.pos_of_ne_zero hm) (hr .opm)
  | modinv =>
    rcases execModinv_cases h with ⟨-, rfl⟩ | ⟨hm, rfl⟩
    · exact raiseErr_phaseInv s _
    · exact show State.InverseInv _ from
        ⟨startInverse_magnitudes (Nat.pos_of_ne_zero hm) .toRes, hr .opm, fun _ => hd, nofun⟩
  | genkey w =>
    rcases execGenkey_cases h with ⟨-, rfl⟩ | ⟨-, rfl⟩ | ⟨hlow, hhigh, hk, rfl⟩
    · exact raiseErr_phaseInv s _
    · exact raiseErr_phaseInv s _
    · exact show State.SamplingInv _ from ⟨hd, hlow, hhigh, hk, nofun⟩
  | derive =>
    rcases execDerive_cases h with ⟨-, rfl⟩ | ⟨-, rfl⟩ | ⟨hk, hp, hq, hne, hpq, rfl⟩
    · exact raiseErr_phaseInv s _
    · exact raiseErr_phaseInv s _
    · exact show State.FactorsInv _ from ⟨.inl hd, hp, hq, hne, hpq, hk, fun w hw => by cases hd.symm.trans hw⟩
  | loadkey => rcases execLoadkey_cases h with ⟨-, rfl⟩ | ⟨-, rfl⟩ <;> trivial
  | project => rcases execProject_cases h with ⟨-, rfl⟩ | ⟨-, rfl⟩ | ⟨-, -, rfl⟩ <;> trivial
  | encrypt =>
    rcases execEncrypt_cases h with ⟨-, rfl⟩ | ⟨-, rfl⟩ | ⟨-, hlt, rfl⟩
    · exact raiseErr_phaseInv s _
    · exact raiseErr_phaseInv s _
    · exact startPow_phaseInv (.inr (.inl hd)) (Nat.zero_lt_of_lt hlt) (hr .pubN)
  | decrypt =>
    rcases execDecrypt_cases h with ⟨-, rfl⟩ | ⟨-, rfl⟩ | ⟨-, hn, rfl⟩
    · exact raiseErr_phaseInv s _
    · exact raiseErr_phaseInv s _
    · exact startPow_phaseInv (.inr (.inr hd)) (Nat.pos_of_ne_zero hn) (hr .keyN)

/-! ### The working values: the loops -/

theorem mpLoopStep_phaseInv (hp : s.phase = .mpLoop) (h : s.PowInv) (hst : mpLoopStep s = .next t) : t.PhaseInv := by
  rcases mpLoopStep_cases hst with ⟨-, -, rfl⟩ | ⟨-, -, rfl⟩
  · exact finish_phaseInv _
  · have hround : State.PowInv { s with hid := s.hid.powRound } :=
      { command := h.command, m_pos := h.m_pos, m_bound := h.m_bound, b_lt := Nat.mod_lt _ h.m_pos
        c_lt := by
          simp only [Hidden.powRound]
          split
          · exact .inl (Nat.mod_lt _ h.m_pos)
          · exact h.c_lt }
    simpa only [State.PhaseInv, hp] using hround

/-- A round keeps the pending key: it works on the pairs alone (41_modinv.md R134; 43_keygen.md R154). -/
theorem State.PendingKeyInv.euclidRound (h : s.PendingKeyInv) :
    State.PendingKeyInv { s with hid := s.hid.euclidRound } where
  factors := { h.factors with }
  nmod_eq := h.nmod_eq
  tot_eq := h.tot_eq
  n_eq := h.n_eq
  pairs := euclidRound_congruences h.pairs

theorem miLoopStep_phaseInv (hp : s.phase = .miLoop) (h : s.InverseInv) (hst : miLoopStep s = .next t) :
    t.PhaseInv := by
  rcases miLoopStep_cases hst with ⟨h0, rfl⟩ | ⟨-, -, rfl⟩ | ⟨-, -, -, -, hst⟩ | ⟨-, -, -, -, hst⟩
  · have hround : State.InverseInv { s with hid := s.hid.euclidRound } :=
      { magnitudes := euclidRound_magnitudes h.magnitudes h0
        n_bound := h.n_bound
        to_res := h.to_res
        to_key := fun hret => (h.to_key hret).euclidRound }
    simpa only [State.PhaseInv, hp] using hround
  · exact raiseErr_phaseInv s _
  · obtain ⟨-, rfl⟩ := deliverResult_cases hst
    exact finish_phaseInv _
  · obtain ⟨-, rfl⟩ := commitKey_cases hst
    exact finish_phaseInv _

/-! ### The working values: prime sampling -/

theorem Sampled.mono {tr tr' : List PortEvent} {w x : Nat} (h : Sampled tr w x) (htr : tr <+: tr') : Sampled tr' w x where
  low := h.low
  high := h.high
  accepted := h.accepted.trans htr.isInfix

/-- Sampling goes on with a longer trace, whatever the candidate (40_prime_sampling.md R120). -/
theorem State.SamplingInv.extend (h : s.SamplingInv) {tr : List PortEvent} (htr : s.trace <+: tr) (ph : Phase)
    (cand : Nat) : State.SamplingInv { s with hid := { s.hid with cand := cand }, phase := ph, trace := tr } where
  command := h.command
  w_low := h.w_low
  w_high := h.w_high
  slot_empty := h.slot_empty
  p_found hq := (h.p_found hq).mono htr

theorem State.SamplingInv.one_le_w (h : s.SamplingInv) : 1 ≤ s.hid.w := le_trans (by decide) h.w_low

/-- A sampled prime is at least 2 (40_prime_sampling.md R122). -/
theorem Sampled.two_le {tr : List PortEvent} {w x : Nat} (h : Sampled tr w x) (hw : 8 ≤ w) : 2 ≤ x :=
  calc 2 = 2 ^ 1 := rfl
    _ ≤ 2 ^ (w - 1) := Nat.pow_le_pow_right (by decide) (by omega)
    _ ≤ x := h.low

/-- A candidate that the environment calls probably prime is sampled (40_prime_sampling.md R124, R127). -/
theorem State.CandidateInv.sampled (h : s.CandidateInv)
    (hreq : [PortEvent.primeRequest s.hid.cand Config.ptRounds] <:+ s.trace) :
    Sampled (s.trace ++ [.primeReply true]) s.hid.w s.hid.cand where
  low := h.1
  high := h.2
  accepted := by
    obtain ⟨before, hbefore⟩ := hreq
    exact ⟨before, [], by simp [← hbefore]⟩

/-- Two distinct sampled primes of an admitted width are factors for a key (43_keygen.md R153). -/
theorem State.SamplingInv.factorsInv (h : s.SamplingInv) (ht : t.cfg = s.cfg ∧ t.cmd = s.cmd ∧ t.status = s.status)
    (hp : Sampled t.trace s.hid.w t.hid.p) (hq : Sampled t.trace s.hid.w t.hid.q) (hne : t.hid.p ≠ t.hid.q) :
    t.FactorsInv := by
  obtain ⟨hcfg, hcmd, hstatus⟩ := ht
  have hcommand := h.command
  have hhalf : s.hid.w ≤ s.cfg.nw / 2 := h.w_high
  have hwide : 2 * s.hid.w ≤ s.cfg.nw := by omega
  rw [← hcmd] at hcommand
  refine ⟨.inr ⟨_, hcommand⟩, hp.two_le h.w_low, hq.two_le h.w_low, hne, ?_, hstatus ▸ h.slot_empty, fun w hw => ?_⟩
  · rw [hcfg]; exact mul_lt_two_pow hp.high hq.high hwide
  · cases hcommand.symm.trans hw
    exact ⟨h.w_low, hp, hq⟩

theorem rngReplyStep_phaseInv {rnd : Nat} (h : s.PhaseInv) (hst : rngReplyStep s rnd = .next t) : t.PhaseInv := by
  obtain ⟨hp, -, -, rfl⟩ := rngReplyStep_cases hst
  have hs : s.SamplingInv := by simpa only [State.PhaseInv, hp] using h
  exact ⟨hs.extend (List.prefix_append _ _) _ _, candidateOf_bounds hs.one_le_w rnd⟩

theorem primeReplyStep_phaseInv {verdict : Bool} (h : s.PhaseInv) (hst : primeReplyStep s verdict = .next t) :
    t.PhaseInv := by
  obtain ⟨hp, hcases⟩ := primeReplyStep_cases hst
  have hs : s.SamplingInv ∧ s.CandidateInv ∧ [PortEvent.primeRequest s.hid.cand Config.ptRounds] <:+ s.trace := by
    simpa only [State.PhaseInv, hp] using h
  obtain ⟨hs, hcand, hreq⟩ := hs
  rcases hcases with ⟨ha, hw, rfl⟩ | ⟨ha, hw, rfl⟩ | ⟨-, rfl⟩
  · obtain ⟨rfl, -⟩ : verdict = true ∧ _ := by simpa only [Hidden.accepts, Bool.and_eq_true] using ha
    exact show State.SamplingInv _ from
      ⟨hs.command, hs.w_low, hs.w_high, hs.slot_empty, fun _ => hcand.sampled hreq⟩
  · obtain ⟨rfl, hne⟩ : verdict = true ∧ s.hid.cand ≠ s.hid.p := by simpa [Hidden.accepts, hw] using ha
    exact hs.factorsInv ⟨rfl, rfl, rfl⟩ ((hs.p_found hw).mono (List.prefix_append _ _)) (hcand.sampled hreq) hne.symm
  · exact hs.extend (List.prefix_append _ _) .kgDraw s.hid.cand

/-- The key derivation loads the inverse of the public exponent (43_keygen.md R154). -/
theorem kgDeriveStep_phaseInv (h : s.FactorsInv) (hst : kgDeriveStep s = .next t) : t.PhaseInv := by
  obtain ⟨-, -, rfl⟩ := kgDeriveStep_cases hst
  have htot := two_le_totient h.p_low h.q_low h.distinct
  have hbound : (s.hid.p - 1) * (s.hid.q - 1) < s.cfg.bound :=
    lt_of_le_of_lt (Nat.mul_le_mul (Nat.sub_le _ _) (Nat.sub_le _ _)) h.product
  exact show State.InverseInv _ from
    { magnitudes := startInverse_magnitudes (by omega) .toKey
      n_bound := hbound
      to_res := nofun
      to_key := fun _ =>
        { factors := { h with }, nmod_eq := rfl, tot_eq := rfl, n_eq := rfl
          pairs := startInverse_euclidFor _ _ .toKey } }

/-! ### The working values: every step -/

theorem engineStep_phaseInv (h : s.Inv) (hst : engineStep s = .next t) : t.PhaseInv := by
  have hphase := h.phase
  rcases engineStep_cases hst with ⟨-, i, hd, hst⟩ | ⟨-, r, -, rfl⟩ | ⟨hp, hst⟩ | ⟨hp, hst⟩ | ⟨hp, rfl⟩ | ⟨hp, rfl⟩ |
    ⟨hp, hst⟩
  · exact exec_phaseInv h.regs hd hst
  · exact raiseErr_phaseInv s _
  · exact mpLoopStep_phaseInv hp (h.powInv hp) hst
  · exact miLoopStep_phaseInv hp (h.inverseInv hp) hst
  · have hs : s.SamplingInv := by simpa only [State.PhaseInv, hp] using hphase
    exact hs.extend (List.prefix_append _ _) .kgRngWait s.hid.cand
  · obtain ⟨hs, hcand⟩ : s.SamplingInv ∧ s.CandidateInv := by simpa only [State.PhaseInv, hp] using hphase
    exact ⟨hs.extend (List.prefix_append _ _) .kgPtWait s.hid.cand, hcand, List.suffix_append _ _⟩
  · exact kgDeriveStep_phaseInv (h.factorsInv hp) hst

/-- The clause about the working values reads only the parameter, `CMD`, the key flag, the phase, the hidden values and
the trace. -/
theorem State.PhaseInv.of_same (h : s.PhaseInv) (hcfg : t.cfg = s.cfg) (hcmd : t.cmd = s.cmd)
    (hkey : t.status.keyValid = s.status.keyValid) (hp : t.phase = s.phase) (hhid : t.hid = s.hid)
    (htr : t.trace = s.trace) : t.PhaseInv := by
  have hsampling (h : s.SamplingInv) : t.SamplingInv := by
    obtain ⟨h1, h2, h3, h4, h5⟩ := h
    constructor <;> simpa only [hcfg, hcmd, hkey, hhid, htr]
  have hfactors (h : s.FactorsInv) : t.FactorsInv := by
    obtain ⟨h1, h2, h3, h4, h5, h6, h7⟩ := h
    constructor <;> simpa only [hcfg, hcmd, hkey, hhid, htr]
  have hcand (h : s.CandidateInv) : t.CandidateInv := by simpa only [State.CandidateInv, hhid] using h
  unfold State.PhaseInv at h ⊢
  rw [hp]
  cases hph : s.phase <;> simp only [hph] at h ⊢
  case mpLoop =>
    obtain ⟨h1, h2, h3, h4, h5⟩ := h
    constructor <;> simpa only [hcfg, hcmd, hhid]
  case miLoop =>
    obtain ⟨h1, h2, h3, h4⟩ := h
    refine ⟨by rwa [hhid], by rwa [hhid, hcfg], by rwa [hhid, hcmd], fun hret => ?_⟩
    obtain ⟨hf, h5, h6, h7, h8⟩ := h4 (hhid ▸ hret)
    exact ⟨hfactors hf, by rwa [hhid], by rwa [hhid], by rwa [hhid], by rwa [hhid]⟩
  case kgDraw | kgRngWait => exact hsampling h
  case kgTest => exact ⟨hsampling h.1, hcand h.2⟩
  case kgPtWait => exact ⟨hsampling h.1, hcand h.2.1, by rw [hhid, htr]; exact h.2.2⟩
  case kgDerive => exact hfactors h

/-- A host write issues a command, or leaves the phase and what the working values mean in it; while the engine is idle
there is nothing to keep (20_memory.md R65). -/
theorem memWrite_phaseInv (h : s.PhaseInv) (off : Nat) (v : Word) : (s.memWrite off v).PhaseInv := by
  rcases memWrite_cases s off v with e | ⟨-, e⟩ | ⟨-, -, e⟩ | ⟨-, -, e⟩ | ⟨-, e⟩ | ⟨X, k, -, -, e⟩ |
    ⟨X, k, -, -, -, e⟩ | ⟨X, k, -, -, -, e⟩ <;> rw [e]
  case inr.inr.inr.inl => trivial
  all_goals exact h.of_same rfl rfl rfl rfl rfl rfl

theorem step_phaseInv (h : s.Inv) (hst : step s = .next t) : t.PhaseInv := by
  rcases step_cases hst with ⟨a, hst⟩ | ⟨op, rest, -, hst⟩ | ⟨rest, -, rfl⟩ | ⟨rnd, a, hst⟩ | ⟨v, a, hst⟩ |
    ⟨rest, -, rfl⟩ | ⟨-, a, rfl⟩
  · exact engineStep_phaseInv (h.with_agenda a) hst
  · rcases hostStep_cases hst with ⟨off, -, -, rfl⟩ | ⟨off, v, -, -, rfl⟩
    · exact h.phase.of_same rfl rfl rfl rfl rfl rfl
    · exact memWrite_phaseInv (h.phase.with_agenda rest) off v
  · exact h.phase.of_same rfl rfl rfl rfl rfl rfl
  · exact rngReplyStep_phaseInv (h.phase.with_agenda a) hst
  · exact primeReplyStep_phaseInv (h.phase.with_agenda a) hst
  · trivial
  · exact h.phase.with_agenda a

/-- Settles O46: each clause of the invariant is kept by every step. -/
theorem stepKeepsInvariant : Obligations.StepKeepsInvariant := fun _ _ h hst =>
  { cfg_ok := (step_grows hst).1 ▸ h.cfg_ok
    regs := step_regsInRange h.cfg_ok h.regs hst
    status := step_statusConsistent h.status hst
    latched := step_latched h.latched hst
    phase := step_phaseInv h hst }

end Sys2Proof.Machine

/-! ## Hidden values that are not live have no influence (10_state.md R40, R43)

Every move answers alike in two states that differ only in such values. -/

namespace Sys2Proof.Machine

variable {s : State} {g : Hidden}

/-- Two answers that agree: next states that differ only in values not live, or the same stop. -/
inductive AgreeingResults : Result → Result → Prop where
  | next {t t' : State} : t.SameButDead t' → AgreeingResults (.next t) (.next t')
  | fault (r : Fault) : AgreeingResults (.fault r) (.fault r)
  | refused (r : Refusal) : AgreeingResults (.refused r) (.refused r)

/-- Agreeing answers are those the statement speaks of. -/
theorem AgreeingResults.answers {x y : Result} (h : AgreeingResults x y) :
    (∀ t, x = .next t → ∃ t', y = .next t' ∧ t.SameButDead t') ∧ (∀ r, x = .fault r → y = .fault r) ∧
      (∀ r, x = .refused r → y = .refused r) := by
  refine ⟨fun t ht => ?_, fun r hr => ?_, fun r hr => ?_⟩
  · cases ht
    obtain ⟨h⟩ := h
    exact ⟨_, rfl, h⟩
  · cases hr
    cases h
    rfl
  · cases hr
    cases h
    rfl

/-- A test that comes out the same in both states. -/
theorem AgreeingResults.ite {c d : Prop} [Decidable c] [Decidable d] {x x' y y' : Result} (hcd : c ↔ d)
    (hx : c → AgreeingResults x x') (hy : ¬c → AgreeingResults y y') :
    AgreeingResults (if c then x else y) (if d then x' else y') := by
  by_cases hc : c
  · rw [if_pos hc, if_pos (hcd.mp hc)]; exact hx hc
  · rw [if_neg hc, if_neg (hcd.not.mp hc)]; exact hy hc

theorem AgreeingResults.raiseErr (k : ErrKind) :
    AgreeingResults (.next (s.raiseErr k)) (.next (State.raiseErr { s with hid := g } k)) := .next ⟨rfl, trivial⟩

/-- The exponentiation engine is loaded with every value it reads (42_modpow.md R141). -/
theorem AgreeingResults.startPow (b e m : Nat) :
    AgreeingResults (.next (s.startPow b e m)) (.next (State.startPow { s with hid := g } b e m)) :=
  .next ⟨rfl, rfl, rfl, rfl, rfl⟩

/-! ### The CHECK step -/

/-- A CHECK part reads no hidden value, and writes every one that is live in the phase it enters. -/
theorem exec_agrees (i : Instr) (s : State) (g : Hidden) : AgreeingResults (exec i s) (exec i { s with hid := g }) := by
  cases i with
  | nop | clrkey | clrpub | sign | verify => exact .next ⟨rfl, trivial⟩
  | modpow => exact .ite Iff.rfl (fun _ => .raiseErr _) fun _ => .startPow _ _ _
  | modinv =>
    exact .ite Iff.rfl (fun _ => .raiseErr _) fun _ => .next ⟨rfl, rfl, rfl, rfl, rfl, rfl, rfl, nofun⟩
  | genkey w =>
    exact .ite Iff.rfl (fun _ => .raiseErr _) fun _ => .ite Iff.rfl (fun _ => .raiseErr _) fun _ =>
      .next ⟨rfl, rfl, rfl, nofun⟩
  | derive =>
    exact .ite Iff.rfl (fun _ => .raiseErr _) fun _ => .ite Iff.rfl (fun _ => .raiseErr _) fun _ =>
      .next ⟨rfl, rfl, rfl⟩
  | loadkey => exact .ite Iff.rfl (fun _ => .raiseErr _) fun _ => .next ⟨rfl, trivial⟩
  | project =>
    exact .ite Iff.rfl (fun _ => .raiseErr _) fun _ => .ite Iff.rfl (fun _ => .raiseErr _) fun _ =>
      .next ⟨rfl, trivial⟩
  | encrypt | decrypt =>
    exact .ite Iff.rfl (fun _ => .raiseErr _) fun _ => .ite Iff.rfl (fun _ => .raiseErr _) fun _ => .startPow _ _ _

theorem checkStep_agrees (s : State) (g : Hidden) : AgreeingResults (checkStep s) (checkStep { s with hid := g }) := by
  simp only [checkStep]
  split
  · exact exec_agrees _ s g
  · exact .raiseErr _

/-! ### The loops -/

theorem deliverResult_agrees (s : State) (g : Hidden) (v : Nat) :
    AgreeingResults (s.deliverResult v) (State.deliverResult { s with hid := g } v) :=
  .ite Iff.rfl (fun _ => .next ⟨rfl, trivial⟩) fun _ => .fault _

theorem Hidden.AgreeAt.powRound {h : Hidden} (hg : h.AgreeAt g .mpLoop) : h.powRound.AgreeAt g.powRound .mpLoop := by
  obtain ⟨hc, hb, he, hm⟩ := hg
  simp only [Hidden.AgreeAt, Hidden.powRound, hc, hb, he, hm, and_self]

theorem Hidden.AgreeAt.euclidRound {h : Hidden} (hg : h.AgreeAt g .miLoop) :
    h.euclidRound.AgreeAt g.euclidRound .miLoop := by
  obtain ⟨hr, hnewr, ht, hnewt, hn, hret, hkey⟩ := hg
  refine ⟨hnewr, ?_, hnewt, ?_, hn, hret, hkey⟩ <;> simp only [Hidden.euclidRound, hr, hnewr, ht, hnewt]

theorem mpLoopStep_agrees (hp : s.phase = .mpLoop) (h : s.hid.AgreeAt g .mpLoop) :
    AgreeingResults (mpLoopStep s) (mpLoopStep { s with hid := g }) := by
  obtain ⟨hc, -, he, hm⟩ := id h
  refine .ite (by rw [he]) (fun _ => ?_) fun _ => .ite (by rw [hm]) (fun _ => .fault _) fun _ =>
    .next ⟨rfl, hp ▸ h.powRound⟩
  rw [← hc]
  exact deliverResult_agrees s g _

theorem commitKey_agrees (hp : s.hid.p = g.p) (hq : s.hid.q = g.q) (hn : s.hid.nmod = g.nmod) (ht : s.hid.tot = g.tot)
    (d : Nat) : AgreeingResults (s.commitKey d) (State.commitKey { s with hid := g } d) := by
  refine .ite (by rw [hp, hq, hn, ht]) (fun _ => .next ⟨?_, trivial⟩) fun _ => .fault _
  rw [hp, hq, hn, ht]
  rfl

theorem miFinalStep_agrees (h : s.hid.AgreeAt g .miLoop) :
    AgreeingResults (miFinalStep s) (miFinalStep { s with hid := g }) := by
  obtain ⟨hr, -, ht, -, hn, hret, hkey⟩ := h
  refine .ite (by rw [hr]) (fun _ => .raiseErr _) fun _ => .ite (by rw [ht, hn]) (fun _ => .fault _) fun _ => ?_
  simp only [← ht, ← hn, ← hret]
  cases hto : s.hid.ret with
  | toRes => exact deliverResult_agrees s g _
  | toKey =>
    obtain ⟨hp, hq, hnmod, htot⟩ := hkey hto
    exact commitKey_agrees hp hq hnmod htot _

theorem miLoopStep_agrees (hp : s.phase = .miLoop) (h : s.hid.AgreeAt g .miLoop) :
    AgreeingResults (miLoopStep s) (miLoopStep { s with hid := g }) := by
  obtain ⟨-, hnewr, -⟩ := id h
  exact .ite (by rw [hnewr]) (fun _ => miFinalStep_agrees h) fun _ => .next ⟨rfl, hp ▸ h.euclidRound⟩

theorem kgDeriveStep_agrees (h : s.hid.AgreeAt g .kgDerive) :
    AgreeingResults (kgDeriveStep s) (kgDeriveStep { s with hid := g }) := by
  obtain ⟨hp, hq⟩ := h
  simp only [kgDeriveStep, hp, hq]
  exact .ite Iff.rfl (fun _ => .fault _) fun _ =>
    .next ⟨rfl, rfl, rfl, rfl, rfl, rfl, rfl, fun _ => ⟨rfl, rfl, rfl, rfl⟩⟩

theorem kgDrawStep_agrees (h : s.hid.AgreeAt g .kgDraw) :
    AgreeingResults (kgDrawStep s) (kgDrawStep { s with hid := g }) := by
  obtain ⟨hw, -⟩ := id h
  simp only [kgDrawStep, hw]
  exact .next ⟨rfl, h⟩

theorem kgTestStep_agrees (h : s.hid.AgreeAt g .kgTest) :
    AgreeingResults (kgTestStep s) (kgTestStep { s with hid := g }) := by
  obtain ⟨-, -, -, hcand⟩ := id h
  simp only [kgTestStep, hcand]
  exact .next ⟨rfl, h⟩

theorem engineStep_agrees (h : s.hid.AgreeAt g s.phase) :
    AgreeingResults (engineStep s) (engineStep { s with hid := g }) := by
  obtain ⟨cfg, regs, ctrl, cmd, status, phase, hid, trace, reads, agenda⟩ := s
  cases phase with
  | idle | kgRngWait | kgPtWait => exact .refused _
  | check => exact checkStep_agrees _ g
  | mpLoop => exact mpLoopStep_agrees rfl h
  | miLoop => exact miLoopStep_agrees rfl h
  | kgDraw => exact kgDrawStep_agrees h
  | kgTest => exact kgTestStep_agrees h
  | kgDerive => exact kgDeriveStep_agrees h

/-! ### The replies -/

theorem rngReplyStep_agrees (h : s.hid.AgreeAt g s.phase) (rnd : Nat) :
    AgreeingResults (rngReplyStep s rnd) (rngReplyStep { s with hid := g } rnd) := by
  refine .ite Iff.rfl (fun _ => .refused _) fun hp => .ite Iff.rfl (fun _ => .refused _) fun _ => ?_
  rw [not_not.mp hp] at h
  obtain ⟨hw, hwhich, hprime⟩ := h
  exact .ite (by rw [hw]) (fun _ => .fault _) fun _ => .next ⟨rfl, hw, hwhich, hprime, by rw [hw]⟩

/-- Acceptance reads the earlier prime only while the second one is sampled (40_prime_sampling.md R124). -/
theorem Hidden.AgreeAt.accepts {h : Hidden} (hg : h.AgreeAt g .kgPtWait) (verdict : Bool) :
    h.accepts verdict = g.accepts verdict := by
  obtain ⟨-, hwhich, hprime, hcand⟩ := hg
  cases hw : h.which with
  | p => simp [Hidden.accepts, ← hwhich, hw]
  | q => simp [Hidden.accepts, ← hwhich, hw, hcand, hprime hw]

theorem primeReplyStep_agrees (h : s.hid.AgreeAt g s.phase) (verdict : Bool) :
    AgreeingResults (primeReplyStep s verdict) (primeReplyStep { s with hid := g } verdict) := by
  refine .ite Iff.rfl (fun _ => .refused _) fun hp => ?_
  rw [not_not.mp hp] at h
  obtain ⟨hw, hwhich, hprime, hcand⟩ := id h
  refine .ite (by rw [h.accepts]) (fun _ => ?_) fun _ => .next ⟨rfl, hw, hwhich, hprime⟩
  simp only [← hwhich]
  cases hq : s.hid.which with
  | p => exact .next ⟨rfl, hw, rfl, fun _ => hcand⟩
  | q => exact .next ⟨rfl, hprime hq, hcand⟩

/-! ### The host, and every step -/

theorem State.SameButDead.ite {c d : Prop} [Decidable c] [Decidable d] {x x' y y' : State} (hcd : c ↔ d)
    (hx : x.SameButDead x') (hy : y.SameButDead y') :
    (if c then x else y).SameButDead (if d then x' else y') := by
  by_cases hc : c
  · rwa [if_pos hc, if_pos (hcd.mp hc)]
  · rwa [if_neg hc, if_neg (hcd.not.mp hc)]

/-- A host write reads no hidden value, and latches the whole command where it issues one (20_memory.md R65). -/
theorem memWrite_sameButDead (h : s.hid.AgreeAt g s.phase) (off : Nat) (v : Word) :
    (s.memWrite off v).SameButDead (State.memWrite { s with hid := g } off v) := by
  simp only [State.memWrite]
  cases locate s.cfg off with
  | id | config | unmapped | ctrl | status => exact ⟨rfl, h⟩
  | cmd => exact .ite Iff.rfl ⟨rfl, h⟩ ⟨rfl, trivial⟩
  | big X k => exact .ite Iff.rfl ⟨rfl, h⟩ (.ite Iff.rfl ⟨rfl, h⟩ ⟨rfl, h⟩)

theorem hostStep_agrees (h : s.hid.AgreeAt g s.phase) (op : HostOp) :
    AgreeingResults (s.hostStep op) (State.hostStep { s with hid := g } op) := by
  cases op with
  | read off size => exact .ite Iff.rfl (fun _ => .next ⟨rfl, h⟩) fun _ => .refused _
  | write off size v => exact .ite Iff.rfl (fun _ => .next (memWrite_sameButDead h off v)) fun _ => .refused _

theorem step_agrees (h : s.hid.AgreeAt g s.phase) : AgreeingResults (step s) (step { s with hid := g }) := by
  obtain ⟨cfg, regs, ctrl, cmd, status, phase, hid, trace, reads, agenda⟩ := s
  cases agenda with
  | nil => exact .ite Iff.rfl (fun _ => engineStep_agrees h) fun _ => .next ⟨rfl, h⟩
  | cons a rest =>
    cases a with
    | host op => exact hostStep_agrees (s := { agenda := rest, .. }) h op
    | engine => exact engineStep_agrees (s := { agenda := rest, .. }) h
    | rngReply rnd => exact rngReplyStep_agrees (s := { agenda := rest, .. }) h rnd
    | primeReply v => exact primeReplyStep_agrees (s := { agenda := rest, .. }) h v
    | reset => exact .next ⟨rfl, trivial⟩
    | settle => exact .ite Iff.rfl (fun _ => engineStep_agrees h) fun _ => .next ⟨rfl, h⟩
    | poll => exact .next ⟨rfl, h⟩
    | serve rnd v =>
      exact .ite Iff.rfl (fun _ => engineStep_agrees h) fun _ => .ite Iff.rfl (fun _ => rngReplyStep_agrees h rnd)
        fun _ => .ite Iff.rfl (fun _ => primeReplyStep_agrees h v) fun _ => .next ⟨rfl, h⟩

/-- Settles O58: the second state is the first with other hidden values, and every move agrees on the two. -/
theorem deadHiddenValuesAreNeverRead : Obligations.DeadHiddenValuesAreNeverRead := by
  intro s s' h
  obtain ⟨heq, hagree⟩ := h
  rw [heq]
  exact (step_agrees hagree).answers

end Sys2Proof.Machine

/-! ## Whose move is next: the step by the agenda, and moves that are refused (20_memory.md R61, R62, R80, R84, R89) -/

namespace Sys2Proof.Machine

variable {s : State} {rest : List Action}

/-! ### The step, one equation for each head of the agenda (log entry 2; `step_wait`, `step_of_agenda_nil` for none) -/

theorem step_host {op : HostOp} (ha : s.agenda = .host op :: rest) :
    step s = State.hostStep { s with agenda := rest } op := by simp only [step, takeTurn, ha]

theorem step_engine (ha : s.agenda = .engine :: rest) : step s = engineStep { s with agenda := rest } := by
  simp only [step, takeTurn, ha]

theorem step_rngReply {rnd : Nat} (ha : s.agenda = .rngReply rnd :: rest) :
    step s = rngReplyStep { s with agenda := rest } rnd := by simp only [step, takeTurn, ha]

theorem step_primeReply {verdict : Bool} (ha : s.agenda = .primeReply verdict :: rest) :
    step s = primeReplyStep { s with agenda := rest } verdict := by simp only [step, takeTurn, ha]

theorem step_reset (ha : s.agenda = .reset :: rest) : step s = .next (State.applyReset { s with agenda := rest }) := by
  simp only [step, takeTurn, ha]

theorem step_settle (ha : s.agenda = .settle :: rest) :
    step s = if s.phase.engineEnabled then engineStep s else .next { s with agenda := rest } := by
  simp only [step, takeTurn, ha]

theorem step_poll (ha : s.agenda = .poll :: rest) : step s = .next (pollStep s rest) := by
  simp only [step, takeTurn, ha]

theorem step_serve {rnd : Nat} {verdict : Bool} (ha : s.agenda = .serve rnd verdict :: rest) :
    step s = serveStep s rnd verdict rest := by simp only [step, takeTurn, ha]

/-! ### The engine's turn -/

/-- The phases with an engine step (20_memory.md R80). -/
theorem Phase.engineEnabled_iff (ph : Phase) :
    ph.engineEnabled = true ↔ ph ≠ .idle ∧ ph ≠ .kgRngWait ∧ ph ≠ .kgPtWait := by
  cases ph <;> decide

theorem engineStep_eq_exec {i : Instr} (hp : s.phase = .check) (hd : decode s.cmd = .instr i) :
    engineStep s = exec i s := by
  simp only [engineStep, hp, checkStep, hd]

/-- Settles O6: the entries that give the engine its turn, and its step in phase CHECK. -/
theorem stepRunsDecodedCommand : Obligations.StepRunsDecodedCommand := by
  intro s i hp hd
  have he : s.phase.engineEnabled = true := by rw [hp]; rfl
  refine ⟨fun ha => ?_, fun rest ha => ?_, fun rest ha => ?_⟩
  · rw [step_of_agenda_nil ha he, engineStep_eq_exec hp hd]
  · rw [step_engine ha]
    exact engineStep_eq_exec hp hd
  · rw [step_settle ha, if_pos he, engineStep_eq_exec hp hd]

/-! ### The host's turn -/

theorem hostStep_read {off : Nat} (h4 : off % 4 = 0) (hlt : off < 0x2000) :
    s.hostStep (.read off 4) = .next (s.answerRead off) := if_pos (decide_eq_true ⟨rfl, h4, hlt⟩)

theorem hostStep_write {off : Nat} (v : Word) (h4 : off % 4 = 0) (hlt : off < 0x2000) :
    s.hostStep (.write off 4 v) = .next (s.memWrite off v) := if_pos (decide_eq_true ⟨rfl, h4, hlt⟩)

/-- Settles O14: both transactions stop at the check of R62. -/
theorem inexpressibleAccessRefused : Obligations.InexpressibleAccessRefused := by
  intro s off size v h
  have hx : expressible off size = false := decide_eq_false h
  simp [State.hostStep, hx]

/-! ### The directives -/

theorem pollStep_agenda (s : State) (rest : List Action) :
    (pollStep s rest).agenda =
      if s.status.done then rest else if s.phase.engineEnabled then .engine :: .poll :: rest else .poll :: rest := rfl

theorem serveStep_enabled (he : s.phase.engineEnabled = true) (rnd : Nat) (verdict : Bool) :
    serveStep s rnd verdict rest = engineStep s := if_pos he

theorem serveStep_kgRngWait (hp : s.phase = .kgRngWait) (rnd : Nat) (verdict : Bool) :
    serveStep s rnd verdict rest = rngReplyStep s rnd := by simp [serveStep, hp, Phase.engineEnabled]

theorem serveStep_kgPtWait (hp : s.phase = .kgPtWait) (rnd : Nat) (verdict : Bool) :
    serveStep s rnd verdict rest = primeReplyStep s verdict := by simp [serveStep, hp, Phase.engineEnabled]

theorem serveStep_idle (hp : s.phase = .idle) (rnd : Nat) (verdict : Bool) :
    serveStep s rnd verdict rest = .next { s with agenda := rest } := by simp [serveStep, hp, Phase.engineEnabled]

/-- Settles O7, one clause for each head of the agenda. -/
theorem everyStepFollowsTheAgenda : Obligations.EveryStepFollowsTheAgenda := by
  intro s rest enabled
  have on : enabled → s.phase.engineEnabled = true := s.phase.engineEnabled_iff.mpr
  have off : ¬enabled → s.phase.engineEnabled = false := fun he =>
    Bool.eq_false_iff.mpr (mt s.phase.engineEnabled_iff.mp he)
  refine ⟨fun op => step_host, fun x ha h4 hlt => (step_host ha).trans (hostStep_read h4 hlt),
    fun x v ha h4 hlt => (step_host ha).trans (hostStep_write v h4 hlt), step_engine, fun rnd => step_rngReply,
    fun v => step_primeReply, step_reset, fun ha => ?_, fun ha => ?_, fun ha => ?_, fun rnd v ha => ?_⟩
  · exact ⟨fun he => step_of_agenda_nil ha (on he), fun he => step_wait ha (off he)⟩
  · rw [step_settle ha]
    exact ⟨fun he => if_pos (on he), fun he => if_neg (by simp [off he])⟩
  · refine ⟨(pollStep s rest).agenda, step_poll ha, fun hd => ?_, fun hd he => ?_, fun hd he => ?_⟩ <;>
      rw [pollStep_agenda, hd]
    · rfl
    · rw [on he]; rfl
    · rw [off he]; rfl
  · rw [step_serve ha]
    exact ⟨fun he => serveStep_enabled (on he) rnd v, fun hp => serveStep_kgRngWait hp rnd v,
      fun hp => serveStep_kgPtWait hp rnd v, fun hp => serveStep_idle hp rnd v⟩

/-! ### Moves that are no step -/

theorem rngReplyStep_of_phase_ne (hp : s.phase ≠ .kgRngWait) (rnd : Nat) :
    rngReplyStep s rnd = .refused .replyWithoutRequest := if_pos hp

theorem primeReplyStep_of_phase_ne (hp : s.phase ≠ .kgPtWait) (verdict : Bool) :
    primeReplyStep s verdict = .refused .replyWithoutRequest := if_pos hp

/-- Settles O32: each move stops at the check that names it. -/
theorem movesNotEnabledAreRefused : Obligations.MovesNotEnabledAreRefused := by
  intro s
  refine ⟨fun rnd hp => rngReplyStep_of_phase_ne hp rnd, fun rnd hp hr => ?_,
    fun v hp => primeReplyStep_of_phase_ne hp v, fun hp => engineStep_refused ?_⟩
  · unfold rngReplyStep
    rw [if_neg (not_not.mpr hp), if_pos hr]
  · rcases hp with hp | hp | hp <;> rw [hp] <;> rfl

end Sys2Proof.Machine

/-! ## The register space, offset by offset (20_memory.md R63 to R70) -/

namespace Sys2Proof.Machine

variable {s : State}

/-! ### What an offset names -/

/-- Only the offset of `CTRL` names `CTRL`. -/
theorem locate_eq_ctrl {cfg : Config} {off : Nat} (h : locate cfg off = .ctrl) : off = ctrlOff := by
  unfold locate at h
  repeat' split at h
  all_goals first | assumption | contradiction

/-- Every base of a window is a multiple of 4 (20_memory.md R70). -/
theorem base_mod_four (X : BigReg) : X.base % 4 = 0 := by cases X <;> rfl

/-- An aligned offset that names a word of a register is that word's offset (20_memory.md R64 case 6). -/
theorem offset_of_locate_big {cfg : Config} {off k : Nat} {X : BigReg} (h4 : off % 4 = 0)
    (h : locate cfg off = .big X k) : off = X.base + 4 * k ∧ k < cfg.nwords := by
  obtain ⟨hbase, hidx, hk⟩ := locate_big h
  have hX := base_mod_four X
  exact ⟨by omega, hk⟩

/-- Beyond the five control words an offset names a word of a register, or nothing. -/
theorem locate_beyond_control {cfg : Config} {off : Nat} (h : off ∉ [0x0000, 0x0004, 0x0008, 0x000C, 0x0010]) :
    (∃ X k, locate cfg off = .big X k) ∨ locate cfg off = .unmapped := by
  simp only [List.mem_cons, List.not_mem_nil, or_false, not_or] at h
  obtain ⟨hid, hconfig, hctrl, hcmd, hstatus⟩ := h
  unfold locate
  rw [if_neg hid, if_neg hconfig, if_neg hctrl, if_neg hcmd, if_neg hstatus]
  split
  · exact .inl ⟨_, _, rfl⟩
  · exact .inr rfl

/-- An aligned offset that is no control word's and no register word's names nothing (20_memory.md R64 case 7). -/
theorem locate_unmapped {cfg : Config} {off : Nat} (h4 : off % 4 = 0)
    (hcontrol : off ∉ [0x0000, 0x0004, 0x0008, 0x000C, 0x0010])
    (hwords : ∀ (X : BigReg) (k : Nat), k < cfg.nwords → off ≠ X.base + 4 * k) : locate cfg off = .unmapped := by
  rcases locate_beyond_control hcontrol with ⟨X, k, hl⟩ | hl
  · obtain ⟨hoff, hk⟩ := offset_of_locate_big h4 hl
    exact absurd hoff (hwords X k hk)
  · exact hl

/-! ### Reads -/

@[simp] theorem State.memRead_config (s : State) : s.memRead 0x0004 = configWord s.cfg := rfl

theorem memRead_big {off k : Nat} {X : BigReg} (h : locate s.cfg off = .big X k) :
    s.memRead off = if s.status.busy then 0 else wordOf (s.br X) k := by
  simp only [State.memRead, h]

theorem memRead_window (hc : s.cfg.Ok) (X : BigReg) {k : Nat} (hk : k < s.cfg.nwords) :
    s.memRead (X.base + 4 * k) = if s.status.busy then 0 else wordOf (s.br X) k :=
  memRead_big (locate_window hc X hk)

/-- `CONFIG` as a number (10_state.md R31): `NWORDS` fits its field at every admitted width. -/
theorem configWord_toNat {cfg : Config} (h : cfg.Ok) :
    (configWord cfg).toNat = cfg.nwords + 2 ^ 8 * 8 + 2 ^ 16 * 25 := by
  have hn : cfg.nwords < 2 ^ 8 := lt_of_le_of_lt (nwords_le_128 h) (by decide)
  have happend : configWord cfg = 0x001908#24 ++ BitVec.ofNat 8 cfg.nwords := rfl
  rw [happend, BitVec.toNat_append, ← Nat.shiftLeft_add_eq_or_of_lt (BitVec.isLt _), BitVec.toNat_ofNat,
    BitVec.toNat_ofNat, Nat.mod_eq_of_lt hn, Nat.shiftLeft_eq]
  omega

/-- A field of `CONFIG`, taken from its value as a number. -/
theorem configWord_field {cfg : Config} (h : cfg.Ok) (start len : Nat) :
    ((configWord cfg).extractLsb' start len).toNat = (cfg.nwords + 2 ^ 8 * 8 + 2 ^ 16 * 25) / 2 ^ start % 2 ^ len := by
  rw [BitVec.extractLsb'_toNat, configWord_toNat h, Nat.shiftRight_eq_div_pow]

/-- Settles O9: what each offset names, and the fields of `CONFIG`. -/
theorem readsFollowTheRegisterMap : Obligations.ReadsFollowTheRegisterMap := by
  intro s hc
  refine ⟨rfl, ?_, rfl, rfl, rfl, fun X k hk => memRead_window hc X hk, fun off h4 hcontrol hwords => ?_⟩
  · have hn := nwords_le_128 hc
    have field := configWord_field hc
    refine ⟨?_, BitVec.eq_of_toNat_eq ?_, BitVec.eq_of_toNat_eq ?_, BitVec.eq_of_toNat_eq ?_⟩ <;>
      rw [State.memRead_config, field]
    · change _ = s.cfg.nwords
      omega
    all_goals
      rw [BitVec.toNat_ofNat]
      omega
  · simp only [State.memRead, locate_unmapped h4 hcontrol hwords]

/-! ### Writes -/

theorem memWrite_window (hc : s.cfg.Ok) (X : BigReg) {k : Nat} (hk : k < s.cfg.nwords) (v : Word) :
    s.memWrite (X.base + 4 * k) v =
      if s.status.busy then s.noteBusyViol
      else if s.writable X then s.setBr X (replaceWord (s.br X) k v)
      else s.noteLockViol := by
  simp only [State.memWrite, locate_window hc X hk]

theorem memWrite_window_busy (hc : s.cfg.Ok) (hb : s.status.busy = true) (X : BigReg) {k : Nat}
    (hk : k < s.cfg.nwords) (v : Word) : s.memWrite (X.base + 4 * k) v = s.noteBusyViol := by
  rw [memWrite_window hc X hk, if_pos hb]

theorem memWrite_window_open (hc : s.cfg.Ok) (hb : s.status.busy = false) {X : BigReg} (hw : s.writable X = true)
    {k : Nat} (hk : k < s.cfg.nwords) (v : Word) :
    s.memWrite (X.base + 4 * k) v = s.setBr X (replaceWord (s.br X) k v) := by
  rw [memWrite_window hc X hk, if_neg (by simp [hb]), if_pos hw]

theorem memWrite_window_locked (hc : s.cfg.Ok) (hb : s.status.busy = false) {X : BigReg} (hw : s.writable X = false)
    {k : Nat} (hk : k < s.cfg.nwords) (v : Word) : s.memWrite (X.base + 4 * k) v = s.noteLockViol := by
  rw [memWrite_window hc X hk, if_neg (by simp [hb]), if_neg (by simp [hw])]

/-- A write to one register changes what is read at the offsets of its words alone. -/
theorem memRead_setBr_of_locate_ne {off : Nat} {X : BigReg} (h : ∀ k, locate s.cfg off ≠ .big X k) (x : Nat) :
    (s.setBr X x).memRead off = s.memRead off := by
  unfold State.memRead
  rw [State.setBr_cfg]
  cases hl : locate s.cfg off with
  | big Y k =>
    have hYX : Y ≠ X := fun e => h k (e ▸ hl)
    simp only [State.setBr_status, s.setBr_br_other X Y x hYX]
  | id | config | ctrl | cmd | status | unmapped => rfl

/-- Replacing a word leaves what is read at every other aligned offset (20_memory.md R63, R65 case 5). -/
theorem memRead_setBr_replaceWord {off k : Nat} {X : BigReg} (h4 : off % 4 = 0) (hne : off ≠ X.base + 4 * k) (v : Word) :
    (s.setBr X (replaceWord (s.br X) k v)).memRead off = s.memRead off := by
  by_cases h : ∀ j, locate s.cfg off ≠ .big X j
  · exact memRead_setBr_of_locate_ne h _
  · push Not at h
    obtain ⟨j, hl⟩ := h
    have hjk : j ≠ k := fun e => hne (e ▸ (offset_of_locate_big h4 hl).1)
    rw [memRead_big (s := s.setBr X _) hl, memRead_big hl, State.setBr_br_same,
      wordOf_replaceWord_other _ _ _ _ hjk, State.setBr_status]

/-- Settles O10: the write replaces one word of one register. -/
theorem wordWriteReadsBack : Obligations.WordWriteReadsBack := by
  intro s X k v hc hk hb hw
  simp only [memWrite_window_open hc hb hw hk]
  refine ⟨?_, fun off h4 hne => memRead_setBr_replaceWord h4 hne v⟩
  rw [memRead_window (s := s.setBr X _) hc X hk, State.setBr_status, if_neg (by simp [hb]), State.setBr_br_same,
    wordOf_replaceWord_same]

/-- Settles O12: none of these registers is writable (20_memory.md R66). -/
theorem lockedWriteIsDropped : Obligations.LockedWriteIsDropped := by
  intro s X k v hc hk hb hX
  have hw : s.writable X = false := by
    rcases hX with rfl | hpub | ⟨hkey, hvalid⟩
    · rfl
    · exact writable_of_inPublicSlot hpub
    · rw [writable_of_inKeySlot hkey, hvalid, Bool.not_true]
  exact memWrite_window_locked hc hb hw hk v

/-! ### The frame of a write, field by field -/

theorem memWrite_ctrl_of_ne {off : Nat} {v : Word} (h : (s.memWrite off v).ctrl ≠ s.ctrl) : off = ctrlOff := by
  rcases memWrite_cases s off v with e | ⟨hl, -⟩ | ⟨-, -, e⟩ | ⟨-, -, e⟩ | ⟨-, e⟩ | ⟨X, k, -, -, e⟩ |
    ⟨X, k, -, -, -, e⟩ | ⟨X, k, -, -, -, e⟩
  case inr.inl => exact locate_eq_ctrl hl
  all_goals exact absurd (congrArg State.ctrl e) h

/-- The command, its latched fields, the phase and `BUSY` stay, or the write issues a command (30_encoding.md R103). -/
theorem memWrite_sequencer (s : State) (off : Nat) (v : Word) :
    ((s.memWrite off v).cmd = s.cmd ∧ (s.memWrite off v).phase = s.phase ∧ (s.memWrite off v).hid = s.hid ∧
      (s.memWrite off v).status.busy = s.status.busy) ∨
    (off = cmdOff ∧ s.status.busy = false) := by
  rcases memWrite_cases s off v with e | ⟨-, e⟩ | ⟨-, -, e⟩ | ⟨hl, hb, -⟩ | ⟨-, e⟩ | ⟨X, k, -, -, e⟩ |
    ⟨X, k, -, -, -, e⟩ | ⟨X, k, -, -, -, e⟩
  case inr.inr.inr.inl => exact .inr ⟨locate_eq_cmd hl, hb⟩
  all_goals exact .inl (by rw [e]; exact ⟨rfl, rfl, rfl, rfl⟩)

theorem memWrite_status_of_ne {off : Nat} {v : Word} (h : (s.memWrite off v).status ≠ s.status) :
    off = cmdOff ∨ off = statusOff ∨ ∃ X, inWindow s.cfg off X = true := by
  rcases memWrite_cases s off v with e | ⟨-, e⟩ | ⟨hl, -⟩ | ⟨hl, -⟩ | ⟨hl, -⟩ | ⟨X, k, hl, -⟩ |
    ⟨X, k, hl, -⟩ | ⟨X, k, hl, -⟩
  · exact absurd (congrArg State.status e) h
  · exact absurd (congrArg State.status e) h
  · exact .inl (locate_eq_cmd hl)
  · exact .inl (locate_eq_cmd hl)
  · exact .inr (.inl (locate_eq_status hl))
  all_goals exact .inr (.inr ⟨X, locate_big_inWindow hl⟩)

theorem memWrite_agenda (s : State) (off : Nat) (v : Word) : (s.memWrite off v).agenda = s.agenda := by
  rcases memWrite_cases s off v with e | ⟨-, e⟩ | ⟨-, -, e⟩ | ⟨-, -, e⟩ | ⟨-, e⟩ | ⟨X, k, -, -, e⟩ |
    ⟨X, k, -, -, -, e⟩ | ⟨X, k, -, -, -, e⟩ <;> rw [e] <;> rfl

/-- Settles O11, field by field. -/
theorem hostWriteFrame : Obligations.HostWriteFrame := by
  intro s off v
  obtain ⟨hcfg, htrace, hreads, hkey, hpub⟩ := memWrite_frame s off v
  refine ⟨fun X => memWrite_br_of_ne, memWrite_ctrl_of_ne, fun h => ?_, memWrite_status_of_ne, hkey, hpub, hcfg,
    htrace, hreads, memWrite_agenda s off v⟩
  rcases memWrite_sequencer s off v with ⟨hcmd, hphase, hhid, hbusy⟩ | hissue
  · simp [hcmd, hphase, hhid, hbusy] at h
  · exact hissue

/-! ### While a command runs -/

/-- Bit 0 of `STATUS` is `BUSY`, and the other bits do not depend on it (10_state.md R34). -/
theorem statusWord_busy (st : Status) (h : st.busy = true) :
    statusWord st = statusWord { st with busy := false } ||| 0x00000001#32 := by
  refine BitVec.eq_of_getLsbD_eq fun i hi => ?_
  rw [BitVec.getLsbD_or, statusWord_getLsbD, statusWord_getLsbD]
  cases i with
  | zero => simp [h]
  | succ i => simp [BitVec.getLsbD_ofNat, Nat.testBit_add]

/-- Settles O13: the windows answer as R67 says, and the control words do not look at `BUSY`. -/
theorem busyClosesTheBigRegisters : Obligations.BusyClosesTheBigRegisters := by
  intro s hc hb
  refine ⟨fun X k v hk => ⟨?_, memWrite_window_busy hc hb X hk v⟩, fun v => if_pos hb, rfl, configWord_toNat hc, rfl,
    rfl, rfl, ⟨?_, statusWord_busy s.status hb⟩, fun v => ⟨rfl, rfl⟩, fun v => rfl, fun v => ?_⟩
  · rw [memRead_window hc X hk, if_pos hb]
  · simp only [List.forall_mem_cons, List.not_mem_nil, false_imp_iff, implies_true, and_true]
    exact ⟨rfl, rfl, rfl, rfl⟩
  · exact (statusReadsAndClears s).2 v

end Sys2Proof.Machine

/-! ## The ports in the states of the invariant (20_memory.md R82, R88) -/

namespace Sys2Proof.Machine

variable {s t : State}

/-- The phases between a request to a port and the acceptance of its answers, `GENKEY`'s alone (40_prime_sampling.md
R120). -/
def Phase.samples : Phase → Bool
  | .kgDraw | .kgRngWait | .kgTest | .kgPtWait => true
  | .idle | .check | .mpLoop | .miLoop | .kgDerive => false

theorem State.PhaseInv.samplingInv (h : s.PhaseInv) (hp : s.phase.samples = true) : s.SamplingInv := by
  unfold State.PhaseInv at h
  cases hph : s.phase <;> simp only [hph] at h hp
  case kgDraw | kgRngWait => exact h
  case kgTest | kgPtWait => exact h.1
  all_goals cases hp

/-- Only the steps of the sampling phases add to the trace, one event each (20_memory.md R82). -/
theorem step_trace (h : step s = .next t) :
    t.trace = s.trace ∨ (s.phase.samples = true ∧ ∃ ev, t.trace = s.trace ++ [ev]) := by
  rcases step_cases h with ⟨a, h⟩ | ⟨op, rest, -, h⟩ | ⟨rest, -, rfl⟩ | ⟨rnd, a, h⟩ | ⟨v, a, h⟩ | ⟨rest, -, rfl⟩ |
    ⟨-, a, rfl⟩
  · obtain ⟨-, -, -, -, -, -, -, htr | ⟨ev, htr, hp⟩⟩ := engineStep_frame h
    · exact .inl htr
    · refine .inr ⟨?_, ev, htr⟩
      rcases hp with hp | hp <;> rw [show s.phase = _ from hp] <;> rfl
  · rcases hostStep_cases h with ⟨off, -, -, rfl⟩ | ⟨off, v, -, -, rfl⟩
    · exact .inl rfl
    · obtain ⟨-, htr, -, -, -⟩ := memWrite_frame { s with agenda := rest } off v
      exact .inl htr
  · exact .inl rfl
  · obtain ⟨hp, -, -, rfl⟩ := rngReplyStep_cases h
    exact .inr ⟨by rw [show s.phase = _ from hp]; rfl, _, rfl⟩
  · obtain ⟨hp, ⟨-, -, rfl⟩ | ⟨-, -, rfl⟩ | ⟨-, rfl⟩⟩ := primeReplyStep_cases h <;>
      exact .inr ⟨by rw [show s.phase = _ from hp]; rfl, _, rfl⟩
  · exact .inl rfl
  · exact .inl rfl

/-- Settles O56: the command of a sampling phase is a `GENKEY`. -/
theorem portEventsOnlyInGenkey : Obligations.PortEventsOnlyInGenkey := by
  intro s t hs h hne
  rcases step_trace h with htr | ⟨hp, hev⟩
  · exact absurd htr hne
  · refine ⟨⟨_, (hs.phase.samplingInv hp).command⟩, hs.status.busy_iff.mpr fun hidle => ?_, hev⟩
    rw [hidle] at hp
    cases hp

/-- In the inverse loop the valid flag of the key slot is set by the commit alone (43_keygen.md R155). -/
theorem step_commitKey (h : step s = .next t) (hp : s.phase = .miLoop) (hk : s.status.keyValid = false)
    (hk' : t.status.keyValid = true) :
    s.hid.ret = .toKey ∧ ∃ d a, State.commitKey { s with agenda := a } d = .next t := by
  have keeps (e : t.status.keyValid = s.status.keyValid) : False := by simp [e, hk] at hk'
  rcases step_cases h with ⟨a, h⟩ | ⟨op, rest, -, h⟩ | ⟨rest, -, rfl⟩ | ⟨rnd, a, h⟩ | ⟨v, a, h⟩ | ⟨rest, -, rfl⟩ |
    ⟨-, a, rfl⟩
  · have hmi : miLoopStep { s with agenda := a } = .next t := by simpa only [engineStep, hp] using h
    rcases miLoopStep_cases hmi with ⟨-, rfl⟩ | ⟨-, -, rfl⟩ | ⟨-, -, -, -, h⟩ | ⟨-, -, -, hret, h⟩
    · exact (keeps rfl).elim
    · exact (keeps rfl).elim
    · obtain ⟨-, rfl⟩ := deliverResult_cases h
      exact (keeps rfl).elim
    · exact ⟨hret, _, a, h⟩
  · rcases hostStep_cases h with ⟨off, -, -, rfl⟩ | ⟨off, v, -, -, rfl⟩
    · exact (keeps rfl).elim
    · obtain ⟨-, -, -, hkey, -⟩ := memWrite_frame { s with agenda := rest } off v
      exact (keeps hkey).elim
  · exact (keeps rfl).elim
  · cases hp.symm.trans (rngReplyStep_cases h).1
  · cases hp.symm.trans (primeReplyStep_cases h).1
  · exact nomatch hk'
  · exact (keeps rfl).elim

theorem OracleSound.prime_of_sampled {tr : List PortEvent} (h : OracleSound tr) {w x : Nat} (hx : Sampled tr w x) :
    x.Prime := h x _ hx.accepted

/-- Settles O60: the committed primes are the sampled ones, and both were accepted. -/
theorem soundOracleGivesPrimes : Obligations.SoundOracleGivesPrimes := by
  intro s t hs h hp hk hk' hsound w hd
  obtain ⟨hret, d, a, hcommit⟩ := step_commitKey h hp hk hk'
  obtain ⟨-, rfl⟩ := commitKey_cases hcommit
  obtain ⟨-, hpSampled, hqSampled⟩ := ((hs.inverseInv hp).to_key hret).factors.sampled w hd
  exact ⟨hsound.prime_of_sampled hpSampled, hsound.prime_of_sampled hqSampled⟩

end Sys2Proof.Machine

/-! ## Infinite runs: a fair one completes every command but `GENKEY`, and an unanswered request waits
(20_memory.md R80, R85, R90) -/

namespace Sys2Proof.Machine

variable {s t : State} {schedule : Nat → Option Action} {states : Nat → State}

/-! ### The move at one instant -/

/-- The engine takes a step only where it has one (20_memory.md R80). -/
theorem engineStep_enabled (h : engineStep s = .next t) : s.phase.engineEnabled = true := by
  cases he : s.phase.engineEnabled with
  | true => rfl
  | false => rw [engineStep_refused he] at h; cases h

/-- At each instant nobody moves but the host, or the engine takes an enabled step, or the environment answers a
request, or reset is pulsed (20_memory.md R80). -/
theorem Execution.move_cases (h : Execution schedule states) (k : Nat) :
    (∀ a, schedule k = some a → ∃ op, a = .host op) ∨
    (schedule k = some .engine ∧ (states k).phase.engineEnabled = true) ∨
    (∃ rnd, schedule k = some (.rngReply rnd) ∧ (states k).phase = .kgRngWait) ∨
    (∃ v, schedule k = some (.primeReply v) ∧ (states k).phase = .kgPtWait) ∨
    schedule k = some .reset := by
  cases hs : schedule k with
  | none => exact .inl nofun
  | some a =>
    have hmove := h.moves k a hs
    cases a with
    | host op => exact .inl fun a ha => ⟨op, by cases ha; rfl⟩
    | engine => exact .inr (.inl ⟨rfl, engineStep_enabled (s := { states k with agenda := [] }) (h.engineStep_eq hs)⟩)
    | rngReply rnd => exact .inr (.inr (.inl ⟨rnd, rfl, (rngReplyStep_cases hmove).1⟩))
    | primeReply v => exact .inr (.inr (.inr (.inl ⟨v, rfl, (primeReplyStep_cases hmove).1⟩)))
    | reset => exact .inr (.inr (.inr (.inr rfl)))
    | settle | poll | serve => cases h.is_move k _ hs

/-- The running command is where it was: the phase, its working values, `CMD`, `BUSY` and the trace. -/
structure State.Unmoved (s t : State) : Prop where
  phase : t.phase = s.phase
  hid : t.hid = s.hid
  cmd : t.cmd = s.cmd
  busy : t.status.busy = s.status.busy
  trace : t.trace = s.trace

theorem State.Unmoved.refl (s : State) : s.Unmoved s := ⟨rfl, rfl, rfl, rfl, rfl⟩

theorem State.Unmoved.trans {u : State} (h : s.Unmoved t) (h' : t.Unmoved u) : s.Unmoved u :=
  ⟨h'.phase.trans h.phase, h'.hid.trans h.hid, h'.cmd.trans h.cmd, h'.busy.trans h.busy, h'.trace.trans h.trace⟩

/-- While a command runs the host does not move it (20_memory.md R67). -/
theorem Execution.unmoved_succ (h : Execution schedule states) {k : Nat} (hb : (states k).status.busy = true)
    (hk : ∀ a, schedule k = some a → ∃ op, a = .host op) : (states k).Unmoved (states (k + 1)) := by
  cases hs : schedule k with
  | none => rw [h.pauses k hs]; exact .refl _
  | some a =>
    obtain ⟨op, rfl⟩ := hk a hs
    obtain ⟨hp, hh, -, hc, hb', ht⟩ := hostStep_busy_frame (s := { states k with agenda := [] }) hb (h.moves k _ hs)
    exact ⟨hp, hh, hc, hb'.trans hb.symm, ht⟩

/-! ### An unanswered request -/

/-- A request that nothing answers leaves the engine where it is (20_memory.md R85). -/
theorem Execution.unmoved_of_unanswered (h : Execution schedule states) (hb : (states 0).status.busy = true)
    (hp : (states 0).phase = .kgRngWait ∨ (states 0).phase = .kgPtWait)
    (hs : ∀ k, schedule k ≠ some .reset ∧ (∀ rnd, schedule k ≠ some (.rngReply rnd)) ∧
      ∀ v, schedule k ≠ some (.primeReply v)) (k : Nat) : (states 0).Unmoved (states k) := by
  induction k with
  | zero => exact .refl _
  | succ k ih =>
    obtain ⟨hreset, hrng, hprime⟩ := hs k
    rcases h.move_cases k with hk | ⟨-, he⟩ | ⟨rnd, hr, -⟩ | ⟨v, hv, -⟩ | hr
    · exact ih.trans (h.unmoved_succ (ih.busy.trans hb) hk)
    · rw [ih.phase] at he
      rcases hp with hp | hp <;> rw [hp] at he <;> cases he
    · exact absurd hr (hrng rnd)
    · exact absurd hv (hprime v)
    · exact absurd hr hreset

/-- With an empty agenda a machine whose engine has no step stays as it is (20_memory.md R85). -/
theorem run_wait (ha : s.agenda = []) (hp : s.phase.engineEnabled = false) (k : Nat) : run k s = .next s := by
  induction k with
  | zero => rfl
  | succ k ih => rw [run_succ k (step_wait ha hp), ih]

/-! ### What is left of a command -/

/-- A measure of the engine steps left to a command that samples no primes, compared by the stage of the command first:
its CHECK step, the key derivation, then a loop with the exponent left or the remainder left. -/
def State.workLeft (s : State) : Nat ×ₗ Nat :=
  match s.phase with
  | .check => toLex (3, 0)
  | .kgDerive => toLex (2, 0)
  | .mpLoop => toLex (1, s.hid.e)
  | .miLoop => toLex (1, s.hid.newr)
  | .idle | .kgDraw | .kgRngWait | .kgTest | .kgPtWait => toLex (0, 0)

/-- A CHECK part is one step: it ends the command or hands it to a unit (30_encoding.md R108). -/
theorem exec_phase_ne_check {i : Instr} (h : exec i s = .next t) : t.phase ≠ .check := by
  cases i <;> simp only [exec] at h
  case modpow => rcases execModpow_cases h with ⟨-, rfl⟩ | ⟨-, rfl⟩ <;> nofun
  case modinv => rcases execModinv_cases h with ⟨-, rfl⟩ | ⟨-, rfl⟩ <;> nofun
  case genkey => rcases execGenkey_cases h with ⟨-, rfl⟩ | ⟨-, rfl⟩ | ⟨-, -, -, rfl⟩ <;> nofun
  case derive => rcases execDerive_cases h with ⟨-, rfl⟩ | ⟨-, rfl⟩ | ⟨-, -, -, -, -, rfl⟩ <;> nofun
  case loadkey => rcases execLoadkey_cases h with ⟨-, rfl⟩ | ⟨-, rfl⟩ <;> nofun
  case project => rcases execProject_cases h with ⟨-, rfl⟩ | ⟨-, rfl⟩ | ⟨-, -, rfl⟩ <;> nofun
  case encrypt => rcases execEncrypt_cases h with ⟨-, rfl⟩ | ⟨-, rfl⟩ | ⟨-, -, rfl⟩ <;> nofun
  case decrypt => rcases execDecrypt_cases h with ⟨-, rfl⟩ | ⟨-, rfl⟩ | ⟨-, -, rfl⟩ <;> nofun
  all_goals cases h; nofun

theorem State.workLeft_lt_of_check (hs : s.phase = .check) (ht : t.phase ≠ .check) : t.workLeft < s.workLeft := by
  unfold State.workLeft
  rw [hs]
  cases hp : t.phase with
  | check => exact absurd hp ht
  | idle | mpLoop | miLoop | kgDraw | kgRngWait | kgTest | kgPtWait | kgDerive => simp [Prod.Lex.lt_iff]

/-- An engine step that ends no command takes from what is left of it (41_modinv.md R136; 42_modpow.md R144). -/
theorem engineStep_workLeft (h : engineStep s = .next t) (hp : s.phase.samples = false) (ht : t.phase ≠ .idle) :
    t.workLeft < s.workLeft := by
  rcases engineStep_cases h with ⟨hs, i, -, h⟩ | ⟨-, r, -, rfl⟩ | ⟨hs, h⟩ | ⟨hs, h⟩ | ⟨hs, -⟩ | ⟨hs, -⟩ | ⟨hs, h⟩
  · exact State.workLeft_lt_of_check hs (exec_phase_ne_check h)
  · exact absurd rfl ht
  · rcases mpLoopStep_cases h with ⟨-, -, rfl⟩ | ⟨he, -, rfl⟩
    · exact absurd rfl ht
    · have hhalf : s.hid.e / 2 < s.hid.e := Nat.div_lt_self (Nat.pos_of_ne_zero he) (by decide)
      simpa [State.workLeft, hs, Prod.Lex.lt_iff, Hidden.powRound] using hhalf
  · rcases miLoopStep_cases h with ⟨h0, rfl⟩ | ⟨-, -, rfl⟩ | ⟨-, -, -, -, h⟩ | ⟨-, -, -, -, h⟩
    · have hrest : s.hid.r - s.hid.r / s.hid.newr * s.hid.newr < s.hid.newr := by
        rw [← Nat.mod_eq_sub_div_mul]
        exact Nat.mod_lt _ (Nat.pos_of_ne_zero h0)
      simpa [State.workLeft, hs, Prod.Lex.lt_iff, Hidden.euclidRound] using hrest
    · exact absurd rfl ht
    · obtain ⟨-, rfl⟩ := deliverResult_cases h
      exact absurd rfl ht
    · obtain ⟨-, rfl⟩ := commitKey_cases h
      exact absurd rfl ht
  · rw [hs] at hp; cases hp
  · rw [hs] at hp; cases hp
  · obtain ⟨-, -, rfl⟩ := kgDeriveStep_cases h
    simp [State.workLeft, hs, Prod.Lex.lt_iff]

theorem State.Unmoved.workLeft (h : s.Unmoved t) : t.workLeft = s.workLeft := by
  unfold State.workLeft
  rw [h.phase, h.hid]

/-- A step of the engine or a reply to it that ends the command sets `DONE` (10_state.md R35). -/
theorem BlockEffect.done_of_idle (h : BlockEffect s t) (ht : t.phase = .idle) : t.status.done = true := by
  cases h with
  | works g ph tr _ _ hph => exact absurd ht hph
  | fails | completes | delivers | commits | loads | projects | clearsKey | clearsPub => rfl

/-! ### A fair run -/

/-- The states from which a fair run completes: a command that samples no primes is running. -/
structure State.Completing (s : State) : Prop where
  inv : s.Inv
  running : s.phase ≠ .idle
  notGenkey : ∀ w, decode s.cmd ≠ .instr (.genkey w)

theorem State.Completing.samples (h : s.Completing) : s.phase.samples = false :=
  Bool.eq_false_iff.mpr fun hp => h.notGenkey _ (h.inv.phase.samplingInv hp).command

/-- A phase of a running command that samples no primes has an engine step. -/
theorem Phase.engineEnabled_of_running {ph : Phase} (hi : ph ≠ .idle) (hs : ph.samples = false) :
    ph.engineEnabled = true := by
  cases ph with
  | idle => exact absurd rfl hi
  | check | mpLoop | miLoop | kgDerive => rfl
  | kgDraw | kgRngWait | kgTest | kgPtWait => cases hs

/-- The command stays where it is until reset or the engine's step, and in a fair run one of the two comes. -/
theorem Execution.reset_or_engine (h : Execution schedule states) (hfair : Fair schedule states) {k : Nat}
    (hk : (states k).Completing) :
    ∃ j, schedule j = some .reset ∨ (schedule j = some .engine ∧ (states k).Unmoved (states j)) := by
  have hbusy := hk.inv.status.busy_iff.mpr hk.running
  have hsamples := hk.samples
  have stays {j : Nat} (hj : k ≤ j) :
      (∃ i, schedule i = some .reset ∨ (schedule i = some .engine ∧ (states k).Unmoved (states i))) ∨
      (states k).Unmoved (states j) := by
    induction j, hj using Nat.le_induction with
    | base => exact .inr (.refl _)
    | succ j _ ih =>
      rcases ih with ih | hu
      · exact .inl ih
      rcases h.move_cases j with hhost | ⟨he, -⟩ | ⟨rnd, -, hp⟩ | ⟨v, -, hp⟩ | hr
      · exact .inr (hu.trans (h.unmoved_succ (hu.busy.trans hbusy) hhost))
      · exact .inl ⟨j, .inr ⟨he, hu⟩⟩
      · rw [← hu.phase, hp] at hsamples; cases hsamples
      · rw [← hu.phase, hp] at hsamples; cases hsamples
      · exact .inl ⟨j, .inl hr⟩
  obtain ⟨j, hkj, hj⟩ := hfair k
  rcases stays hkj with hi | hu
  · exact hi
  · rcases hj with he | hoff
    · exact ⟨j, .inr ⟨he, hu⟩⟩
    · rw [hu.phase, Phase.engineEnabled_of_running hk.running hsamples] at hoff
      cases hoff

/-- Reset abandons the command (70_reset_and_hazards.md R230). -/
theorem Execution.phase_of_reset (h : Execution schedule states) {k : Nat} (hs : schedule k = some .reset) :
    (states (k + 1)).phase = .idle := by
  have hnext := Host.Outcome.next.inj ((step_reset rfl).symm.trans (h.moves k _ hs))
  rw [← hnext]
  rfl

/-- A fair run completes the command, by induction on what is left of it (20_memory.md R90). -/
theorem Execution.completes (h : Execution schedule states) (hfair : Fair schedule states) (h₀ : (states 0).Inv) {k : Nat}
    (hk : (states k).Completing) :
    ∃ l, (states l).phase = .idle ∧ ((states l).status.done = true ∨ ∃ j < l, schedule j = some .reset) := by
  induction hw : (states k).workLeft using WellFoundedLT.induction generalizing k with
  | ind w ih =>
    obtain ⟨j, hr | ⟨he, hu⟩⟩ := h.reset_or_engine hfair hk
    · exact ⟨j + 1, h.phase_of_reset hr, .inr ⟨j, Nat.lt_succ_self j, hr⟩⟩
    have hstep := h.engineStep_eq he
    by_cases hidle : (states (j + 1)).phase = .idle
    · exact ⟨j + 1, hidle, .inl ((engineStep_effect hstep).2.done_of_idle hidle)⟩
    · have hless : (states (j + 1)).workLeft < (states j).workLeft :=
        engineStep_workLeft (s := { states j with agenda := [] }) hstep (hu.phase ▸ hk.samples) hidle
      obtain ⟨-, -, hcmd, -⟩ := engineStep_frame hstep
      have hnext : (states (j + 1)).Completing :=
        { inv := h.keeps (fun _ a hs => hs.with_agenda a) stepKeepsInvariant h₀ (j + 1)
          running := hidle
          notGenkey := by rw [hcmd]; exact hu.cmd ▸ hk.notGenkey }
      exact ih _ (hw ▸ hu.workLeft ▸ hless) hnext rfl

/-- Settles O31: what is left of a command falls with every step that fairness gives the engine, and in a wait phase nobody
moves. -/
theorem fairRunsCompleteOrWait : Obligations.FairRunsCompleteOrWait := by
  refine ⟨fun schedule states h hfair hinv hrun hcmd => h.completes hfair hinv ⟨hinv, hrun, hcmd⟩,
    fun schedule states h hb hp hs k => ?_, fun s hp => ⟨fun ha => run_wait ha ?_, rfl⟩⟩
  · have hu := h.unmoved_of_unanswered hb hp hs k
    exact ⟨hu.phase, hu.busy.trans hb, hu.trace⟩
  · rcases hp with hp | hp <;> rw [hp] <;> rfl

end Sys2Proof.Machine

/-! ## The command word: its fields, the decoder and the table (30_encoding.md R100, R104, R105) -/

namespace Sys2Proof

/-! ### A word is its three fields -/

theorem word_toNat (v : Word) :
    v.toNat = (opcodeOf v).toNat + 2 ^ 8 * (argOf v).toNat + 2 ^ 24 * (rsvOf v).toNat := by
  simp only [opcodeOf, argOf, rsvOf, BitVec.extractLsb'_toNat, Nat.shiftRight_eq_div_pow]
  omega

theorem word_eq_iff (v w : Word) : v = w ↔ rsvOf v = rsvOf w ∧ opcodeOf v = opcodeOf w ∧ argOf v = argOf w := by
  refine ⟨fun h => by rw [h]; exact ⟨rfl, rfl, rfl⟩, fun ⟨hr, ho, ha⟩ => BitVec.eq_of_toNat_eq ?_⟩
  rw [word_toNat, word_toNat, hr, ho, ha]

/-! ### The decoder -/

theorem eq_of_plainCommand {v : Word} {i j : Instr} (h : plainCommand v j = .instr i) : j = i ∧ argOf v = 0 := by
  unfold plainCommand at h
  split at h
  · cases h; exact ⟨rfl, ‹_›⟩
  · cases h

/-- The fields of a word that decodes: `RSV` is zero, the opcode and the argument are the command's (R104 case 2). -/
theorem fields_of_decode {v : Word} {i : Instr} (h : decode v = .instr i) :
    rsvOf v = 0 ∧ (opcodeOf v).toNat = i.opcode ∧ (argOf v).toNat = i.arg := by
  unfold decode at h
  split at h
  · cases h
  next hr =>
  rw [not_not] at hr
  split at h
  -- `GENKEY` keeps its argument, the last case is no opcode, and the others are plain commands.
  case h_4 ho => cases h; exact ⟨hr, ho, rfl⟩
  case h_14 => cases h
  all_goals
    next ho =>
    obtain ⟨rfl, ha⟩ := eq_of_plainCommand h
    exact ⟨hr, ho, by rw [ha]; rfl⟩

/-- Fields that are a command's decode to it. -/
theorem decode_of_fields {v : Word} {i : Instr} (hr : rsvOf v = 0) (ho : (opcodeOf v).toNat = i.opcode)
    (ha : (argOf v).toNat = i.arg) : decode v = .instr i := by
  unfold decode
  rw [if_neg (not_not.mpr hr), ho]
  cases i with
  | genkey w => rw [← show (argOf v).toNat = w from ha]; rfl
  | nop | modpow | modinv | derive | loadkey | project | encrypt | decrypt | clrkey | clrpub | sign | verify =>
    exact if_pos (BitVec.eq_of_toNat_eq ha)

/-! ### Encoding and decoding are inverse -/

open Laws.EncodeFields in
/-- The fields of a command's word, command by command (R100). -/
theorem encode_fields : ∀ i : Instr, Statement i
  | .nop => nop
  | .modpow => modpow
  | .modinv => modinv
  | .genkey w => genkey w
  | .derive => derive
  | .loadkey => loadkey
  | .project => project
  | .encrypt => encrypt
  | .decrypt => decrypt
  | .clrkey => clrkey
  | .clrpub => clrpub
  | .sign => sign
  | .verify => verify

/-- Settles O1: the three fields of the command's word are those the decoder looks for. -/
theorem decodeOfEncode : Obligations.DecodeOfEncode := by
  intro i h
  obtain ⟨hr, ha, ho⟩ := encode_fields i h
  exact decode_of_fields (BitVec.eq_of_toNat_eq hr) ho ha

theorem Instr.wellFormed_iff (i : Instr) : i.wellFormed = true ↔ i.arg < 2 ^ 16 := by
  cases i with
  | genkey w => simp [Instr.wellFormed, Instr.arg]; omega
  | nop | modpow | modinv | derive | loadkey | project | encrypt | decrypt | clrkey | clrpub | sign | verify => decide

/-- Settles O2: `ARG` has 16 bits, and two words with the same fields are the same. -/
theorem encodeOfDecode : Obligations.EncodeOfDecode := by
  intro v i h
  obtain ⟨hr, ho, ha⟩ := fields_of_decode h
  refine ⟨(Instr.wellFormed_iff i).mpr (ha ▸ (argOf v).isLt), BitVec.eq_of_toNat_eq ?_⟩
  rw [encode, ← ho, ← ha, BitVec.toNat_ofNat, word_toNat v, hr, show (0 : Byte).toNat = 0 from rfl]
  omega

/-! ### The legal words -/

theorem Instr.opcode_le (i : Instr) : i.opcode ≤ 0x0C := by
  cases i <;> simp [Instr.opcode]

theorem Instr.arg_eq_zero {i : Instr} (h : i.opcode ≠ 0x03) : i.arg = 0 := by
  cases i with
  | genkey w => exact absurd rfl h
  | nop | modpow | modinv | derive | loadkey | project | encrypt | decrypt | clrkey | clrpub | sign | verify => rfl

/-- Each row of the table is a command: `GENKEY` with any argument, the others with none (R105). -/
theorem exists_instr_of_fields {op arg : Nat} (ho : op ≤ 0x0C) (ha : op ≠ 0x03 → arg = 0) :
    ∃ i : Instr, i.opcode = op ∧ i.arg = arg := by
  by_cases h3 : op = 0x03
  · exact ⟨.genkey arg, h3.symm, rfl⟩
  · obtain rfl := ha h3
    have plain : ∀ op ≤ 0x0C, op ≠ 0x03 → ∃ i ∈ [Instr.nop, .modpow, .modinv, .derive, .loadkey, .project, .encrypt,
      .decrypt, .clrkey, .clrpub, .sign, .verify], i.opcode = op ∧ i.arg = 0 := by decide
    obtain ⟨i, -, hi⟩ := plain op ho h3
    exact ⟨i, hi⟩

/-- The words that decode, by their fields (R104). -/
theorem exists_decode_iff (v : Word) :
    (∃ i, decode v = .instr i) ↔
      rsvOf v = 0 ∧ (opcodeOf v).toNat ≤ 0x0C ∧ ((opcodeOf v).toNat ≠ 0x03 → argOf v = 0) := by
  constructor
  · rintro ⟨i, h⟩
    obtain ⟨hr, ho, ha⟩ := fields_of_decode h
    exact ⟨hr, ho ▸ i.opcode_le, fun h3 => BitVec.eq_of_toNat_eq (ha.trans (Instr.arg_eq_zero (ho ▸ h3)))⟩
  · rintro ⟨hr, ho, ha⟩
    obtain ⟨i, hio, hia⟩ := exists_instr_of_fields ho fun h3 => congrArg BitVec.toNat (ha h3)
    exact ⟨i, decode_of_fields hr hio.symm hia.symm⟩

/-! ### The table -/

/-- The columns of R105, field by field: row `n` matches `n`, and only `GENKEY`'s mask leaves `ARG` out. -/
theorem opcodeRows_columns : ∀ n : Fin opcodeRows.length,
    (rsvOf opcodeRows[n].mask = .allOnes 8 ∧ opcodeOf opcodeRows[n].mask = .allOnes 8 ∧
      argOf opcodeRows[n].mask = if n.val = 0x03 then 0 else .allOnes 16) ∧
    rsvOf opcodeRows[n].matchBits = 0 ∧ (opcodeOf opcodeRows[n].matchBits).toNat = n.val ∧
      argOf opcodeRows[n].matchBits = 0 := by decide

theorem and_fields (v w : Word) :
    rsvOf (v &&& w) = rsvOf v &&& rsvOf w ∧ opcodeOf (v &&& w) = opcodeOf v &&& opcodeOf w ∧
      argOf (v &&& w) = argOf v &&& argOf w :=
  ⟨BitVec.extractLsb'_and, BitVec.extractLsb'_and, BitVec.extractLsb'_and⟩

/-- A word selects row `n` when `RSV` is zero, the opcode is `n`, and `ARG` is zero unless the row is `GENKEY`'s. -/
theorem selectedBy_iff {n : Nat} {row : OpcodeRow} (h : opcodeRows[n]? = some row) (v : Word) :
    row.selectedBy v = true ↔ rsvOf v = 0 ∧ (opcodeOf v).toNat = n ∧ (n ≠ 0x03 → argOf v = 0) := by
  obtain ⟨hn, rfl⟩ := List.getElem?_eq_some_iff.mp h
  obtain ⟨⟨hmr, hmo, hma⟩, hr, ho, ha⟩ := opcodeRows_columns ⟨n, hn⟩
  simp only [Fin.getElem_fin] at hmr hmo hma hr ho ha
  obtain ⟨hvr, hvo, hva⟩ := and_fields v opcodeRows[n].mask
  rw [OpcodeRow.selectedBy, beq_iff_eq, word_eq_iff, hvr, hvo, hva, hmr, hmo, hma, hr, ha, BitVec.and_allOnes,
    BitVec.and_allOnes, BitVec.toNat_eq (x := opcodeOf v), ho]
  by_cases h3 : n = 0x03
  · simp [h3]
  · rw [if_neg h3, BitVec.and_allOnes]
    simp [h3]

/-- Settles O3: a word is decoded by the fields that the rows select it by. -/
theorem decodeFollowsTheTable : Obligations.DecodeFollowsTheTable := by
  intro v
  refine ⟨⟨fun ⟨i, h⟩ => ?_, fun ⟨row, hmem, hsel⟩ => ?_⟩, fun i h n row hrow => ?_⟩
  · obtain ⟨hr, hle, ha⟩ := (exists_decode_iff v).mp ⟨i, h⟩
    have hrow := List.getElem?_eq_getElem (l := opcodeRows) (Nat.lt_succ_of_le hle)
    exact ⟨_, List.getElem_mem _, (selectedBy_iff hrow v).mpr ⟨hr, rfl, ha⟩⟩
  · obtain ⟨n, hrow⟩ := List.mem_iff_getElem?.mp hmem
    obtain ⟨hr, ho, ha⟩ := (selectedBy_iff hrow v).mp hsel
    have hn : n < opcodeRows.length := (List.getElem?_eq_some_iff.mp hrow).1
    exact (exists_decode_iff v).mpr ⟨hr, ho ▸ Nat.le_of_lt_succ hn, ho ▸ ha⟩
  · obtain ⟨hr, ho, -⟩ := fields_of_decode h
    obtain ⟨-, -, ha⟩ := (exists_decode_iff v).mp ⟨i, h⟩
    rw [selectedBy_iff hrow, ho]
    exact ⟨fun ⟨_, hn, _⟩ => hn.symm, fun hn => ⟨hr, hn.symm, by rw [hn, ← ho]; exact ha⟩⟩

/-- Settles O4, by evaluating the decoder. -/
theorem sampleWordsDecode : Obligations.SampleWordsDecode := by
  unfold Obligations.SampleWordsDecode
  decide

end Sys2Proof

/-! ## Issue and the CHECK step (30_encoding.md R103, R104) -/

namespace Sys2Proof.Machine

variable {s : State}

theorem engineStep_illegal {r : IllegalWord} (hp : s.phase = .check) (hd : decode s.cmd = .illegal r) :
    engineStep s = .next (s.raiseErr .illegalCmd) := by
  simp only [engineStep, hp, checkStep, hd, illegalCommand]

/-- Settles O5: the illegal words are those that do not decode. -/
theorem checkStepDecodes : Obligations.CheckStepDecodes := by
  intro s hp v illegal
  have legal_iff : (∃ i, decode v = .instr i) ↔ ¬illegal := by
    rw [exists_decode_iff]
    simp only [illegal, not_or, not_and_not_right, not_not, Nat.not_lt]
    rfl
  refine ⟨fun h => ?_, fun h => ?_⟩
  · cases hd : decode v with
    | instr i => exact absurd h (legal_iff.mp ⟨i, hd⟩)
    | illegal r => exact engineStep_illegal hp hd
  · obtain ⟨i, hd⟩ := legal_iff.mpr h
    obtain ⟨-, ho, -⟩ := fields_of_decode hd
    exact ⟨i, hd, ho.symm, engineStep_eq_exec hp hd⟩

theorem State.memWrite_cmd (s : State) (v : Word) :
    s.memWrite cmdOff v = if s.status.busy then s.noteBusyViol else s.issue v := rfl

/-- Settles O8: both outcomes of a write to `CMD`. -/
theorem issueLatchesTheCommand : Obligations.IssueLatchesTheCommand := by
  intro s v
  refine ⟨fun hb => ?_, fun hb => ?_⟩ <;> rw [s.memWrite_cmd v, hb] <;> rfl

end Sys2Proof.Machine

/-! ## The script lines of whole registers (30_encoding.md R110; 20_memory.md R63 to R69) -/

namespace Sys2Proof.Machine

variable {s : State} {X : BigReg}

/-! ### A register as its words (00_scope.md R12) -/

/-- `v` with its `n` lowest words taken from `x`. -/
def withLowWords (x v n : Nat) : Nat := x % 2 ^ (32 * n) + 2 ^ (32 * n) * (v / 2 ^ (32 * n))

@[simp] theorem withLowWords_zero (x v : Nat) : withLowWords x v 0 = v := by simp [withLowWords, Nat.mod_one]

theorem withLowWords_all {x v n : Nat} (hx : x < 2 ^ (32 * n)) (hv : v < 2 ^ (32 * n)) : withLowWords x v n = x := by
  rw [withLowWords, Nat.mod_eq_of_lt hx, Nat.div_eq_of_lt hv, Nat.mul_zero, Nat.add_zero]

/-- The low `n + 1` words are the low `n` and word `n`. -/
theorem mod_words_succ (x n : Nat) : x % 2 ^ (32 * (n + 1)) = x % 2 ^ (32 * n) + 2 ^ (32 * n) * (wordOf x n).toNat := by
  rw [wordOf_toNat, Nat.mul_succ, pow_add, Nat.mod_mul]

theorem withLowWords_mod (x v n : Nat) : withLowWords x v n % 2 ^ (32 * n) = x % 2 ^ (32 * n) := by
  rw [withLowWords, Nat.add_mul_mod_self_left, Nat.mod_mod]

theorem withLowWords_div (x v n : Nat) : withLowWords x v n / 2 ^ (32 * n) = v / 2 ^ (32 * n) := by
  have hp : 0 < 2 ^ (32 * n) := by positivity
  rw [withLowWords, Nat.add_mul_div_left _ _ hp, Nat.div_eq_of_lt (Nat.mod_lt _ hp), Nat.zero_add]

/-- Writing word `n` of `x` adds it to the low words. -/
theorem replaceWord_withLowWords (x v n : Nat) :
    replaceWord (withLowWords x v n) n (wordOf x n) = withLowWords x v (n + 1) := by
  have above (y : Nat) : y / 2 ^ (32 * (n + 1)) = y / 2 ^ (32 * n) / 2 ^ 32 := by
    rw [Nat.div_div_eq_div_mul, ← pow_add, Nat.mul_succ]
  rw [replaceWord, withLowWords_mod, above, withLowWords_div, ← above, withLowWords, mod_words_succ, Nat.mul_succ, pow_add]
  ring

theorem wordsValue_concat (l : List Word) (w : Word) :
    wordsValue (l ++ [w]) = wordsValue l + 2 ^ (32 * l.length) * w.toNat := by
  induction l with
  | nil => simp [wordsValue]
  | cons v l ih =>
    rw [List.cons_append, wordsValue, ih, wordsValue, List.length_cons, Nat.mul_succ, pow_add]
    ring

theorem wordsValue_words (v n : Nat) : wordsValue ((List.range n).map (wordOf v)) = v % 2 ^ (32 * n) := by
  induction n with
  | zero => simp [wordsValue, Nat.mod_one]
  | succ n ih =>
    rw [List.range_succ, List.map_append, List.map_singleton, wordsValue_concat, ih, List.length_map, List.length_range,
      mod_words_succ]

/-! ### Runs of moves -/

/-- A run along a list of moves: move `k` takes state `k` to state `k + 1`, whatever agenda follows. -/
theorem run_moves {move : Nat → Action} {states : Nat → List Action → State} {n : Nat}
    (h : ∀ k < n, ∀ rest, step (states k (move k :: rest)) = .next (states (k + 1) rest)) (rest : List Action) :
    run n (states 0 ((List.range n).map move ++ rest)) = .next (states n rest) := by
  induction n generalizing rest with
  | zero => rfl
  | succ n ih =>
    rw [List.range_succ, List.map_append, List.append_assoc,
      run_add 1 (ih (fun k hk => h k (Nat.lt_succ_of_lt hk)) ([n].map move ++ rest)), run_one]
    exact h n (Nat.lt_succ_self n) rest

/-- The words of the windows can be accessed at the port (20_memory.md R60, R70). -/
theorem window_expressible (hc : s.cfg.Ok) (X : BigReg) {k : Nat} (hk : k < s.cfg.nwords) :
    (X.base + 4 * k) % 4 = 0 ∧ X.base + 4 * k < 0x2000 := by
  obtain ⟨i, hi, -, hle⟩ := base_eq X
  have hn := nwords_le_128 hc
  omega

theorem step_write_window (hc : s.cfg.Ok) (hb : s.status.busy = false) (hw : s.writable X = true) {k : Nat}
    (hk : k < s.cfg.nwords) {v : Word} {rest : List Action}
    (ha : s.agenda = .host (.write (X.base + 4 * k) 4 v) :: rest) :
    step s = .next { s.setBr X (replaceWord (s.br X) k v) with agenda := rest } := by
  obtain ⟨h4, hlt⟩ := window_expressible hc X hk
  rw [step_host ha, hostStep_write v h4 hlt, memWrite_window_open (s := { s with agenda := rest }) hc hb hw hk]
  rfl

theorem step_read_window (hc : s.cfg.Ok) (hb : s.status.busy = false) {k : Nat} (hk : k < s.cfg.nwords)
    {rest : List Action} (ha : s.agenda = .host (.read (X.base + 4 * k) 4) :: rest) :
    step s = .next { s with agenda := rest, reads := s.reads ++ [⟨X.base + 4 * k, wordOf (s.br X) k⟩] } := by
  obtain ⟨h4, hlt⟩ := window_expressible hc X hk
  rw [step_host ha, hostStep_read h4 hlt, State.answerRead, memRead_window (s := { s with agenda := rest }) hc X hk,
    if_neg (by simp [hb])]
  rfl

/-- The state after the first `k` word writes of `WR X, x`, with the agenda `a` to come. -/
def State.afterWrites (s : State) (X : BigReg) (x k : Nat) (a : List Action) : State :=
  { s.setBr X (withLowWords x (s.br X) k) with agenda := a }

theorem State.afterWrites_zero {a : List Action} (ha : s.agenda = a) (X : BigReg) (x : Nat) :
    s.afterWrites X x 0 a = s := by
  rw [← ha, State.afterWrites, withLowWords_zero, State.setBr_self]

theorem State.afterWrites_all (hc : s.cfg.Ok) {x : Nat} (hs : s.br X < s.cfg.bound) (hx : x < s.cfg.bound)
    (a : List Action) : s.afterWrites X x s.cfg.nwords a = { s.setBr X x with agenda := a } := by
  rw [State.afterWrites, withLowWords_all (bound_eq_words hc ▸ hx) (bound_eq_words hc ▸ hs)]

theorem State.afterWrites_writable (s : State) (X : BigReg) (x k : Nat) (a : List Action) (Y : BigReg) :
    (s.afterWrites X x k a).writable Y = s.writable Y := by
  cases Y <;> rfl

theorem State.afterWrites_br (s : State) (X : BigReg) (x k : Nat) (a : List Action) :
    (s.afterWrites X x k a).br X = withLowWords x (s.br X) k := s.setBr_br_same X _

theorem State.afterWrites_succ (s : State) (X : BigReg) (x k : Nat) (a rest : List Action) :
    { (s.afterWrites X x k a).setBr X (replaceWord ((s.afterWrites X x k a).br X) k (wordOf x k)) with agenda := rest } =
      s.afterWrites X x (k + 1) rest := by
  rw [State.afterWrites_br, replaceWord_withLowWords]
  exact congrArg (fun u : State => { u with agenda := rest }) (s.setBr_setBr X _ _)

theorem step_afterWrites (hc : s.cfg.Ok) (hb : s.status.busy = false) (hw : s.writable X = true) (x k : Nat)
    (hk : k < s.cfg.nwords) (rest : List Action) :
    step (s.afterWrites X x k (.host (.write (X.base + 4 * k) 4 (wordOf x k)) :: rest)) =
      .next (s.afterWrites X x (k + 1) rest) := by
  rw [step_write_window (s := s.afterWrites X x k _) hc hb ((s.afterWrites_writable X x k _ X).trans hw) hk rfl,
    State.afterWrites_succ]

/-- Settles O17: each move of the line takes one more word from the value. -/
theorem wholeRegisterWrite : Obligations.WholeRegisterWrite := by
  intro s X x rest hc hb hw hs hx ha
  have hrun := run_moves (step_afterWrites hc hb hw x) rest
  rw [ScriptLine.expand] at ha
  rwa [State.afterWrites_zero ha, State.afterWrites_all hc hs hx] at hrun

/-- The answers to the words of `X` read in ascending order, the first `n` of them. -/
def State.wordAnswers (s : State) (X : BigReg) (n : Nat) : List ReadAnswer :=
  (List.range n).map fun k => ⟨X.base + 4 * k, wordOf (s.br X) k⟩

theorem State.wordAnswers_succ (s : State) (X : BigReg) (n : Nat) :
    s.wordAnswers X (n + 1) = s.wordAnswers X n ++ [⟨X.base + 4 * n, wordOf (s.br X) n⟩] := by
  simp [State.wordAnswers, List.range_succ]

theorem State.wordAnswers_off (s : State) (X : BigReg) :
    (s.wordAnswers X s.cfg.nwords).map ReadAnswer.off = wordOffsets s.cfg X := List.map_map

theorem State.wordAnswers_value (s : State) (X : BigReg) (n : Nat) :
    wordsValue ((s.wordAnswers X n).map ReadAnswer.word) = s.br X % 2 ^ (32 * n) := by
  rw [State.wordAnswers, List.map_map]
  exact wordsValue_words (s.br X) n

/-- The state after the first `k` word reads of `RD X`, with the agenda `a` to come. -/
def State.afterReads (s : State) (X : BigReg) (k : Nat) (a : List Action) : State :=
  { s with agenda := a, reads := s.reads ++ s.wordAnswers X k }

theorem State.afterReads_zero {a : List Action} (ha : s.agenda = a) (X : BigReg) : s.afterReads X 0 a = s := by
  simp [← ha, State.afterReads, State.wordAnswers]

theorem step_afterReads (hc : s.cfg.Ok) (hb : s.status.busy = false) (X : BigReg) (k : Nat) (hk : k < s.cfg.nwords)
    (rest : List Action) :
    step (s.afterReads X k (.host (.read (X.base + 4 * k) 4) :: rest)) = .next (s.afterReads X (k + 1) rest) := by
  rw [step_read_window (s := s.afterReads X k _) hc hb hk rfl, State.afterReads, State.afterReads,
    State.wordAnswers_succ, ← List.append_assoc]
  rfl

theorem expand_rd (cfg : Config) (X : BigReg) :
    ScriptLine.expand cfg (.rd X) = (List.range cfg.nwords).map fun k => .host (.read (X.base + 4 * k) 4) := List.map_map

/-- Settles O18: each move of the line records one more word of the value. -/
theorem wholeRegisterRead : Obligations.WholeRegisterRead := by
  intro s X rest hc hb hs ha
  refine ⟨s.wordAnswers X s.cfg.nwords, ?_, s.wordAnswers_off X, ?_⟩
  · have hrun := run_moves (step_afterReads hc hb X) rest
    rw [expand_rd] at ha
    rwa [State.afterReads_zero ha] at hrun
  · rw [s.wordAnswers_value, ← bound_eq_words hc, Nat.mod_eq_of_lt hs]

end Sys2Proof.Machine

/-! ## The power loop run to its end (42_modpow.md R142 to R145), and a power from reset (30_encoding.md R110) -/

namespace Sys2Proof.Machine

variable {s t u : State}

/-! ### Runs of any length -/

/-- Some run of the machine leads from `s` to `t`. -/
def State.Reaches (s t : State) : Prop := ∃ k, run k s = .next t

theorem State.Reaches.of_step (h : step s = .next t) : s.Reaches t := ⟨1, (run_one s).trans h⟩

theorem State.Reaches.trans (h : s.Reaches t) (h' : t.Reaches u) : s.Reaches u := by
  obtain ⟨j, hj⟩ := h
  obtain ⟨k, hk⟩ := h'
  exact ⟨j + k, (run_add k hj).trans hk⟩

/-! ### The engine's turn without end -/

/-- The agenda lets the engine take every step it can: it is empty, or a `settle` heads it (log entry 2). -/
def State.EngineRuns (s : State) : Prop := s.agenda = [] ∨ ∃ rest, s.agenda = .settle :: rest

theorem State.EngineRuns.step_eq (h : s.EngineRuns) (he : s.phase.engineEnabled = true) : step s = engineStep s := by
  rcases h with ha | ⟨rest, ha⟩
  · exact step_of_agenda_nil ha he
  · rw [step_settle ha, if_pos he]

/-! ### What the power loop computes -/

/-- The value the loop delivers from given working values (42_modpow.md R145). -/
def Hidden.powResult (h : Hidden) : Nat := if h.e = 0 then h.c else h.c * h.b ^ h.e % h.m

theorem Hidden.powResult_powRound {h : Hidden} (he : h.e ≠ 0) : h.powRound.powResult = h.powResult := by
  by_cases h1 : h.e = 1
  · simp [Hidden.powResult, Hidden.powRound, h1]
  · have hhalf : h.e / 2 ≠ 0 := by omega
    rw [Hidden.powResult, Hidden.powResult, if_neg he, if_neg (show h.powRound.e ≠ 0 from hhalf)]
    exact square_multiply_round h.c h.b h.e h.m

/-- The loop's working values: the product so far is below the modulus, or the 1 it starts with (42_modpow.md R144). -/
structure State.PowReady (s : State) : Prop where
  phase : s.phase = .mpLoop
  m_pos : 0 < s.hid.m
  m_bound : s.hid.m < s.cfg.bound
  c_lt : s.hid.c < s.hid.m ∨ s.hid.c = 1

theorem State.PowReady.c_lt_bound (h : s.PowReady) : s.hid.c < s.cfg.bound := by
  obtain ⟨-, hpos, hbound, hlt | hone⟩ := h <;> omega

theorem State.PowReady.powRound (h : s.PowReady) : ({ s with hid := s.hid.powRound } : State).PowReady where
  phase := h.phase
  m_pos := h.m_pos
  m_bound := h.m_bound
  c_lt := by
    simp only [Hidden.powRound]
    split
    · exact .inl (Nat.mod_lt _ h.m_pos)
    · exact h.c_lt

theorem engineStep_mpLoop (hp : s.phase = .mpLoop) : engineStep s = mpLoopStep s := by simp only [engineStep, hp]

theorem State.PowReady.step_eq (h : s.PowReady) (ha : s.EngineRuns) : step s = mpLoopStep s := by
  rw [ha.step_eq (by rw [h.phase]; rfl), engineStep_mpLoop h.phase]

theorem State.PowReady.step_round (h : s.PowReady) (ha : s.EngineRuns) (he : s.hid.e ≠ 0) :
    step s = .next { s with hid := s.hid.powRound } := by
  rw [h.step_eq ha, mpLoopStep, if_neg he, if_neg h.m_pos.ne']

theorem State.PowReady.step_deliver (h : s.PowReady) (ha : s.EngineRuns) (he : s.hid.e = 0) :
    step s = .next (s.setBr .res s.hid.powResult).finish := by
  rw [h.step_eq ha, mpLoopStep, if_pos he, Hidden.powResult, if_pos he, deliverResult_of_lt h.c_lt_bound]

/-- The loop takes one step for each bit of the exponent and one to deliver (42_modpow.md R143, R144). -/
theorem State.PowReady.run_loop (h : s.PowReady) (ha : s.EngineRuns) :
    ∃ g, run (bitlen s.hid.e + 1) s = .next (State.setBr { s with hid := g } .res s.hid.powResult).finish := by
  induction hn : bitlen s.hid.e generalizing s with
  | zero =>
    have he : s.hid.e = 0 := by
      by_contra he
      rw [← bitlen_half he] at hn
      cases hn
    exact ⟨s.hid, (run_one s).trans (h.step_deliver ha he)⟩
  | succ n ih =>
    have he : s.hid.e ≠ 0 := fun he => by rw [he] at hn; cases hn
    have hhalf : bitlen s.hid.powRound.e = n := Nat.succ.inj ((bitlen_half he).trans hn)
    obtain ⟨g, hg⟩ := ih h.powRound ha hhalf
    rw [Hidden.powResult_powRound he] at hg
    exact ⟨g, (run_succ _ (h.step_round ha he)).trans hg⟩

/-! ### The loaded power -/

theorem startPow_powReady {b e m : Nat} (hm : 0 < m) (hb : m < s.cfg.bound) : (s.startPow b e m).PowReady :=
  ⟨rfl, hm, hb, .inr rfl⟩

theorem startPow_powResult (s : State) (b e m : Nat) : (s.startPow b e m).hid.powResult = powerResidue b e m := by
  simp [Hidden.powResult, powerResidue, Nat.pow_mod]

/-- A power loaded into the loop is delivered, after `bitlen(exponent) + 1` steps (30_encoding.md R109). -/
theorem run_startPow {b e m : Nat} (ha : s.EngineRuns) (hm : 0 < m) (hb : m < s.cfg.bound) :
    ∃ g, run (bitlen e + 1) (s.startPow b e m) =
      .next (State.setBr { s with hid := g } .res (powerResidue b e m)).finish := by
  obtain ⟨g, hg⟩ := (startPow_powReady hm hb).run_loop (s := s.startPow b e m) ha
  rw [startPow_powResult] at hg
  exact ⟨g, hg⟩

/-! ### The lines of the script -/

theorem reaches_write (X : BigReg) {x : Nat} {rest : List Action} (hc : s.cfg.Ok) (hb : s.status.busy = false)
    (hw : s.writable X = true) (hs : s.br X < s.cfg.bound) (hx : x < s.cfg.bound)
    (ha : s.agenda = ScriptLine.expand s.cfg (.wr X x) ++ rest) :
    s.Reaches { s.setBr X x with agenda := rest } := ⟨_, wholeRegisterWrite s X x rest hc hb hw hs hx ha⟩

theorem reaches_command {i : Instr} {rest : List Action} (hb : s.status.busy = false)
    (ha : s.agenda = ScriptLine.expand s.cfg (.cmd i) ++ rest) :
    s.Reaches { s.issue (encode i) with agenda := rest } := by
  refine .of_step ?_
  rw [step_host ha, hostStep_write _ rfl (by decide), State.memWrite_cmd, if_neg (by simp [hb])]
  rfl

/-- `WAIT` on an ended command reads `STATUS` once (30_encoding.md R110). -/
theorem reaches_wait {rest : List Action} (hp : s.phase = .idle) (hd : s.status.done = true)
    (ha : s.agenda = ScriptLine.expand s.cfg .wait ++ rest) :
    s.Reaches { s.answerRead statusOff with agenda := rest } := by
  have hsettle : step s = .next { s with agenda := .poll :: rest } := by
    rw [step_settle ha, hp]
    rfl
  have hpoll : step { s with agenda := .poll :: rest } = .next { s.answerRead statusOff with agenda := rest } := by
    rw [step_poll rfl, pollStep, if_pos hd]
    rfl
  exact .trans (.of_step hsettle) (.of_step hpoll)

/-- `MODPOW` under `WAIT`, from its CHECK step (42_modpow.md R140, R145). -/
theorem State.Reaches.modpow {rest : List Action} (h : u.Reaches s) (hp : s.phase = .check)
    (hcmd : s.cmd = encode .modpow) (hm : 0 < s.br .opm) (hmb : s.br .opm < s.cfg.bound)
    (ha : s.agenda = ScriptLine.expand s.cfg .wait ++ rest) :
    ∃ g, u.Reaches { (State.setBr { s with hid := g } .res
      (powerResidue (s.br .opa) (s.br .opb) (s.br .opm))).finish.answerRead statusOff with agenda := rest } := by
  have hrun : s.EngineRuns := .inr ⟨_, ha⟩
  have hcheck : step s = .next (s.startPow (s.br .opa) (s.br .opb) (s.br .opm)) := by
    rw [hrun.step_eq (by rw [hp]; rfl), engineStep_eq_exec hp (hcmd ▸ decodeOfEncode .modpow rfl)]
    exact if_neg hm.ne'
  obtain ⟨g, hg⟩ := run_startPow (b := s.br .opa) (e := s.br .opb) hrun hm hmb
  exact ⟨g, ((h.trans (.of_step hcheck)).trans ⟨_, hg⟩).trans (reaches_wait rfl rfl ha)⟩

/-- The script of a power: the operands, the command, and the wait for its end (30_encoding.md R110). -/
def powerScript (a e m : Nat) : List ScriptLine := [.wr .opa a, .wr .opb e, .wr .opm m, .cmd .modpow, .wait]

theorem statusWord_done : statusWord ⟨false, true, false, false, false, false, false, 0⟩ = 0x00000002#32 := by decide

/-- Settles O42, line by line of the script. -/
theorem scriptComputesThePower : Obligations.ScriptComputesThePower := by
  intro cfg a e m hc ha he hm hpos
  have hzero : 0 < cfg.bound := Nat.two_pow_pos cfg.nw
  have hopa := reaches_write (s := (State.resetFor cfg).withScript (powerScript a e m)) .opa hc rfl rfl hzero ha rfl
  have hopb := hopa.trans (reaches_write .opb hc rfl rfl hzero he rfl)
  have hopm := hopb.trans (reaches_write .opm hc rfl rfl hzero hm rfl)
  have hissue := hopm.trans (reaches_command rfl rfl)
  obtain ⟨g, k, hk⟩ := hissue.modpow (rest := []) rfl rfl hpos hm rfl
  exact ⟨k, _, hk, rfl, rfl, congrArg (fun w => [ReadAnswer.mk 0x0010 w]) statusWord_done, rfl, rfl, rfl, rfl, rfl⟩

end Sys2Proof.Machine

/-! ## Prime sampling: the two requests, the two replies, and the run that no rejected reply ends
(40_prime_sampling.md R121 to R126) -/

namespace Sys2Proof.Machine

variable {s t : State} {r : Nat × Bool}

/-! ### The two engine steps -/

theorem engineStep_kgDraw (hp : s.phase = .kgDraw) : engineStep s = kgDrawStep s := by simp only [engineStep, hp]

theorem engineStep_kgTest (hp : s.phase = .kgTest) : engineStep s = kgTestStep s := by simp only [engineStep, hp]

/-- Settles O28, one clause for each request. -/
theorem samplingRequests : Obligations.SamplingRequests := fun _ => ⟨engineStep_kgDraw, engineStep_kgTest⟩

/-! ### The two replies -/

theorem rngReplyStep_of_lt (hp : s.phase = .kgRngWait) {rnd : Nat} (hr : rnd < s.cfg.bound) (hw : 1 ≤ s.hid.w) :
    rngReplyStep s rnd = .next { s.emit (.rngReply rnd) with
      hid := { s.hid with cand := candidateOf s.hid.w rnd }
      phase := .kgTest } := by
  rw [rngReplyStep, if_neg (not_not.mpr hp), if_neg hr.not_ge, if_neg (Nat.one_le_iff_ne_zero.mp hw)]

/-- The acceptance condition of R124. -/
theorem Hidden.accepts_iff (h : Hidden) (verdict : Bool) :
    h.accepts verdict = true ↔ verdict = true ∧ (h.which = .p ∨ h.cand ≠ h.p) := by simp [Hidden.accepts]

theorem primeReplyStep_accept_p (hp : s.phase = .kgPtWait) (hq : s.hid.which = .p) :
    primeReplyStep s true = .next { s.emit (.primeReply true) with
      hid := { s.hid with p := s.hid.cand, which := .q }
      phase := .kgDraw } := by
  rw [primeReplyStep, if_neg (not_not.mpr hp), if_pos ((s.hid.accepts_iff true).mpr ⟨rfl, .inl hq⟩), hq]

theorem primeReplyStep_accept_q (hp : s.phase = .kgPtWait) (hq : s.hid.which = .q) (hne : s.hid.cand ≠ s.hid.p) :
    primeReplyStep s true = .next { s.emit (.primeReply true) with
      hid := { s.hid with q := s.hid.cand }
      phase := .kgDerive } := by
  rw [primeReplyStep, if_neg (not_not.mpr hp), if_pos ((s.hid.accepts_iff true).mpr ⟨rfl, .inr hne⟩), hq]

theorem primeReplyStep_reject (hp : s.phase = .kgPtWait) {verdict : Bool} (hn : s.hid.accepts verdict = false) :
    primeReplyStep s verdict = .next { s.emit (.primeReply verdict) with phase := .kgDraw } := by
  rw [primeReplyStep, if_neg (not_not.mpr hp), if_neg (Bool.eq_false_iff.mp hn)]

/-- Settles O29: the candidate by its bounds, and the three outcomes of the acceptance. -/
theorem samplingReplies : Obligations.SamplingReplies := by
  intro s
  refine ⟨fun rnd hp hr hw => ?_, fun verdict hp => ⟨?_, ?_, fun hrej => ?_⟩⟩
  · obtain ⟨hlow, hhigh⟩ := candidateOf_bounds hw rnd
    exact ⟨rngReplyStep_of_lt hp hr hw, hlow, hhigh, bitlen_eq hw hlow hhigh⟩
  · rintro rfl hq
    exact primeReplyStep_accept_p hp hq
  · rintro rfl hq hne
    exact primeReplyStep_accept_q hp hq hne
  · refine primeReplyStep_reject hp (Bool.eq_false_iff.mpr fun hacc => ?_)
    obtain ⟨hv, hwhich⟩ := (s.hid.accepts_iff verdict).mp hacc
    rcases hrej with hfalse | ⟨hq, heq⟩
    · cases hv.symm.trans hfalse
    · rcases hwhich with hP | hne
      · cases hq.symm.trans hP
      · exact hne heq

/-! ### The four moves of one rejected candidate -/

/-- A state in KG_DRAW, and a reply and a verdict that its sampling rejects. -/
structure State.DrawsInVain (s : State) (r : Nat × Bool) : Prop where
  phase : s.phase = .kgDraw
  width : 1 ≤ s.hid.w
  bound : r.1 < s.cfg.bound
  rejects : s.hid.Rejects r

/-- The phase after `j` of the four moves of a rejected candidate. -/
def samplingPhase : Nat → Phase
  | 1 => .kgRngWait
  | 2 => .kgTest
  | 3 => .kgPtWait
  | _ => .kgDraw

/-- The state after the first `j` of the four moves of the candidate that `r` answers. -/
def State.amidCandidate (s : State) (r : Nat × Bool) (j : Nat) : State :=
  { s with
    hid := { s.hid with cand := if j < 2 then s.hid.cand else candidateOf s.hid.w r.1 }
    trace := s.trace ++ (candidateEvents s.hid.w r).take j
    phase := samplingPhase j }

theorem State.amidCandidate_zero (hp : s.phase = .kgDraw) (r : Nat × Bool) : s.amidCandidate r 0 = s := by
  simp [State.amidCandidate, samplingPhase, ← hp]

/-- A port event of the candidate lengthens its trace by one. -/
theorem State.amidCandidate_trace_succ (s : State) (r : Nat × Bool) {j : Nat} {ev : PortEvent}
    (hev : (candidateEvents s.hid.w r)[j]? = some ev) :
    (s.amidCandidate r j).trace ++ [ev] = (s.amidCandidate r (j + 1)).trace := by
  simp [State.amidCandidate, List.take_add_one, hev]

theorem engineStep_amidCandidate_zero (s : State) (r : Nat × Bool) :
    engineStep (s.amidCandidate r 0) = .next (s.amidCandidate r 1) := by
  rw [engineStep_kgDraw rfl, kgDrawStep, State.emit, s.amidCandidate_trace_succ r rfl]
  rfl

theorem State.DrawsInVain.rngReplyStep_amidCandidate (h : s.DrawsInVain r) :
    rngReplyStep (s.amidCandidate r 1) r.1 = .next (s.amidCandidate r 2) := by
  rw [rngReplyStep_of_lt (s := s.amidCandidate r 1) rfl h.bound h.width, State.emit, s.amidCandidate_trace_succ r rfl]
  rfl

theorem engineStep_amidCandidate_two (s : State) (r : Nat × Bool) :
    engineStep (s.amidCandidate r 2) = .next (s.amidCandidate r 3) := by
  rw [engineStep_kgTest rfl, kgTestStep, State.emit, s.amidCandidate_trace_succ r rfl]
  rfl

theorem State.DrawsInVain.primeReplyStep_amidCandidate (h : s.DrawsInVain r) :
    primeReplyStep (s.amidCandidate r 3) r.2 = .next (s.amidCandidate r 4) := by
  rw [primeReplyStep_reject rfl h.rejects.accepts_eq_false, State.emit, s.amidCandidate_trace_succ r rfl]
  rfl

/-- The four moves of the candidate that `r` answers, by number (40_prime_sampling.md R121 to R124). -/
def samplingMove (r : Nat × Bool) : Nat → Action
  | 0 | 2 => .engine
  | 1 => .rngReply r.1
  | _ => .primeReply r.2

theorem samplingMove_isMove (r : Nat × Bool) (j : Nat) : (samplingMove r j).isMove = true := by
  unfold samplingMove; split <;> rfl

/-- The engine is never kept waiting for its move. -/
theorem samplingMove_engine_or_waits (s : State) (r : Nat × Bool) {j : Nat} (hj : j < 4) :
    samplingMove r j = .engine ∨ (s.amidCandidate r j).phase.engineEnabled = false := by
  match j, hj with
  | 0, _ | 2, _ => exact .inl rfl
  | 1, _ | 3, _ => exact .inr rfl

theorem State.DrawsInVain.with_agenda (h : s.DrawsInVain r) (a : List Action) :
    ({ s with agenda := a } : State).DrawsInVain r := ⟨h.phase, h.width, h.bound, h.rejects⟩

theorem State.DrawsInVain.step_samplingMove (h : s.DrawsInVain r) {j : Nat} (hj : j < 4) (rest : List Action) :
    step { s.amidCandidate r j with agenda := samplingMove r j :: rest } =
      .next { s.amidCandidate r (j + 1) with agenda := rest } := by
  have h' := h.with_agenda rest
  match j, hj with
  | 0, _ => exact (step_engine rfl).trans (engineStep_amidCandidate_zero { s with agenda := rest } r)
  | 1, _ => exact (step_rngReply rfl).trans h'.rngReplyStep_amidCandidate
  | 2, _ => exact (step_engine rfl).trans (engineStep_amidCandidate_two { s with agenda := rest } r)
  | 3, _ => exact (step_primeReply rfl).trans h'.primeReplyStep_amidCandidate

/-! ### Any number of rejected candidates -/

/-- The state after the four moves of each candidate that `l` answers, in order. -/
def State.afterCandidates (s : State) (l : List (Nat × Bool)) : State :=
  { s with
    hid := { s.hid with cand := l.foldl (fun _ r => candidateOf s.hid.w r.1) s.hid.cand }
    trace := s.trace ++ l.flatMap (candidateEvents s.hid.w) }

theorem State.afterCandidates_nil (s : State) : s.afterCandidates [] = s := by simp [State.afterCandidates]

theorem State.afterCandidates_concat (hp : s.phase = .kgDraw) (l : List (Nat × Bool)) (r : Nat × Bool) :
    s.afterCandidates (l ++ [r]) = (s.afterCandidates l).amidCandidate r 4 := by
  simp [State.afterCandidates, State.amidCandidate, samplingPhase, candidateEvents, hp]

/-- The candidates so far change nothing that decides about a reply. -/
theorem State.DrawsInVain.afterCandidates (h : s.DrawsInVain r) (l : List (Nat × Bool)) :
    (s.afterCandidates l).DrawsInVain r := ⟨h.phase, h.width, h.bound, h.rejects⟩

/-! ### A list of replies in the agenda -/

/-- The lines `ENV RNG`, `ENV PRIME` of one reply and one verdict as moves (30_encoding.md R110). -/
def replyMoves (r : Nat × Bool) : List Action := [.settle, .rngReply r.1, .settle, .primeReply r.2]

/-- A `settle` before a request takes the engine's step, and is spent where the engine waits. -/
theorem run_settle (he : s.phase.engineEnabled = true) (ht : t.phase.engineEnabled = false)
    (hst : ∀ a, engineStep { s with agenda := a } = .next { t with agenda := a }) (rest : List Action) :
    run 2 { s with agenda := .settle :: rest } = .next { t with agenda := rest } := by
  have hrequest : step { s with agenda := .settle :: rest } = .next { t with agenda := .settle :: rest } := by
    rw [step_settle rfl, if_pos he, hst]
  have hspent : step { t with agenda := .settle :: rest } = .next { t with agenda := rest } := by
    rw [step_settle rfl, if_neg (Bool.eq_false_iff.mp ht)]
  rw [run_succ 1 hrequest, run_one, hspent]

theorem State.DrawsInVain.run_replyMoves (h : s.DrawsInVain r) (rest : List Action) :
    run 6 { s with agenda := replyMoves r ++ rest } = .next { s.amidCandidate r 4 with agenda := rest } := by
  have hdraw := run_settle (s := s.amidCandidate r 0) (t := s.amidCandidate r 1) rfl rfl
    fun a => engineStep_amidCandidate_zero { s with agenda := a } r
  have htest := run_settle (s := s.amidCandidate r 2) (t := s.amidCandidate r 3) rfl rfl
    fun a => engineStep_amidCandidate_two { s with agenda := a } r
  rw [State.amidCandidate_zero h.phase] at hdraw
  calc run 6 { s with agenda := replyMoves r ++ rest }
      = run 4 { s.amidCandidate r 1 with agenda := .rngReply r.1 :: .settle :: .primeReply r.2 :: rest } :=
        run_add 4 (hdraw _)
    _ = run 3 { s.amidCandidate r 2 with agenda := .settle :: .primeReply r.2 :: rest } :=
        run_succ 3 (h.step_samplingMove (j := 1) (by decide) _)
    _ = run 1 { s.amidCandidate r 3 with agenda := .primeReply r.2 :: rest } := run_add 1 (htest _)
    _ = .next { s.amidCandidate r 4 with agenda := rest } :=
        (run_one _).trans (h.step_samplingMove (j := 3) (by decide) rest)

theorem run_listed_replies (l : List (Nat × Bool)) (h : ∀ r ∈ l, s.DrawsInVain r) (rest : List Action) :
    run (6 * l.length) { s with agenda := l.flatMap replyMoves ++ rest } =
      .next { s.afterCandidates l with agenda := rest } := by
  induction l using List.reverseRecOn generalizing rest with
  | nil => rw [State.afterCandidates_nil]; rfl
  | append_singleton l r ih =>
    have hr : s.DrawsInVain r := h r (by simp)
    have hl := ih (fun r' hr' => h r' (by simp [hr'])) (replyMoves r ++ rest)
    rw [List.length_append, List.length_singleton, Nat.mul_add, List.flatMap_append, List.flatMap_singleton,
      List.append_assoc, run_add _ hl, State.afterCandidates_concat hr.phase]
    exact (hr.afterCandidates l).run_replyMoves rest

/-! ### One reply for ever -/

/-- While `serve` heads the agenda it stays there, and each candidate takes four steps. -/
theorem State.DrawsInVain.run_serve (h : s.DrawsInVain r) {rest : List Action} (ha : s.agenda = .serve r.1 r.2 :: rest) :
    run 4 s = .next (s.amidCandidate r 4) := by
  have hserve (j : Nat) : step (s.amidCandidate r j) = serveStep (s.amidCandidate r j) r.1 r.2 rest := step_serve ha
  have hdraw : step s = .next (s.amidCandidate r 1) := by
    rw [← State.amidCandidate_zero h.phase r, hserve, serveStep_enabled rfl, engineStep_amidCandidate_zero,
      State.amidCandidate_zero h.phase]
  have hrng := (hserve 1).trans ((serveStep_kgRngWait rfl _ _).trans h.rngReplyStep_amidCandidate)
  have htest := (hserve 2).trans ((serveStep_enabled rfl _ _).trans (engineStep_amidCandidate_two s r))
  have hprime := (hserve 3).trans ((serveStep_kgPtWait rfl _ _).trans h.primeReplyStep_amidCandidate)
  rw [run_succ 3 hdraw, run_succ 2 hrng, run_succ 1 htest, run_one, hprime]

theorem State.DrawsInVain.run_serve_replicate (h : s.DrawsInVain r) {rest : List Action}
    (ha : s.agenda = .serve r.1 r.2 :: rest) (n : Nat) :
    run (4 * n) s = .next (s.afterCandidates (List.replicate n r)) := by
  induction n with
  | zero => exact congrArg _ s.afterCandidates_nil.symm
  | succ n ih =>
    rw [Nat.mul_succ, run_add 4 ih, List.replicate_succ', State.afterCandidates_concat h.phase]
    exact (h.afterCandidates _).run_serve ha

/-! ### Every infinite sequence of replies -/

/-- The schedule that gives the four moves of each candidate in turn. -/
def samplingSchedule (replies : Nat → Nat × Bool) (k : Nat) : Option Action :=
  some (samplingMove (replies (k / 4)) (k % 4))

/-- The state at instant `k` of that schedule. -/
def State.samplingRun (s : State) (replies : Nat → Nat × Bool) (k : Nat) : State :=
  (s.afterCandidates ((List.range (k / 4)).map replies)).amidCandidate (replies (k / 4)) (k % 4)

/-- Between two candidates: the last move of one leads where the next one starts. -/
theorem State.samplingRun_succ (hp : s.phase = .kgDraw) (replies : Nat → Nat × Bool) (k : Nat) :
    s.samplingRun replies (k + 1) =
      (s.afterCandidates ((List.range (k / 4)).map replies)).amidCandidate (replies (k / 4)) (k % 4 + 1) := by
  by_cases hk : k % 4 = 3
  · have hdiv : (k + 1) / 4 = k / 4 + 1 := by omega
    have hmod : (k + 1) % 4 = 0 := by omega
    rw [State.samplingRun, hdiv, hmod, hk, State.amidCandidate_zero (s := s.afterCandidates _) hp, List.range_succ,
      List.map_append, List.map_singleton, State.afterCandidates_concat hp]
  · have hdiv : (k + 1) / 4 = k / 4 := by omega
    have hmod : (k + 1) % 4 = k % 4 + 1 := by omega
    rw [State.samplingRun, hdiv, hmod]

theorem State.samplingRun_four_mul (hp : s.phase = .kgDraw) (replies : Nat → Nat × Bool) (i : Nat) :
    s.samplingRun replies (4 * i) = s.afterCandidates ((List.range i).map replies) := by
  rw [State.samplingRun, Nat.mul_mod_right, Nat.mul_div_cancel_left i (by decide),
    State.amidCandidate_zero (s := s.afterCandidates _) hp]

theorem execution_samplingRun {replies : Nat → Nat × Bool} (h : ∀ i, s.DrawsInVain (replies i)) (ha : s.agenda = []) :
    Execution (samplingSchedule replies) (s.samplingRun replies) where
  is_move := by
    rintro k _ ⟨⟩
    exact samplingMove_isMove _ _
  moves := by
    rintro k _ ⟨⟩
    have hagenda (m : Action) : [m] = m :: s.agenda := by rw [ha]
    rw [State.samplingRun_succ (h 0).phase, hagenda]
    exact ((h (k / 4)).afterCandidates _).step_samplingMove (Nat.mod_lt k (by decide)) s.agenda
  pauses := nofun

theorem fair_samplingRun (s : State) (replies : Nat → Nat × Bool) :
    Fair (samplingSchedule replies) (s.samplingRun replies) := fun k =>
  ⟨k, le_rfl, (samplingMove_engine_or_waits _ (replies (k / 4)) (Nat.mod_lt k (by decide))).imp_left (congrArg some)⟩

/-- Settles O30, one clause for each way the replies can stand: listed, served for ever, or scheduled. -/
theorem samplingIsNeverCapped : Obligations.SamplingIsNeverCapped := by
  intro s hp hw
  refine ⟨fun replies hr ha => ?_, fun r rest hb hr ha n => ?_, fun replies hr ha => ?_⟩
  · have hrun := run_listed_replies replies (fun r hmem => ⟨hp, hw, (hr r hmem).1, (hr r hmem).2⟩) []
    rw [List.append_nil, show replies.flatMap replyMoves = s.agenda from ha.symm] at hrun
    exact ⟨_, hrun⟩
  · have hrun := State.DrawsInVain.run_serve_replicate ⟨hp, hw, hb, hr⟩ ha n
    rw [State.afterCandidates, List.flatMap_replicate] at hrun
    exact ⟨_, hrun⟩
  · have hvain (i : Nat) : s.DrawsInVain (replies i) := ⟨hp, hw, (hr i).1, (hr i).2⟩
    refine ⟨samplingSchedule replies, s.samplingRun replies, execution_samplingRun hvain ha, fair_samplingRun s replies,
      (State.samplingRun_four_mul hp replies 0).trans s.afterCandidates_nil, fun k => ⟨rfl, rfl⟩, fun i => ?_⟩
    rw [State.samplingRun_four_mul hp, State.afterCandidates, List.flatMap_map]
    exact ⟨_, rfl⟩

end Sys2Proof.Machine

/-! ## The inverse unit: its round, its last step, and the loop run to its end (41_modinv.md R130 to R136) -/

namespace Sys2Proof.Machine

variable {s : State} {g h : Hidden}

/-! ### The round -/

theorem engineStep_miLoop (hp : s.phase = .miLoop) : engineStep s = miLoopStep s := by simp only [engineStep, hp]

theorem miLoopStep_round (h0 : s.hid.newr ≠ 0) : miLoopStep s = .next { s with hid := s.hid.euclidRound } := if_neg h0

theorem Hidden.euclidRound_newr (h : Hidden) : h.euclidRound.newr = h.r % h.newr := Nat.mod_eq_sub_div_mul.symm

theorem Hidden.euclidRound_newr_lt (h0 : h.newr ≠ 0) : h.euclidRound.newr < h.newr := by
  rw [h.euclidRound_newr]
  exact Nat.mod_lt _ (Nat.pos_of_ne_zero h0)

/-- Settles O24: the step is `Hidden.euclidRound` written out. -/
theorem inverseLoopRound : Obligations.InverseLoopRound := by
  intro s hp h0
  exact ⟨(engineStep_miLoop hp).trans (miLoopStep_round h0), s.hid.euclidRound_newr,
    Nat.mod_lt _ (Nat.pos_of_ne_zero h0)⟩

/-- When `newr` is zero the gcd equation is about `r` alone (41_modinv.md R134). -/
theorem Hidden.EuclidFor.r_eq_gcd {a : Nat} (he : h.EuclidFor a) (h0 : h.newr = 0) : h.r = Nat.gcd a h.n := by
  rw [← he.gcd_eq, h0, Nat.gcd_zero_right]

/-- Settles O27: loaded values, round and end. -/
theorem inverseRoundKeepsTheCongruences : Obligations.InverseRoundKeepsTheCongruences := by
  refine ⟨fun s a n ret hn => ?_, fun s a hp h0 he hm => ?_, fun h a he h0 => he.r_eq_gcd h0⟩
  · exact ⟨startInverse_euclidFor a n ret, startInverse_magnitudes hn ret⟩
  · exact ⟨_, (engineStep_miLoop hp).trans (miLoopStep_round h0), hp, rfl, Hidden.euclidRound_newr_lt h0,
      euclidRound_congruences he, euclidRound_magnitudes hm h0⟩

/-! ### The last step -/

theorem miLoopStep_final (h0 : s.hid.newr = 0) : miLoopStep s = miFinalStep s := if_pos h0

theorem miFinalStep_notInvertible (hr : 1 < s.hid.r) : miFinalStep s = .next (s.raiseErr .notInvertible) := if_pos hr

theorem miFinalStep_toRes {v : Nat} (hr : s.hid.r ≤ 1) (hv : (v : Int) = normalizedInverse s.hid.t s.hid.n)
    (hret : s.hid.ret = .toRes) : miFinalStep s = s.deliverResult v := by
  unfold miFinalStep
  rw [if_neg (not_lt.mpr hr), ← hv, if_neg (by omega), hret]
  rfl

theorem miFinalStep_toKey {v : Nat} (hr : s.hid.r ≤ 1) (hv : (v : Int) = normalizedInverse s.hid.t s.hid.n)
    (hret : s.hid.ret = .toKey) : miFinalStep s = s.commitKey v := by
  unfold miFinalStep
  rw [if_neg (not_lt.mpr hr), ← hv, if_neg (by omega), hret]
  rfl

/-- What the commit of a pending key writes (43_keygen.md R155). -/
theorem State.PendingKeyInv.commitKey_eq (h : s.PendingKeyInv) (hc : s.cfg.Ok) (hn : s.hid.n < s.cfg.bound) {d : Nat}
    (hd : d < s.cfg.bound) : s.commitKey d = .next
      ((s.setKeySlot s.hid.p s.hid.q Config.eConst d s.hid.nmod s.hid.tot).setKeyValid true).finish := by
  obtain ⟨t, ht⟩ := h.commitKey_next hc hn hd
  exact (commitKey_cases ht).2 ▸ ht

/-- Settles O25: under the invariant `t` is between `-n` and `n`, so its normal form is a natural number that fits. -/
theorem inverseDelivers : Obligations.InverseDelivers := by
  intro s hs hp h0
  have hi := hs.inverseInv hp
  obtain ⟨hnonneg, hle⟩ := normalizedInverse_bounds hi.magnitudes.t_bound
  have hlt := lt_of_le_of_lt hle hi.n_bound
  have hv := Int.toNat_of_nonneg hnonneg
  rw [engineStep_miLoop hp, miLoopStep_final h0]
  refine ⟨miFinalStep_notInvertible, fun hr => ⟨_, hv, fun hret => ?_, fun hret => ?_⟩⟩
  · rw [miFinalStep_toRes hr hv hret, deliverResult_of_lt hlt]
    rfl
  · rw [miFinalStep_toKey hr hv hret, (hi.to_key hret).commitKey_eq hs.cfg_ok hi.n_bound hlt]
    rfl

/-! ### The loop run to its end -/

/-- The loop leads from `h` to `g` in `k` rounds and ends there (41_modinv.md R132, R134). -/
inductive Hidden.EuclidRun : Hidden → Nat → Hidden → Prop where
  | ends {h : Hidden} : h.newr = 0 → EuclidRun h 0 h
  | round {h g : Hidden} {k : Nat} : h.newr ≠ 0 → EuclidRun h.euclidRound k g → EuclidRun h (k + 1) g

/-- The loop ends, since `newr` falls in every round (41_modinv.md R134). -/
theorem Hidden.exists_euclidRun (h : Hidden) : ∃ k g, h.EuclidRun k g := by
  induction hn : h.newr using Nat.strong_induction_on generalizing h with
  | _ n ih =>
    by_cases h0 : h.newr = 0
    · exact ⟨0, h, .ends h0⟩
    · obtain ⟨k, g, hrun⟩ := ih _ (hn ▸ euclidRound_newr_lt h0) h.euclidRound rfl
      exact ⟨k + 1, g, .round h0 hrun⟩

theorem Hidden.EuclidRun.newr_eq_zero {k : Nat} (hrun : h.EuclidRun k g) : g.newr = 0 := by
  induction hrun with
  | ends h0 => exact h0
  | round _ _ ih => exact ih

/-- What every round keeps, the loop keeps. -/
theorem Hidden.EuclidRun.keeps {P : Hidden → Prop} {k : Nat} (hrun : h.EuclidRun k g)
    (hround : ∀ h : Hidden, h.newr ≠ 0 → P h → P h.euclidRound) (hP : P h) : P g := by
  induction hrun with
  | ends => exact hP
  | round h0 _ ih => exact ih (hround _ h0 hP)

/-- The loop works on the two pairs alone. -/
theorem Hidden.EuclidRun.frame {k : Nat} (hrun : h.EuclidRun k g) :
    g = { h with r := g.r, newr := g.newr, t := g.t, newt := g.newt } :=
  hrun.keeps (P := fun x => x = { h with r := x.r, newr := x.newr, t := x.t, newt := x.newt })
    (fun x _ hx => by rw [hx]; rfl) rfl

theorem Hidden.EuclidRun.euclidFor {a k : Nat} (hrun : h.EuclidRun k g) (he : h.EuclidFor a) : g.EuclidFor a :=
  hrun.keeps (P := (·.EuclidFor a)) (fun _ _ => euclidRound_congruences) he

theorem Hidden.EuclidRun.magnitudes {k : Nat} (hrun : h.EuclidRun k g) (hm : h.EuclidMagnitudes) : g.EuclidMagnitudes :=
  hrun.keeps (fun _ h0 hm => euclidRound_magnitudes hm h0) hm

/-- The function `euclidLoop` of R131 gives the end of the loop and counts its rounds, with fuel to spare. -/
theorem Hidden.EuclidRun.euclidLoop_eq {k fuel : Nat} (hrun : h.EuclidRun k g) (hfuel : h.newr < fuel) (rounds : Nat) :
    euclidLoop fuel h.r h.newr h.t h.newt rounds = (g.r, g.t, rounds + k) := by
  induction hrun generalizing fuel rounds with
  | ends h0 =>
    obtain ⟨fuel, rfl⟩ := Nat.exists_eq_add_one_of_ne_zero (Nat.ne_zero_of_lt hfuel)
    exact if_pos h0
  | @round h g k h0 _ ih =>
    obtain ⟨fuel, rfl⟩ := Nat.exists_eq_add_one_of_ne_zero (Nat.ne_zero_of_lt hfuel)
    have hrest := ih (fuel := fuel) (lt_of_lt_of_le (euclidRound_newr_lt h0) (Nat.le_of_lt_succ hfuel)) (rounds + 1)
    rw [Nat.add_assoc, Nat.add_comm 1 k] at hrest
    exact (if_neg h0).trans hrest

/-- With the engine running, the machine takes one step for each round (30_encoding.md R109). -/
theorem Hidden.EuclidRun.run_eq {k : Nat} (hrun : s.hid.EuclidRun k g) (ha : s.EngineRuns) (hp : s.phase = .miLoop) :
    run k s = .next { s with hid := g } := by
  generalize hs : s.hid = h at hrun
  induction hrun generalizing s with
  | ends => rw [← hs]; rfl
  | @round h g k h0 _ ih =>
    subst hs
    have hstep : step s = .next { s with hid := s.hid.euclidRound } := by
      rw [ha.step_eq (by rw [hp]; rfl), engineStep_miLoop hp, miLoopStep_round h0]
    exact (run_succ k hstep).trans (ih ha hp rfl)

/-! ### The loaded inverse -/

/-- The unit loaded with `modInverse(a, n)` when its loop has ended with the cofactors `t` and `newt`. -/
def State.inverseEnd (s : State) (a n : Nat) (ret : Ret) (t newt : Int) : State :=
  { s.startInverse a n ret with
    hid := { s.hid with n := n, ret := ret, r := Nat.gcd a n, newr := 0, t := t, newt := newt } }

/-- The loop on loaded values ends at the gcd, and its length and its `t` are those of R131 (41_modinv.md R134). -/
theorem startInverse_euclidRun (s : State) (a n : Nat) (ret : Ret) :
    ∃ t newt, (s.startInverse a n ret).hid.EuclidRun (modInverseRounds a n) (s.inverseEnd a n ret t newt).hid ∧
      modInverse a n = if 1 < Nat.gcd a n then none else some (normalizedInverse t n) := by
  obtain ⟨k, g, hrun⟩ := (s.startInverse a n ret).hid.exists_euclidRun
  have hloop : euclidLoop (a + 1) n a 0 1 0 = (g.r, g.t, 0 + k) := hrun.euclidLoop_eq (Nat.lt_succ_self a) 0
  have hn : g.n = n := by rw [hrun.frame]; rfl
  have hr : g.r = Nat.gcd a n := hn ▸ (hrun.euclidFor (startInverse_euclidFor a n ret)).r_eq_gcd hrun.newr_eq_zero
  have hend : g = (s.inverseEnd a n ret g.t g.newt).hid := by
    have hframe := hrun.frame
    rwa [hr, hrun.newr_eq_zero] at hframe
  refine ⟨g.t, g.newt, ?_, ?_⟩
  · rw [← hend, modInverseRounds, hloop, Nat.zero_add]
    exact hrun
  · rw [modInverse, hloop, hr]

/-- A loaded inverse runs, one step for each round and one more, into the last step (30_encoding.md R109). -/
theorem run_startInverse (ha : s.EngineRuns) (a n : Nat) (ret : Ret) :
    ∃ t newt, run (modInverseRounds a n + 1) (s.startInverse a n ret) = miFinalStep (s.inverseEnd a n ret t newt) ∧
      modInverse a n = if 1 < Nat.gcd a n then none else some (normalizedInverse t n) := by
  obtain ⟨t, newt, hrun, hinv⟩ := startInverse_euclidRun s a n ret
  have hloop : run (modInverseRounds a n) (s.startInverse a n ret) = .next (s.inverseEnd a n ret t newt) :=
    hrun.run_eq ha rfl
  have hlast : (s.inverseEnd a n ret t newt).EngineRuns := ha
  refine ⟨t, newt, ?_, hinv⟩
  rw [run_add 1 hloop, run_one]
  exact (hlast.step_eq rfl).trans (miLoopStep_final rfl)

/-! ### The value of the inverse (41_modinv.md R135) -/

theorem normalizedInverse_dvd_sub (t : Int) (n : Nat) : (n : Int) ∣ normalizedInverse t n - t := by
  unfold normalizedInverse
  split <;> simp

/-- A cofactor of 1, once normalized, is the inverse: it is not `n`, which is congruent to 0. -/
theorem normalizedInverse_spec {a n v : Nat} {t : Int} (hn : 2 ≤ n) (ht : t.natAbs ≤ n)
    (hc : (n : Int) ∣ t * a - 1) (hv : (v : Int) = normalizedInverse t n) : v < n ∧ a * v % n = 1 := by
  have hdvd : (n : Int) ∣ ((a * v : Nat) : Int) - 1 := by
    have hsum := dvd_add ((normalizedInverse_dvd_sub t n).mul_right (a : Int)) hc
    rw [← hv, show ((v : Int) - t) * a + (t * a - 1) = ((a * v : Nat) : Int) - 1 by push_cast; ring] at hsum
    exact hsum
  have hone : a * v % n = 1 := by
    have hmod : a * v ≡ 1 [MOD n] := (Nat.modEq_iff_dvd.mpr hdvd).symm
    rwa [Nat.ModEq, Nat.mod_eq_of_lt hn] at hmod
  have hle : v ≤ n := by
    have := (normalizedInverse_bounds ht).2
    omega
  have hne : v ≠ n := by
    rintro rfl
    simp at hone
  exact ⟨lt_of_le_of_ne hle hne, hone⟩

/-- The algorithm's values for the modulus 1, where no value is below it (41_modinv.md R135). -/
theorem modInverse_one (a : Nat) : modInverse a 1 = some (if a = 1 then 1 else 0) := by
  match a with
  | 0 => rfl
  | 1 => rfl
  | a + 2 =>
    have hq : 1 / (a + 2) = 0 := Nat.div_eq_of_lt (by omega)
    simp [modInverse, euclidLoop, hq, normalizedInverse]

theorem IsInverse.le {a n v : Nat} (h : IsInverse a n v) (hn : 1 ≤ n) : v ≤ n := by
  rcases eq_or_lt_of_le hn with rfl | hn
  · rw [h.2 rfl]
    split <;> decide
  · exact (h.1 hn).1.le

/-- The document's function on coprime operands (41_modinv.md R135). -/
theorem modInverse_of_coprime {a n : Nat} (hn : 1 ≤ n) (h : Nat.gcd a n = 1) :
    ∃ v : Nat, modInverse a n = some (v : Int) ∧ IsInverse a n v := by
  rcases eq_or_lt_of_le hn with rfl | hn2
  · exact ⟨if a = 1 then 1 else 0, by rw [modInverse_one]; push_cast; rfl, by omega, fun _ => rfl⟩
  · obtain ⟨t, newt, hrun, hinv⟩ := startInverse_euclidRun State.reset a n .toRes
    have ht := (hrun.magnitudes (startInverse_magnitudes hn .toRes)).t_bound
    have hc := (hrun.euclidFor (startInverse_euclidFor a n .toRes)).r_cong
    have hv := Int.toNat_of_nonneg (normalizedInverse_bounds ht).1
    refine ⟨(normalizedInverse t n).toNat, ?_, fun _ => normalizedInverse_spec hn2 ht ?_ hv, by omega⟩
    · rw [hinv, if_neg (not_lt.mpr h.le)]
      exact congrArg some hv.symm
    · rwa [show (State.reset.inverseEnd a n .toRes t newt).hid.r = 1 from h] at hc

/-! ### The command -/

/-- Settles O36: the loaded inverse runs into its last step, which fails or delivers the value of R131. -/
theorem modinvCompletes : Obligations.ModinvCompletes := by
  refine ⟨rfl, fun s => ⟨fun h0 => if_pos h0, fun hpos hbound => ⟨if_neg hpos.ne', fun ha hgcd => ?_, fun ha hgcd => ?_⟩⟩⟩
  · obtain ⟨t, newt, hrun, -⟩ := run_startInverse (.inl ha) (s.br .opa) (s.br .opm) .toRes
    exact ⟨_, hrun.trans (miFinalStep_notInvertible hgcd)⟩
  · obtain ⟨t, newt, hrun, hinv⟩ := run_startInverse (.inl ha) (s.br .opa) (s.br .opm) .toRes
    obtain ⟨v, hv, hspec⟩ := modInverse_of_coprime hpos hgcd
    rw [hv, if_neg (not_lt.mpr hgcd.le)] at hinv
    have hlt : v < s.cfg.bound := (hspec.le hpos).trans_lt hbound
    have hlast := miFinalStep_toRes (s := s.inverseEnd _ _ .toRes t newt) hgcd.le (Option.some.inj hinv) rfl
    exact ⟨_, v, hv, hspec, hrun.trans (hlast.trans (deliverResult_of_lt hlt))⟩

end Sys2Proof.Machine

/-! ## The exponentiation engine: its round, its last step, and the function it computes (42_modpow.md R140 to R145) -/

namespace Sys2Proof.Machine

variable {s : State} {h : Hidden}

/-! ### The two steps of the loop -/

theorem mpLoopStep_round (he : s.hid.e ≠ 0) (hm : 0 < s.hid.m) : mpLoopStep s = .next { s with hid := s.hid.powRound } := by
  rw [mpLoopStep, if_neg he, if_neg hm.ne']

theorem mpLoopStep_deliver (he : s.hid.e = 0) : mpLoopStep s = s.deliverResult s.hid.c := if_pos he

/-- Settles O23: the round is `Hidden.powRound` written out, the last step `State.deliverResult`. -/
theorem powerLoopSteps : Obligations.PowerLoopSteps := by
  intro s hp
  rw [engineStep_mpLoop hp]
  exact ⟨fun he hm => mpLoopStep_round he.ne' hm, fun he hc => (mpLoopStep_deliver he).trans (deliverResult_of_lt hc)⟩

/-- The product is the one before, or reduced in this round (42_modpow.md R144). -/
theorem Hidden.powRound_c_lt (hm : 0 < h.m) (hc : h.c < h.m ∨ h.c = 1) : h.powRound.c < h.m ∨ h.powRound.c = 1 := by
  unfold Hidden.powRound
  split
  · exact .inl (Nat.mod_lt _ hm)
  · exact hc

/-- Settles O26: the congruence is `square_multiply_round`, the lost bit `bitlen_half`. -/
theorem powerRoundKeepsTheProduct : Obligations.PowerRoundKeepsTheProduct := by
  intro s hp he hm hc
  exact ⟨_, (engineStep_mpLoop hp).trans (mpLoopStep_round he hm), hp, rfl, square_multiply_round _ _ _ _,
    Nat.mod_lt _ hm, Hidden.powRound_c_lt hm hc, bitlen_half he⟩

/-! ### The command -/

/-- Settles O33: the CHECK step is `State.startPow`, and the loop loaded by it delivers the power. -/
theorem modpowCompletes : Obligations.ModpowCompletes :=
  ⟨rfl, fun _ => ⟨fun h0 => if_pos h0, fun hpos hbound => ⟨if_neg hpos.ne', fun ha => run_startPow (.inl ha) hpos hbound⟩⟩⟩

/-! ### The document's functions -/

/-- The function `powLoop` of R141, with one unit of fuel for each bit of the exponent, gives the value that every round
keeps. -/
theorem Hidden.powLoop_eq (h : Hidden) : powLoop h.m (bitlen h.e) h.c h.b h.e = h.powResult := by
  induction hn : h.e using Nat.strong_induction_on generalizing h with
  | _ n ih =>
    subst hn
    by_cases he : h.e = 0
    · rw [Hidden.powResult, if_pos he, he]
      rfl
    · have hround := ih h.powRound.e (Nat.div_lt_self (Nat.pos_of_ne_zero he) one_lt_two) h.powRound rfl
      rw [← bitlen_half he, powLoop, if_neg he]
      exact hround.trans (Hidden.powResult_powRound he)

theorem modPow_eq_powerResidue (base exponent modulus : Nat) :
    modPow base exponent modulus = powerResidue base exponent modulus :=
  (State.reset.startPow base exponent modulus).hid.powLoop_eq.trans (startPow_powResult State.reset base exponent modulus)

theorem modInverse_eq_none {a n : Nat} (hgcd : 1 < Nat.gcd a n) : modInverse a n = none := by
  obtain ⟨t, newt, -, hinv⟩ := startInverse_euclidRun State.reset a n .toRes
  rw [hinv, if_pos hgcd]

/-- Settles O41: each loop is the one of the engine, whose end is known. -/
theorem referenceFunctions : Obligations.ReferenceFunctions :=
  ⟨fun base exponent modulus _ => modPow_eq_powerResidue base exponent modulus,
    fun _ _ hn => ⟨modInverse_eq_none, modInverse_of_coprime hn⟩⟩

end Sys2Proof.Machine

/-! ## Key generation: the CHECK parts, the derive step, the sampled primes and the committed key
(43_keygen.md R150 to R163; 40_prime_sampling.md R121 to R124) -/

namespace Sys2Proof.Machine

variable {s t : State} {x : Nat}

/-! ### The CHECK parts -/

theorem execGenkey_width {w : Nat} (h : w < Config.minW ∨ s.cfg.maxW < w) :
    execGenkey w s = .next (s.raiseErr .width) := if_pos h

theorem execGenkey_locked {w : Nat} (hlow : Config.minW ≤ w) (hhigh : w ≤ s.cfg.maxW) (hk : s.status.keyValid = true) :
    execGenkey w s = .next (s.raiseErr .keyLocked) := by
  rw [execGenkey, if_neg (not_or.mpr ⟨hlow.not_gt, hhigh.not_gt⟩), if_pos hk]

theorem execGenkey_loads {w : Nat} (hlow : Config.minW ≤ w) (hhigh : w ≤ s.cfg.maxW) (hk : s.status.keyValid = false) :
    execGenkey w s = .next { s with hid := { s.hid with w := w, which := .p }, phase := .kgDraw } := by
  rw [execGenkey, if_neg (not_or.mpr ⟨hlow.not_gt, hhigh.not_gt⟩), if_neg (Bool.eq_false_iff.mp hk)]

/-- Settles O38, one clause for each outcome of the two checks. -/
theorem genkeyCheck : Obligations.GenkeyCheck := fun _ _ =>
  ⟨execGenkey_width, execGenkey_locked, execGenkey_loads⟩

/-- What `DERIVE` refuses of two factors (43_keygen.md R159). -/
def State.FactorsRefused (s : State) : Prop :=
  s.br .opa < 2 ∨ s.br .opb < 2 ∨ s.br .opa = s.br .opb ∨ s.cfg.bound ≤ s.br .opa * s.br .opb

theorem execDerive_locked (hk : s.status.keyValid = true) : execDerive s = .next (s.raiseErr .keyLocked) := if_pos hk

theorem execDerive_range (hk : s.status.keyValid = false) (h : s.FactorsRefused) :
    execDerive s = .next (s.raiseErr .range) := by
  rw [execDerive, if_neg (Bool.eq_false_iff.mp hk)]
  exact if_pos h

theorem execDerive_loads (hk : s.status.keyValid = false) (h : ¬s.FactorsRefused) :
    execDerive s = .next { s with hid := { s.hid with p := s.br .opa, q := s.br .opb }, phase := .kgDerive } := by
  rw [execDerive, if_neg (Bool.eq_false_iff.mp hk)]
  exact if_neg h

/-! ### The derive step -/

/-- The totient of the two factors (43_keygen.md R154). -/
def Hidden.totient (h : Hidden) : Nat := (h.p - 1) * (h.q - 1)

/-- The state with modulus and totient formed (43_keygen.md R154). -/
def State.withModulus (s : State) : State :=
  { s with hid := { s.hid with nmod := s.hid.p * s.hid.q, tot := s.hid.totient } }

theorem engineStep_kgDerive (hp : s.phase = .kgDerive) (hp1 : 1 ≤ s.hid.p) (hq1 : 1 ≤ s.hid.q) :
    engineStep s = .next (s.withModulus.startInverse Config.eConst s.hid.totient .toKey) := by
  simp only [engineStep, hp]
  exact if_neg (by omega)

theorem State.FactorsInv.two_le_totient (h : s.FactorsInv) : 2 ≤ s.hid.totient :=
  Machine.two_le_totient h.p_low h.q_low h.distinct

/-- Settles O40: the step loads the inverse unit, and the factors of the invariant are distinct and at least 2. -/
theorem deriveStepLoadsTheInverse : Obligations.DeriveStepLoadsTheInverse := fun _ hp =>
  ⟨engineStep_kgDerive hp, fun hs => (hs.factorsInv hp).two_le_totient⟩

/-! ### The derivation run to its end -/

/-- Factors from which the derivation runs to its end (43_keygen.md R153, R159, R160). -/
structure State.DeriveReady (s : State) : Prop where
  cfg_ok : s.cfg.Ok
  phase : s.phase = .kgDerive
  p_low : 2 ≤ s.hid.p
  q_low : 2 ≤ s.hid.q
  distinct : s.hid.p ≠ s.hid.q
  product : s.hid.p * s.hid.q < s.cfg.bound

namespace State.DeriveReady

theorem two_le_totient (h : s.DeriveReady) : 2 ≤ s.hid.totient := Machine.two_le_totient h.p_low h.q_low h.distinct

theorem totient_lt_bound (h : s.DeriveReady) : s.hid.totient < s.cfg.bound :=
  (Nat.mul_le_mul (Nat.sub_le _ _) (Nat.sub_le _ _)).trans_lt h.product

theorem p_lt_bound (h : s.DeriveReady) : s.hid.p < s.cfg.bound :=
  (Nat.le_mul_of_pos_right _ (Nat.zero_lt_of_lt h.q_low)).trans_lt h.product

theorem q_lt_bound (h : s.DeriveReady) : s.hid.q < s.cfg.bound :=
  (Nat.le_mul_of_pos_left _ (Nat.zero_lt_of_lt h.p_low)).trans_lt h.product

/-- The derive step, the rounds, and then the last step of the inverse (30_encoding.md R109). -/
theorem run_eq (h : s.DeriveReady) (ha : s.EngineRuns) :
    ∃ c newc, run (modInverseRounds 65537 s.hid.totient + 2) s =
        miFinalStep (s.withModulus.inverseEnd 65537 s.hid.totient .toKey c newc) ∧
      modInverse 65537 s.hid.totient =
        if 1 < Nat.gcd 65537 s.hid.totient then none else some (normalizedInverse c s.hid.totient) := by
  have hstep : step s = .next (s.withModulus.startInverse 65537 s.hid.totient .toKey) := by
    rw [ha.step_eq (by rw [h.phase]; rfl)]
    exact engineStep_kgDerive h.phase (Nat.one_le_of_lt h.p_low) (Nat.one_le_of_lt h.q_low)
  obtain ⟨c, newc, hrun, hinv⟩ := run_startInverse (s := s.withModulus) ha 65537 s.hid.totient .toKey
  exact ⟨c, newc, (run_succ _ hstep).trans hrun, hinv⟩

/-- A totient that 65537 divides ends in an error, with the key slot as it was (43_keygen.md R156). -/
theorem run_notInvertible (h : s.DeriveReady) (ha : s.EngineRuns) (hgcd : 1 < Nat.gcd 65537 s.hid.totient) :
    ∃ g, run (modInverseRounds 65537 s.hid.totient + 2) s = .next { s.raiseErr .notInvertible with hid := g } := by
  obtain ⟨c, newc, hrun, -⟩ := h.run_eq ha
  exact ⟨_, hrun.trans (miFinalStep_notInvertible hgcd)⟩

/-- The commit at the end of the loop writes the six registers, since all six values fit (43_keygen.md R155). -/
theorem commitKey_inverseEnd (h : s.DeriveReady) (c newc : Int) {d : Nat} (hd : d ≤ s.hid.totient) :
    (s.withModulus.inverseEnd 65537 s.hid.totient .toKey c newc).commitKey d =
      .next ((State.setKeySlot { s with hid := (s.withModulus.inverseEnd 65537 s.hid.totient .toKey c newc).hid }
        s.hid.p s.hid.q 65537 d (s.hid.p * s.hid.q) s.hid.totient).setKeyValid true).finish :=
  if_pos ⟨h.p_lt_bound, h.q_lt_bound, eConst_lt_bound h.cfg_ok, hd.trans_lt h.totient_lt_bound, h.product,
    h.totient_lt_bound⟩

/-- Otherwise the whole key is committed (43_keygen.md R155). -/
theorem run_commit (h : s.DeriveReady) (ha : s.EngineRuns) (hgcd : Nat.gcd 65537 s.hid.totient = 1) :
    ∃ g d, IsInverse 65537 s.hid.totient d ∧ run (modInverseRounds 65537 s.hid.totient + 2) s =
      .next ((State.setKeySlot { s with hid := g } s.hid.p s.hid.q 65537 d (s.hid.p * s.hid.q)
        s.hid.totient).setKeyValid true).finish := by
  have htot : 1 ≤ s.hid.totient := Nat.one_le_of_lt h.two_le_totient
  obtain ⟨c, newc, hrun, hinv⟩ := h.run_eq ha
  obtain ⟨d, hd, hspec⟩ := modInverse_of_coprime htot hgcd
  rw [hd, if_neg (not_lt.mpr hgcd.le)] at hinv
  have hlast := miFinalStep_toKey (s := s.withModulus.inverseEnd _ _ .toKey c newc) hgcd.le (Option.some.inj hinv) rfl
  exact ⟨_, d, hspec, hrun.trans (hlast.trans (h.commitKey_inverseEnd c newc (hspec.le htot)))⟩

end State.DeriveReady

/-- The factors that `DERIVE` admits are ready. -/
theorem deriveReady_of_admitted (hc : s.cfg.Ok) (h : ¬s.FactorsRefused) : State.DeriveReady
    { s with hid := { s.hid with p := s.br .opa, q := s.br .opb }, phase := .kgDerive } := by
  simp only [State.FactorsRefused, not_or, Nat.not_lt, Nat.not_le] at h
  obtain ⟨hp, hq, hne, hpq⟩ := h
  exact ⟨hc, rfl, hp, hq, hne, hpq⟩

/-- Settles O37: the checks, and then the derivation run to its end. -/
theorem deriveCompletes : Obligations.DeriveCompletes := by
  refine ⟨rfl, fun s hc => ⟨execDerive_locked, execDerive_range, fun hk hin => ⟨execDerive_loads hk hin, ?_, ?_⟩⟩⟩
  · exact fun ha hgcd => (deriveReady_of_admitted hc hin).run_notInvertible (.inl ha) hgcd
  · exact fun ha hgcd => (deriveReady_of_admitted hc hin).run_commit (.inl ha) hgcd

/-! ### An accepted candidate -/

/-- A state in KG_DRAW and a reply that its request can have. -/
structure State.Draws (s : State) (x : Nat) : Prop where
  phase : s.phase = .kgDraw
  width : 1 ≤ s.hid.w
  bound : x < s.cfg.bound

/-- The same candidate with the verdict 0 is drawn in vain, so what is known of its first three moves applies. -/
theorem State.Draws.inVain (h : s.Draws x) : s.DrawsInVain (x, false) := ⟨h.phase, h.width, h.bound, .inl rfl⟩

/-- The first three moves do not look at the verdict. -/
theorem State.Draws.run_to_verdict (h : s.Draws x) (rest : List Action) :
    run 5 { s with agenda := .settle :: .rngReply x :: .settle :: rest } =
      .next { s.amidCandidate (x, true) 3 with agenda := rest } := by
  have hdraw := run_settle (s := s.amidCandidate (x, true) 0) (t := s.amidCandidate (x, true) 1) rfl rfl
    fun a => engineStep_amidCandidate_zero { s with agenda := a } _
  have htest := run_settle (s := s.amidCandidate (x, true) 2) (t := s.amidCandidate (x, true) 3) rfl rfl
    fun a => engineStep_amidCandidate_two { s with agenda := a } _
  rw [State.amidCandidate_zero h.phase] at hdraw
  calc run 5 { s with agenda := .settle :: .rngReply x :: .settle :: rest }
      = run 3 { s.amidCandidate (x, true) 1 with agenda := .rngReply x :: .settle :: rest } := run_add 3 (hdraw _)
    _ = run 2 { s.amidCandidate (x, true) 2 with agenda := .settle :: rest } :=
        run_succ 2 (h.inVain.step_samplingMove (j := 1) (by decide) _)
    _ = .next { s.amidCandidate (x, true) 3 with agenda := rest } := htest rest

/-- The state when the candidate of the reply `x` was accepted as `p` (40_prime_sampling.md R124). -/
def State.withPrimeP (s : State) (x : Nat) : State :=
  { s.amidCandidate (x, true) 4 with
    hid := { s.hid with cand := candidateOf s.hid.w x, p := candidateOf s.hid.w x, which := .q } }

/-- The state when the candidate of the reply `x` was accepted as `q` (40_prime_sampling.md R124). -/
def State.withPrimeQ (s : State) (x : Nat) : State :=
  { s.amidCandidate (x, true) 4 with
    hid := { s.hid with cand := candidateOf s.hid.w x, q := candidateOf s.hid.w x }
    phase := .kgDerive }

theorem State.primeReplyStep_withPrimeP (s : State) (hw : s.hid.which = .p) (x : Nat) :
    primeReplyStep (s.amidCandidate (x, true) 3) true = .next (s.withPrimeP x) := by
  rw [primeReplyStep_accept_p (s := s.amidCandidate (x, true) 3) rfl hw, State.emit,
    s.amidCandidate_trace_succ (x, true) rfl]
  rfl

theorem State.primeReplyStep_withPrimeQ (s : State) (hw : s.hid.which = .q) (hne : candidateOf s.hid.w x ≠ s.hid.p) :
    primeReplyStep (s.amidCandidate (x, true) 3) true = .next (s.withPrimeQ x) := by
  rw [primeReplyStep_accept_q (s := s.amidCandidate (x, true) 3) rfl hw hne, State.emit,
    s.amidCandidate_trace_succ (x, true) rfl]
  rfl

/-- The answers to both requests of a candidate, when the verdict is taken as `hreply` says. -/
theorem State.Draws.run_replyMoves (h : s.Draws x)
    (hreply : ∀ a, primeReplyStep { s.amidCandidate (x, true) 3 with agenda := a } true = .next { t with agenda := a })
    (rest : List Action) :
    run 6 { s with agenda := replyMoves (x, true) ++ rest } = .next { t with agenda := rest } := by
  have hverdict := h.run_to_verdict (.primeReply true :: rest)
  exact (run_add 1 hverdict).trans ((run_one _).trans ((step_primeReply rfl).trans (hreply rest)))

/-! ### `GENKEY` with both candidates accepted -/

/-- The candidate of an admitted width is at least 2 (40_prime_sampling.md R122). -/
theorem two_le_candidateOf {w : Nat} (hw : 8 ≤ w) (x : Nat) : 2 ≤ candidateOf w x :=
  calc 2 = 2 ^ 1 := rfl
    _ ≤ 2 ^ (w - 1) := Nat.pow_le_pow_right (by decide) (by omega)
    _ ≤ candidateOf w x := (candidateOf_bounds (by omega) x).1

/-- `GENKEY w` as its CHECK part loads it, with the agenda `a` to come (43_keygen.md R151). -/
def State.genkeyLoaded (s : State) (w : Nat) (a : List Action) : State :=
  { s with hid := { s.hid with w := w, which := .p }, phase := .kgDraw, agenda := a }

/-- The state when the candidates of `x` and `y` were accepted, one after the other. -/
def State.withPrimes (s : State) (w x y : Nat) : State := ((s.genkeyLoaded w []).withPrimeP x).withPrimeQ y

theorem State.withPrimes_deriveReady (hc : s.cfg.Ok) {w y : Nat} (hlow : 8 ≤ w) (hhigh : w ≤ s.cfg.nw / 2)
    (hne : candidateOf w x ≠ candidateOf w y) : (s.withPrimes w x y).DeriveReady where
  cfg_ok := hc
  phase := rfl
  p_low := two_le_candidateOf hlow x
  q_low := two_le_candidateOf hlow y
  distinct := hne
  product :=
    have hw : 1 ≤ w := by omega
    have hwide : 2 * w ≤ s.cfg.nw := by omega
    mul_lt_two_pow (candidateOf_bounds hw x).2 (candidateOf_bounds hw y).2 hwide

/-- The answers for `p`, then those for `q`: the second is accepted because it differs (40_prime_sampling.md R124). -/
theorem run_genkeyLoaded {w y : Nat} (hw : 1 ≤ w) (hx : x < s.cfg.bound) (hy : y < s.cfg.bound)
    (hne : candidateOf w x ≠ candidateOf w y) :
    run 12 (s.genkeyLoaded w (replyMoves (x, true) ++ (replyMoves (y, true) ++ []))) = .next (s.withPrimes w x y) := by
  have hdrawsP : (s.genkeyLoaded w []).Draws x := ⟨rfl, hw, hx⟩
  have hdrawsQ : ((s.genkeyLoaded w []).withPrimeP x).Draws y := ⟨rfl, hw, hy⟩
  have hp := hdrawsP.run_replyMoves (t := (s.genkeyLoaded w []).withPrimeP x)
    (fun a => (s.genkeyLoaded w a).primeReplyStep_withPrimeP rfl x) (replyMoves (y, true) ++ [])
  have hq := hdrawsQ.run_replyMoves (t := s.withPrimes w x y)
    (fun a => ((s.genkeyLoaded w a).withPrimeP x).primeReplyStep_withPrimeQ rfl hne.symm) []
  exact (run_add 6 hp).trans hq

theorem State.withPrimes_trace (s : State) (w x y : Nat) :
    (s.withPrimes w x y).trace = s.trace ++ (candidateEvents w (x, true) ++ candidateEvents w (y, true)) :=
  List.append_assoc _ _ _

/-- Settles O39: two accepted candidates, and then the derivation run to its end. -/
theorem genkeyCompletes : Obligations.GenkeyCompletes := by
  intro s w x y ha hc hk hlow hhigh hx hy p q tot traced hne
  have hready : (s.withPrimes w x y).DeriveReady := State.withPrimes_deriveReady hc hlow hhigh hne
  have hsampled : run 12 (s.genkeyLoaded w s.agenda) = .next (s.withPrimes w x y) :=
    ha ▸ run_genkeyLoaded (Nat.one_le_of_lt hlow) hx hy hne
  have htrace : traced = (s.withPrimes w x y).trace := (s.withPrimes_trace w x y).symm
  refine ⟨s.genkeyLoaded w s.agenda, execGenkey_loads hlow hhigh hk, fun hgcd => ?_, fun hgcd => ?_⟩
  · obtain ⟨g, hrun⟩ := hready.run_notInvertible (.inl rfl) hgcd
    rw [htrace]
    exact ⟨_, g, (run_add _ hsampled).trans hrun⟩
  · obtain ⟨g, d, hd, hrun⟩ := hready.run_commit (.inl rfl) hgcd
    rw [htrace]
    exact ⟨_, g, d, hd, (run_add _ hsampled).trans hrun⟩

/-! ### The committed key -/

/-- Only the engine sets the valid flag of the key slot (10_state.md R27). -/
theorem step_engine_of_keyValid (h : step s = .next t) (hk : s.status.keyValid = false)
    (hk' : t.status.keyValid = true) : ∃ a, engineStep { s with agenda := a } = .next t := by
  have keeps (e : t.status.keyValid = s.status.keyValid) : False := by simp [e, hk] at hk'
  rcases step_cases h with he | ⟨op, rest, -, h⟩ | ⟨rest, -, rfl⟩ | ⟨rnd, a, h⟩ | ⟨v, a, h⟩ | ⟨rest, -, rfl⟩ | ⟨-, a, rfl⟩
  · exact he
  · rcases hostStep_cases h with ⟨off, -, -, rfl⟩ | ⟨off, v, -, -, rfl⟩
    · exact (keeps rfl).elim
    · obtain ⟨-, -, -, hkey, -⟩ := memWrite_frame { s with agenda := rest } off v
      exact (keeps hkey).elim
  · exact (keeps rfl).elim
  · obtain ⟨-, -, -, rfl⟩ := rngReplyStep_cases h
    exact (keeps rfl).elim
  · obtain ⟨-, ⟨-, -, rfl⟩ | ⟨-, -, rfl⟩ | ⟨-, rfl⟩⟩ := primeReplyStep_cases h <;> exact (keeps rfl).elim
  · cases hk'
  · exact (keeps rfl).elim

/-- At the end of the loop the normalized cofactor is the inverse of the public exponent (41_modinv.md R135; 43_keygen.md
R154). -/
theorem State.InverseInv.inverse_of_end (h : s.InverseInv) (hret : s.hid.ret = .toKey) (hr : s.hid.r ≤ 1) {d : Nat}
    (hd : (d : Int) = normalizedInverse s.hid.t s.hid.n) : d < s.hid.tot ∧ Config.eConst * d % s.hid.tot = 1 := by
  have hkey := h.to_key hret
  have htot : 2 ≤ s.hid.tot := hkey.tot_eq ▸ hkey.factors.two_le_totient
  have hone : s.hid.r = 1 := le_antisymm hr h.magnitudes.r_pos
  have hcong := hkey.pairs.r_cong
  rw [hone] at hcong
  rw [← hkey.n_eq] at htot ⊢
  exact normalizedInverse_spec htot h.magnitudes.t_bound hcong hd

/-- The engine step that sets the valid flag in the inverse loop commits the pending key (43_keygen.md R155). -/
theorem engineStep_commit (hs : s.Inv) (hp : s.phase = .miLoop) (h : engineStep s = .next t)
    (hk : s.status.keyValid = false) (hk' : t.status.keyValid = true) :
    s.PendingKeyInv ∧ ∃ d, d < s.hid.tot ∧ Config.eConst * d % s.hid.tot = 1 ∧
      t = ((s.setKeySlot s.hid.p s.hid.q Config.eConst d s.hid.nmod s.hid.tot).setKeyValid true).finish := by
  have hi := hs.inverseInv hp
  have keeps (e : t.status.keyValid = s.status.keyValid) : False := by simp [e, hk] at hk'
  rw [engineStep_miLoop hp] at h
  rcases miLoopStep_cases h with ⟨-, rfl⟩ | ⟨-, -, rfl⟩ | ⟨-, -, -, -, h⟩ | ⟨-, hr, hnonneg, hret, h⟩
  · exact (keeps rfl).elim
  · exact (keeps rfl).elim
  · obtain ⟨-, rfl⟩ := deliverResult_cases h
    exact (keeps rfl).elim
  · obtain ⟨hlt, hinv⟩ := hi.inverse_of_end hret hr (Int.toNat_of_nonneg hnonneg)
    exact ⟨hi.to_key hret, _, hlt, hinv, (commitKey_cases h).2⟩

/-- The product of two distinct factors of at least 2 is at least 6. -/
theorem six_le_mul {p q : Nat} (hp : 2 ≤ p) (hq : 2 ≤ q) (hne : p ≠ q) : 6 ≤ p * q := by
  rcases lt_or_gt_of_ne hne with hlt | hlt
  · exact Nat.mul_le_mul hp (show 3 ≤ q by omega)
  · exact Nat.mul_le_mul (show 3 ≤ p by omega) hq

/-- The pending key with an inverse of the public exponent satisfies the relations once committed (43_keygen.md R163). -/
theorem State.PendingKeyInv.keyRelations (h : s.PendingKeyInv) {d : Nat} (hlt : d < s.hid.tot)
    (hinv : Config.eConst * d % s.hid.tot = 1) :
    ((s.setKeySlot s.hid.p s.hid.q Config.eConst d s.hid.nmod s.hid.tot).setKeyValid true).finish.KeyRelations where
  modulus := h.nmod_eq
  totient := h.tot_eq
  public_exponent := rfl
  d_pos := Nat.pos_of_ne_zero fun hzero : d = 0 => by simp [hzero] at hinv
  d_lt := hlt
  inverse := hinv
  distinct := h.factors.distinct
  p_low := h.factors.p_low
  q_low := h.factors.q_low
  t_low := h.tot_eq ▸ h.factors.two_le_totient
  n_low := h.nmod_eq ▸ six_le_mul h.factors.p_low h.factors.q_low h.factors.distinct

theorem Sampled.bitlen_eq {tr : List PortEvent} {w : Nat} (h : Sampled tr w x) (hw : 1 ≤ w) : bitlen x = w :=
  Machine.bitlen_eq hw h.low h.high

/-- Settles O59: the commit writes the pending key, whose primes `GENKEY` sampled. -/
theorem constructedKeyRelations : Obligations.ConstructedKeyRelations := by
  intro s t hs h hp hk hk'
  obtain ⟨a, he⟩ := step_engine_of_keyValid h hk hk'
  obtain ⟨hkey, d, hlt, hinv, rfl⟩ := engineStep_commit (s := { s with agenda := a }) (hs.with_agenda a) hp he hk hk'
  refine ⟨hkey.keyRelations hlt hinv, fun w hd => ?_⟩
  obtain ⟨hw, hpSampled, hqSampled⟩ := hkey.factors.sampled w hd
  have hpos : 1 ≤ w := le_trans (by decide) hw
  exact ⟨hpSampled.bitlen_eq hpos, hqSampled.bitlen_eq hpos, hpSampled.accepted, hqSampled.accepted⟩

end Sys2Proof.Machine

/-! ## The commands of the key slots (44_keyslot.md R170, R174, R175; 43_keygen.md R165) -/

namespace Sys2Proof.Machine

variable {s : State}

theorem execLoadkey_locked (hk : s.status.keyValid = true) : execLoadkey s = .next (s.raiseErr .keyLocked) := if_pos hk

theorem execLoadkey_loads (hk : s.status.keyValid = false) : execLoadkey s = .next (s.setKeyValid true).finish :=
  if_neg (Bool.eq_false_iff.mp hk)

theorem execProject_noKey (hk : s.status.keyValid = false) : execProject s = .next (s.raiseErr .noKey) :=
  if_pos (by rw [hk]; rfl)

theorem execProject_locked (hk : s.status.keyValid = true) (hp : s.status.pubValid = true) :
    execProject s = .next (s.raiseErr .keyLocked) := by
  rw [execProject, if_neg (by simp [hk]), if_pos hp]

theorem execProject_copies (hk : s.status.keyValid = true) (hp : s.status.pubValid = false) :
    execProject s = .next (((s.setBr .pubE (s.br .keyE)).setBr .pubN (s.br .keyN)).setPubValid true).finish := by
  rw [execProject, if_neg (by simp [hk]), if_neg (Bool.eq_false_iff.mp hp)]

/-- Settles O22: the two clearing commands are their effects written out, the other two one clause for each outcome of
their checks. -/
theorem keySlotCommands : Obligations.KeySlotCommands :=
  ⟨rfl, rfl, rfl, rfl, fun _ =>
    ⟨execLoadkey_locked, execLoadkey_loads, rfl, rfl, execProject_noKey, execProject_locked, execProject_copies⟩⟩

end Sys2Proof.Machine

/-! ## The cipher commands (45_cipher.md R180 to R185) -/

namespace Sys2Proof.Machine

variable {s : State}

/-! ### The CHECK parts -/

theorem execEncrypt_noKey (hk : s.status.pubValid = false) : execEncrypt s = .next (s.raiseErr .noKey) :=
  if_pos (by rw [hk]; rfl)

theorem execEncrypt_tooLarge (hk : s.status.pubValid = true) (h : s.br .pubN ≤ s.br .opa) :
    execEncrypt s = .next (s.raiseErr .blockTooLarge) := by
  rw [execEncrypt, if_neg (by simp [hk]), if_pos h]

theorem execEncrypt_loads (hk : s.status.pubValid = true) (h : s.br .opa < s.br .pubN) :
    execEncrypt s = .next (s.startPow (s.br .opa) (s.br .pubE) (s.br .pubN)) := by
  rw [execEncrypt, if_neg (by simp [hk]), if_neg h.not_ge]

theorem execDecrypt_noKey (hk : s.status.keyValid = false) : execDecrypt s = .next (s.raiseErr .noKey) :=
  if_pos (by rw [hk]; rfl)

theorem execDecrypt_range (hk : s.status.keyValid = true) (h : s.br .keyN = 0) :
    execDecrypt s = .next (s.raiseErr .range) := by
  rw [execDecrypt, if_neg (by simp [hk]), if_pos h]

theorem execDecrypt_loads (hk : s.status.keyValid = true) (h : 0 < s.br .keyN) :
    execDecrypt s = .next (s.startPow (s.br .opa) (s.br .keyD) (s.br .keyN)) := by
  rw [execDecrypt, if_neg (by simp [hk]), if_neg h.ne']

/-! ### The commands -/

/-- Settles O34: one clause for each outcome of the checks, and the loop loaded by the last delivers the power. -/
theorem encryptCompletes : Obligations.EncryptCompletes :=
  ⟨rfl, fun _ => ⟨execEncrypt_noKey, execEncrypt_tooLarge, fun hk hlt hbound =>
    ⟨execEncrypt_loads hk hlt, fun ha => run_startPow (.inl ha) (Nat.zero_lt_of_lt hlt) hbound⟩⟩⟩

/-- Settles O35: one clause for each outcome of the checks, and the loop loaded by the last delivers the power. -/
theorem decryptCompletes : Obligations.DecryptCompletes :=
  ⟨rfl, fun _ => ⟨execDecrypt_noKey, execDecrypt_range, fun hk hpos hbound =>
    ⟨execDecrypt_loads hk hpos, fun ha => run_startPow (.inl ha) hpos hbound⟩⟩⟩

/-! ### The round trip (45_cipher.md R185) -/

/-- Fermat's theorem modulo a prime, for every residue, zero included. -/
theorem pow_modEq_self {p k : Nat} (hp : p.Prime) (hk : 1 ≤ k) (hdvd : p - 1 ∣ k - 1) (x : Nat) : x ^ k ≡ x [MOD p] := by
  have hpow := Int.ModEq.pow_eq_pow hp hdvd hk one_pos x
  rw [pow_one] at hpow
  exact_mod_cast hpow

/-- Modulo the product of two primes an exponent of residue 1 modulo the totient changes nothing. -/
theorem pow_mod_mul_primes {p q k x : Nat} (hp : p.Prime) (hq : q.Prime) (hne : p ≠ q)
    (hk : k % ((p - 1) * (q - 1)) = 1) (hx : x < p * q) : x ^ k % (p * q) = x := by
  have hpos : 1 ≤ k := hk ▸ Nat.mod_le _ _
  have htot : (p - 1) * (q - 1) ∣ k - 1 := by
    simpa only [hk] using Nat.dvd_sub_mod (n := (p - 1) * (q - 1)) k
  have hmodp := pow_modEq_self hp hpos (dvd_of_mul_right_dvd htot) x
  have hmodq := pow_modEq_self hq hpos (dvd_of_mul_left_dvd htot) x
  have hcoprime := (Nat.coprime_primes hp hq).mpr hne
  exact Nat.mod_eq_of_modEq ((Nat.modEq_and_modEq_iff_modEq_mul hcoprime).mp ⟨hmodp, hmodq⟩) hx

theorem powerResidue_powerResidue {x e d n : Nat} (he : e ≠ 0) (hd : d ≠ 0) :
    powerResidue (powerResidue x e n) d n = x ^ (e * d) % n := by
  rw [powerResidue, powerResidue, if_neg he, if_neg hd, ← Nat.pow_mod, pow_mul]

/-- Settles O43: each command delivers its power, and the exponents' product is 1 modulo the totient. -/
theorem decryptOfEncrypt : Obligations.DecryptOfEncrypt := by
  rintro s p q d x hp hq hne hinv hbound ha hpub hpubE hpubN hkey rfl hkeyN rfl hx
  have hpos : 0 < p * q := Nat.zero_lt_of_lt hx
  have hd : s.br .keyD ≠ 0 := fun hzero => by simp [hzero] at hinv
  rw [← hpubN] at hx
  obtain ⟨g, hencrypt⟩ := run_startPow (b := s.br .opa) (e := s.br .pubE) (.inl ha) (hpubN ▸ hpos) (hpubN ▸ hbound)
  set u := (State.setBr { s with hid := g } .res (powerResidue (s.br .opa) (s.br .pubE) (s.br .pubN))).finish
  obtain ⟨_, hdecrypt⟩ := run_startPow (s := u.setBr .opa (u.br .res)) (b := u.br .res) (e := s.br .keyD)
    (.inl ha) (hkeyN ▸ hpos) (hkeyN ▸ hbound)
  refine ⟨_, _, u, _, _, _, execEncrypt_loads hpub hx, hencrypt, rfl, rfl,
    execDecrypt_loads hkey (hkeyN ▸ hpos : 0 < s.br .keyN), hdecrypt, rfl, rfl, ?_⟩
  calc powerResidue (powerResidue (s.br .opa) (s.br .pubE) (s.br .pubN)) (s.br .keyD) (s.br .keyN)
    _ = s.br .opa ^ (65537 * s.br .keyD) % (p * q) := by
      rw [hpubE, hpubN, hkeyN, powerResidue_powerResidue (by decide) hd]
    _ = s.br .opa := pow_mod_mul_primes hp hq hne hinv (hpubN ▸ hx)

end Sys2Proof.Machine

/-! ## The system commands (46_system.md R190, R192, R193) -/

namespace Sys2Proof.Machine

variable (s : State)

/-! ### The two completions, field by field (60_exceptions.md R210, R211) -/

theorem State.finish_eq :
    s.finish = { s with status := { s.status with busy := false, done := true }, phase := .idle } := rfl

theorem State.raiseErr_eq (k : ErrKind) :
    s.raiseErr k = { s with
      status := { s.status with busy := false, done := true, err := true, errcode := k.code }
      phase := .idle } := rfl

/-! ### The commands -/

theorem exec_nop : exec .nop s = .next s.finish := rfl

theorem exec_sign : exec .sign s = .next (s.raiseErr .unimplemented) := rfl

theorem exec_verify : exec .verify s = .next (s.raiseErr .unimplemented) := rfl

theorem ErrKind.code_unimplemented : ErrKind.unimplemented.code = 0x11#8 := rfl

/-- Settles O21: each command is one completion and no other effect, and `ERR_UNIMPLEMENTED` has code `0x11`. -/
theorem systemCommands : Obligations.SystemCommands := by
  refine ⟨rfl, rfl, rfl, fun s => ⟨?nop, ?sign, ?verify⟩⟩
  case nop => rw [exec_nop, State.finish_eq]
  case sign => rw [exec_sign, State.raiseErr_eq, ErrKind.code_unimplemented]
  case verify => rw [exec_verify, State.raiseErr_eq, ErrKind.code_unimplemented]

end Sys2Proof.Machine

/-! ## Errors: the two completions, where an error comes from, and what its step changes (60_exceptions.md R200 to R212)

An error is raised by a CHECK part, with a code of the command's row in the table, or by the last step of an inverse; every
other step leaves `ERR` or clears it. -/

namespace Sys2Proof.Machine

variable {s t : State}

/-- Settles O19, from the two completions field by field; the code column is the definition of `ErrKind.code`. -/
theorem completionsWriteStatusOnly : Obligations.CompletionsWriteStatusOnly :=
  fun s => ⟨s.finish_eq, s.raiseErr_eq, rfl⟩

/-! ### Where an error comes from -/

/-- The engine may raise `k` here: at the CHECK step as the table of 60_exceptions.md R207 says, or in the inverse loop
(41_modinv.md R133). -/
def State.CanRaise (s : State) (k : ErrKind) : Prop :=
  (s.phase = .check ∧ k ∈ errorsOf (decode s.cmd)) ∨ (s.phase = .miLoop ∧ k = .notInvertible)

/-- A CHECK part leaves `ERR`, or it is one error completion of the command's row (60_exceptions.md R207). -/
theorem exec_err {i : Instr} (h : exec i s = .next t) :
    t.status.err = s.status.err ∨ ∃ k ∈ errorsOf (.instr i), t = s.raiseErr k := by
  cases i with
  | nop | clrkey | clrpub => cases h; exact .inl rfl
  | sign | verify => cases h; exact .inr ⟨_, by decide, rfl⟩
  | modpow =>
    rcases execModpow_cases h with ⟨-, rfl⟩ | ⟨-, rfl⟩
    · exact .inr ⟨_, by decide, rfl⟩
    · exact .inl rfl
  | modinv =>
    rcases execModinv_cases h with ⟨-, rfl⟩ | ⟨-, rfl⟩
    · exact .inr ⟨_, by decide, rfl⟩
    · exact .inl rfl
  | genkey w =>
    rcases execGenkey_cases h with ⟨-, rfl⟩ | ⟨-, rfl⟩ | ⟨-, -, -, rfl⟩
    · exact .inr ⟨_, by simp [errorsOf], rfl⟩
    · exact .inr ⟨_, by simp [errorsOf], rfl⟩
    · exact .inl rfl
  | derive =>
    rcases execDerive_cases h with ⟨-, rfl⟩ | ⟨-, rfl⟩ | ⟨-, -, -, -, -, rfl⟩
    · exact .inr ⟨_, by decide, rfl⟩
    · exact .inr ⟨_, by decide, rfl⟩
    · exact .inl rfl
  | loadkey =>
    rcases execLoadkey_cases h with ⟨-, rfl⟩ | ⟨-, rfl⟩
    · exact .inr ⟨_, by decide, rfl⟩
    · exact .inl rfl
  | project =>
    rcases execProject_cases h with ⟨-, rfl⟩ | ⟨-, rfl⟩ | ⟨-, -, rfl⟩
    · exact .inr ⟨_, by decide, rfl⟩
    · exact .inr ⟨_, by decide, rfl⟩
    · exact .inl rfl
  | encrypt =>
    rcases execEncrypt_cases h with ⟨-, rfl⟩ | ⟨-, rfl⟩ | ⟨-, -, rfl⟩
    · exact .inr ⟨_, by decide, rfl⟩
    · exact .inr ⟨_, by decide, rfl⟩
    · exact .inl rfl
  | decrypt =>
    rcases execDecrypt_cases h with ⟨-, rfl⟩ | ⟨-, rfl⟩ | ⟨-, -, rfl⟩
    · exact .inr ⟨_, by decide, rfl⟩
    · exact .inr ⟨_, by decide, rfl⟩
    · exact .inl rfl

theorem miLoopStep_err (h : miLoopStep s = .next t) :
    t.status.err = s.status.err ∨ t = s.raiseErr .notInvertible := by
  rcases miLoopStep_cases h with ⟨-, rfl⟩ | ⟨-, -, rfl⟩ | ⟨-, -, -, -, h⟩ | ⟨-, -, -, -, h⟩
  · exact .inl rfl
  · exact .inr rfl
  · obtain ⟨-, rfl⟩ := deliverResult_cases h; exact .inl rfl
  · obtain ⟨-, rfl⟩ := commitKey_cases h; exact .inl rfl

theorem engineStep_err (h : engineStep s = .next t) :
    t.status.err = s.status.err ∨ ∃ k, s.CanRaise k ∧ t = s.raiseErr k := by
  rcases engineStep_cases h with ⟨hp, i, hd, h⟩ | ⟨hp, r, hd, rfl⟩ | ⟨-, h⟩ | ⟨hp, h⟩ | ⟨-, rfl⟩ | ⟨-, rfl⟩ | ⟨-, h⟩
  · rcases exec_err h with he | ⟨k, hk, rfl⟩
    · exact .inl he
    · exact .inr ⟨k, .inl ⟨hp, hd ▸ hk⟩, rfl⟩
  · exact .inr ⟨_, .inl ⟨hp, by simp [hd, errorsOf]⟩, rfl⟩
  · rcases mpLoopStep_cases h with ⟨-, -, rfl⟩ | ⟨-, -, rfl⟩ <;> exact .inl rfl
  · rcases miLoopStep_err h with he | rfl
    · exact .inl he
    · exact .inr ⟨_, .inr ⟨hp, rfl⟩, rfl⟩
  · exact .inl rfl
  · exact .inl rfl
  · obtain ⟨-, -, rfl⟩ := kgDeriveStep_cases h; exact .inl rfl

/-- No host write sets `ERR`; one to `STATUS` or `CMD` may clear it (10_state.md R34, R35). -/
theorem err_of_memWrite_err {off : Nat} {v : Word} (h : (s.memWrite off v).status.err = true) : s.status.err = true := by
  rcases memWrite_cases s off v with e | ⟨-, e⟩ | ⟨-, -, e⟩ | ⟨-, -, e⟩ | ⟨-, e⟩ | ⟨X, k, -, -, e⟩ |
    ⟨X, k, -, -, -, e⟩ | ⟨X, k, -, -, -, e⟩ <;> rw [e] at h
  case inr.inr.inr.inl => cases h
  case inr.inr.inr.inr.inl => exact (Bool.and_eq_true_iff.mp h).1
  all_goals exact h

/-- Only an error completion of the engine takes `ERR` from 0 to 1 (60_exceptions.md R210, R212). -/
theorem step_raises (h : step s = .next t) (h0 : s.status.err = false) (h1 : t.status.err = true) :
    ∃ k a, s.CanRaise k ∧ t = State.raiseErr { s with agenda := a } k := by
  have not_kept (e : t.status.err = s.status.err) : False := by simp [e, h0] at h1
  rcases step_cases h with ⟨a, h⟩ | ⟨op, rest, -, h⟩ | ⟨rest, -, rfl⟩ | ⟨rnd, a, h⟩ | ⟨v, a, h⟩ | ⟨rest, -, rfl⟩ |
    ⟨-, a, rfl⟩
  · rcases engineStep_err h with he | ⟨k, hk, rfl⟩
    · exact (not_kept he).elim
    · exact ⟨k, a, hk, rfl⟩
  · rcases hostStep_cases h with ⟨off, -, -, rfl⟩ | ⟨off, v, -, -, rfl⟩
    · exact (not_kept rfl).elim
    · exact (not_kept (h1.trans (err_of_memWrite_err h1).symm)).elim
  · exact (not_kept rfl).elim
  · obtain ⟨-, -, -, rfl⟩ := rngReplyStep_cases h
    exact (not_kept rfl).elim
  · obtain ⟨-, ⟨-, -, rfl⟩ | ⟨-, -, rfl⟩ | ⟨-, rfl⟩⟩ := primeReplyStep_cases h <;> exact (not_kept rfl).elim
  · cases h1
  · exact (not_kept rfl).elim

/-- Settles O53: the step is an error completion. -/
theorem errorsArePrecise : Obligations.ErrorsArePrecise := by
  intro s t h h0 h1
  obtain ⟨k, a, -, rfl⟩ := step_raises h h0 h1
  exact State.raiseErr_eq _ k

/-! ### The table -/

/-- The inverse runs for `MODINV`, `GENKEY` and `DERIVE`, and each may end with `ERR_NOT_INVERTIBLE`
(60_exceptions.md R207). -/
theorem State.InverseInv.notInvertible_mem_errorsOf (h : s.InverseInv) : .notInvertible ∈ errorsOf (decode s.cmd) := by
  cases hret : s.hid.ret with
  | toRes => simp [h.to_res hret, errorsOf]
  | toKey =>
    rcases (h.to_key hret).factors.command with hd | ⟨w, hd⟩ <;> simp [hd, errorsOf]

theorem State.Inv.mem_errorsOf_of_canRaise (hs : s.Inv) {k : ErrKind} (hk : s.CanRaise k) :
    k ∈ errorsOf (decode s.cmd) := by
  rcases hk with ⟨-, hk⟩ | ⟨hp, rfl⟩
  · exact hk
  · exact (hs.inverseInv hp).notInvertible_mem_errorsOf

/-- Settles O54: in the inverse loop the invariant names the running command. -/
theorem errorsFollowTheTable : Obligations.ErrorsFollowTheTable := by
  intro s t hs h h0 h1
  obtain ⟨k, a, hk, rfl⟩ := step_raises h h0 h1
  exact ⟨k, hs.mem_errorsOf_of_canRaise hk, rfl⟩

end Sys2Proof.Machine
